-- ==== Sys2Proof/Word.lean ====
section
/-! DEFINITION. The value types of the MEC block: bytes, the number domain, four-lane vectors, the records that
travel on its ports. Spec: 00_scope.md R7, R10, R12; 10_state.md R21; 43_parser.md R199. -/

namespace Sys2Proof

/-- A byte: "an integer in 0..255" (R10). -/
abbrev Byte := BitVec 8

/-- The default instance of the domain of velocities and wheel speeds: exact rationals (R8, R10, R129). The domain itself
is the argument `α` of every type and every function that holds or computes such a number, from `Config` to the step
(R8, D1; log 9); where the argument is not written, it is this one. -/
abbrev Num := Rat

/-- A 4-vector in lane order 0..3, `N_WHEELS` = 4 (R7, R12). -/
structure Lanes (α : Type) where
  l0 : α
  l1 : α
  l2 : α
  l3 : α
deriving DecidableEq, Repr

/-- Lane `k` of a 4-vector. -/
def Lanes.get {α : Type} (v : Lanes α) : Fin 4 → α
  | 0 => v.l0
  | 1 => v.l1
  | 2 => v.l2
  | 3 => v.l3

/-- The same function on every lane. -/
def Lanes.map {α β : Type} (f : α → β) (v : Lanes α) : Lanes β :=
  ⟨f v.l0, f v.l1, f v.l2, f v.l3⟩

/-- A predicate that holds on every lane. -/
def Lanes.all {α : Type} (p : α → Bool) (v : Lanes α) : Bool :=
  p v.l0 && p v.l1 && p v.l2 && p v.l3

/-- One row of the layout matrix: the forward, lateral and rotational coefficients, `N_AXES` = 3 (R7, R121). -/
structure Axes (α : Type) where
  fwd : α
  lat : α
  rot : α
deriving DecidableEq, Repr

/-- The same function on every coefficient. -/
def Axes.map {α β : Type} (f : α → β) (r : Axes α) : Axes β := ⟨f r.fwd, f r.lat, f r.rot⟩

/-- The three sync bytes of one direction (R81, R82). -/
structure Sync where
  s0 : Byte
  s1 : Byte
  s2 : Byte
deriving DecidableEq, Repr

/-- The sync bytes in wire order. -/
def Sync.bytes (y : Sync) : List Byte := [y.s0, y.s1, y.s2]

/-- A planar velocity command `(vx, vy, vr)` (R220, R224). -/
structure Velocity (α : Type := Num) where
  vx : α
  vy : α
  vr : α
deriving DecidableEq, Repr

/-- The two inbound opcode names MATCH may ask about (R194). -/
inductive InboundName where
  | rawImu
  | attitude
deriving DecidableEq, Repr

/-- RawInertialSample: six `i16` (R92). -/
structure RawInertialSample where
  accx : Int
  accy : Int
  accz : Int
  gyrx : Int
  gyry : Int
  gyrz : Int
deriving DecidableEq, Repr

/-- AttitudeSample: three `i16` (R93). -/
structure AttitudeSample where
  angx : Int
  angy : Int
  heading : Int
deriving DecidableEq, Repr

/-- What GET_FRAME hands out: `(RX_OPC, RX_LEN, RX_BUF[0..RX_LEN−1])` (R198). -/
structure FrameView where
  opc : Byte
  len : Nat
  payload : List Byte
deriving DecidableEq, Repr

/-- A three-axis group of a telemetry record (R199). -/
structure Vec3 where
  x : Int
  y : Int
  z : Int
deriving DecidableEq, Repr

/-- The record published on the inertial channel (R199). -/
structure InertialRecord where
  linear : Vec3
  angular : Vec3
deriving DecidableEq, Repr

/-- The record published on the attitude channel (R199). -/
structure AttitudeRecord where
  angx : Int
  angy : Int
  heading : Int
deriving DecidableEq, Repr

end Sys2Proof
end

