-- ==== Sys2Proof/Config.lean ====
section
/-! DEFINITION. The configuration (00_scope.md R7, R8; 10_state.md R30): its fields, the default instance, the
constraints a configuration of this hardware meets, and the free values the spec leaves open. -/

namespace Sys2Proof

/-- `FAULT_MODE` (R8, R254, R255). -/
inductive FaultMode where
  | halt
  | skip
deriving DecidableEq, Repr

/-- The tie rule of `round` (R8, R143): the spec's default, the alternative it names, and any other rule R8 allows,
whose choice at each tie is the free value `Config.tieUp` (log 11). -/
inductive TieRule where
  | awayFromZero
  | toEven
  | other
deriving DecidableEq, Repr

/-- The fields of R30's table, over the number domain `α` (R8: "a model takes the record `Config` holding them as an
argument"; log 9); read-only for every operation but RESET, which takes over the instance the host has chosen (R280).
CLAMP_LO and CLAMP_HI are computed, not stored. -/
structure Config (α : Type := Num) where
  /-- the layout matrix `L`, one row per lane (R121) -/
  layout : Lanes (Axes α)
  inLo : α
  inHi : α
  /-- COMB_LIMIT; an integer here, so that the clamp bounds are integers (log 12) -/
  combLimit : Int
  maxVelocity : Int
  neutral : Int
  envLo : Int
  envHi : Int
  tie : TieRule
  faultMode : FaultMode
  syncTx : Sync
  syncRx : Sync
  opcSetMotor : Byte
  opcQueryRawImu : Byte
  opcQueryAttitude : Byte
  opcRawImu : Byte
  opcAttitude : Byte
  maxPayload : Nat
deriving DecidableEq, Repr

/-- `CLAMP_LO = NEUTRAL − MAX_VELOCITY × COMB_LIMIT` (R7). -/
def Config.clampLo {α : Type} (c : Config α) : Int := c.neutral - c.maxVelocity * c.combLimit

/-- `CLAMP_HI = NEUTRAL + MAX_VELOCITY × COMB_LIMIT` (R7). -/
def Config.clampHi {α : Type} (c : Config α) : Int := c.neutral + c.maxVelocity * c.combLimit

/-- The hardware the spec describes: the defaults of R7, R8 and R121, the rationals as the number domain among them. -/
def Config.default : Config where
  layout := ⟨⟨1, 1, 1⟩, ⟨1, -1, 1⟩, ⟨-1, -1, 1⟩, ⟨-1, 1, 1⟩⟩
  inLo := -1
  inHi := 1
  combLimit := 2
  maxVelocity := 50
  neutral := 1500
  envLo := 1400
  envHi := 1600
  tie := .awayFromZero
  faultMode := .halt
  syncTx := ⟨0x24, 0x4D, 0x3C⟩
  syncRx := ⟨0x24, 0x4D, 0x3E⟩
  opcSetMotor := 0xD6
  opcQueryRawImu := 0x66
  opcQueryAttitude := 0x6C
  opcRawImu := 0x66
  opcAttitude := 0x6C
  maxPayload := 64

/-- The same configuration over another number domain: the rational constants stand for themselves there (D1). -/
def Config.inDomain (α : Type) [Field α] (c : Config) : Config α where
  layout := c.layout.map fun row => row.map fun x : Num => (x : α)
  inLo := c.inLo
  inHi := c.inHi
  combLimit := c.combLimit
  maxVelocity := c.maxVelocity
  neutral := c.neutral
  envLo := c.envLo
  envHi := c.envHi
  tie := c.tie
  faultMode := c.faultMode
  syncTx := c.syncTx
  syncRx := c.syncRx
  opcSetMotor := c.opcSetMotor
  opcQueryRawImu := c.opcQueryRawImu
  opcQueryAttitude := c.opcQueryAttitude
  opcRawImu := c.opcRawImu
  opcAttitude := c.opcAttitude
  maxPayload := c.maxPayload

section Constraints

variable {α : Type} [Field α] [LinearOrder α]

/-- An entry of the layout matrix is −1 or +1 (R121). -/
def isUnit (x : α) : Bool := x == 1 || x == -1

/-- A row of three ±1 entries. -/
def Axes.isUnitRow (r : Axes α) : Bool := isUnit r.fwd && isUnit r.lat && isUnit r.rot

/-- The sum over the four lanes of the product of two columns. -/
def columnProduct (m : Lanes (Axes α)) (p q : Axes α → α) : α :=
  p m.l0 * q m.l0 + p m.l1 * q m.l1 + p m.l2 * q m.l2 + p m.l3 * q m.l3

/-- The constraint on `L` (R121): "entries ±1 and pairwise orthogonal columns" (log 26). -/
def Config.layoutLegal (c : Config α) : Bool :=
  c.layout.all Axes.isUnitRow
    && columnProduct c.layout Axes.fwd Axes.lat == 0
    && columnProduct c.layout Axes.fwd Axes.rot == 0
    && columnProduct c.layout Axes.lat Axes.rot == 0

/-- The constants the source fixes have their values (R7). -/
def Config.constantsLegal (c : Config α) : Bool :=
  c.inLo == -1 && c.inHi == 1 && c.combLimit == 2 && c.maxVelocity == 50 && c.neutral == 1500
    && c.envLo == 1400 && c.envHi == 1600

omit [Field α] [LinearOrder α] in
/-- The wire parameters meet R8's constraints: SYNC_RX[0] differs from the other two, the outbound opcodes are pairwise
distinct, the inbound opcodes are distinct, and 12 ≤ MAX_PAYLOAD ≤ 255. -/
def Config.wireLegal (c : Config α) : Bool :=
  c.syncRx.s0 != c.syncRx.s1 && c.syncRx.s0 != c.syncRx.s2
    && c.opcSetMotor != c.opcQueryRawImu && c.opcSetMotor != c.opcQueryAttitude
    && c.opcQueryRawImu != c.opcQueryAttitude
    && c.opcRawImu != c.opcAttitude
    && decide (12 ≤ c.maxPayload) && decide (c.maxPayload ≤ 255)

/-- A configuration of this hardware: every constraint of R7, R8 and R121. -/
def Config.legal (c : Config α) : Bool := c.layoutLegal && c.constantsLegal && c.wireLegal

end Constraints

/-! ### Free values: constants with no body, so that no proof can see what they are -/

/-- The content of RX_BUF before anything is stored there: "unspecified for every `i`" (R41; log 7). -/
opaque Config.rxBufPowerOn : Nat → Byte

/-- Whether a tie `n + 1/2` goes up, under a tie rule the spec does not name (R8; log 11). -/
opaque Config.tieUp : Int → Bool

/-- Whether the echo is still published for a command whose transmission a fault skipped: "not stated" (R254; log 17). -/
opaque Config.echoWhenSkipped : Bool

/-- The host's three one-shot delays (R234, R235, R265). -/
inductive Delay where
  | settle
  | hold
  | shutdown
deriving DecidableEq, Repr

/-- `T_SETTLE`, `T_HOLD`, `T_SHUTDOWN`: open parameters that no rule reads (R8, R265; log 25). -/
opaque Config.delayMilliseconds : Delay → Nat

/-- `T_TICK` = 50 ms (R8, R265); no rule of the block reads it (log 25). -/
def Config.tickMilliseconds : Nat := 50

end Sys2Proof
end

