-- ==== Sys2Proof/Syntax.lean ====
section
/-! DEFINITION. The instruction set: one constructor per row of spec/opcode_table.json. Six rows are frames of the
wire (30_encoding.md R86), eleven are the operations of the closed list (R96). -/

namespace Sys2Proof

/-- "Wherever this spec says 'instruction' … it means one *operation* of the block …, or, on the serial wire, one
*frame* tagged by an *opcode*" (R3). The operands of MIX and ENCODE are numbers of the domain `α` (R8; log 9). -/
inductive Instr (α : Type := Num) where
  /-- SET_MOTOR: the outbound motor frame, four `u16` in lane order (R86, R91). -/
  | setMotor (cmd : Lanes Int)
  /-- QUERY_RAW_IMU: the outbound raw-inertial query frame (R86, R94). -/
  | queryRawImu
  /-- QUERY_ATTITUDE: the outbound attitude query frame (R86, R94). -/
  | queryAttitude
  /-- RAW_IMU: the inbound raw-inertial frame, six `i16` (R86, R92). -/
  | rawImu (r : RawInertialSample)
  /-- ATTITUDE: the inbound attitude frame, three `i16` (R86, R93). -/
  | attitude (a : AttitudeSample)
  /-- OTHER_FRAME: every other inbound frame (R88, R101, R102). -/
  | otherFrame (opc : Byte) (payload : List Byte)
  /-- MIX, op_index 0 (R120). -/
  | mix (vx vy vr : α)
  /-- ENCODE, op_index 1 (R140). -/
  | encode (w : Lanes α)
  /-- TX_SET_MOTOR, op_index 2 (R162). -/
  | txSetMotor (cmd : Lanes Int)
  /-- TX_QUERY_RAW_IMU, op_index 3 (R163). -/
  | txQueryRawImu
  /-- TX_QUERY_ATTITUDE, op_index 4 (R164). -/
  | txQueryAttitude
  /-- FEED, op_index 5 (R180). -/
  | feed (b : Byte)
  /-- MATCH, op_index 6 (R194). -/
  | matchFrame (opc : InboundName)
  /-- GET_RAW_IMU, op_index 7 (R196). -/
  | getRawImu
  /-- GET_ATTITUDE, op_index 8 (R197). -/
  | getAttitude
  /-- GET_FRAME, op_index 9 (R198). -/
  | getFrame
  /-- RESET, op_index 10 (R280). -/
  | reset
deriving DecidableEq, Repr

end Sys2Proof
end

