-- ==== Sys2Proof/WellFormed.lean ====
section
/-! DEFINITION. Which instructions are well formed under a configuration: the ranges of the frame fields
(30_encoding.md R90 to R93), and the frames that the row OTHER_FRAME stands for (R88, R99, R101, R102). -/

namespace Sys2Proof

variable {α : Type}

/-- `u16`: an integer in 0..65535 (R10). -/
def isU16 (v : Int) : Bool := decide (0 ≤ v) && decide (v < 65536)

/-- `i16`: an integer in −32768..32767 (R10). -/
def isI16 (v : Int) : Bool := decide (-32768 ≤ v) && decide (v < 32768)

/-- Every field of the sample is an `i16` (R92). -/
def RawInertialSample.inRange (r : RawInertialSample) : Bool :=
  isI16 r.accx && isI16 r.accy && isI16 r.accz && isI16 r.gyrx && isI16 r.gyry && isI16 r.gyrz

/-- Every field of the sample is an `i16` (R93). -/
def AttitudeSample.inRange (a : AttitudeSample) : Bool :=
  isI16 a.angx && isI16 a.angy && isI16 a.heading

/-- The pair (LEN, OPC) of one of the three outbound frames (R86, R103). -/
def isOutboundHeader (c : Config α) (n : Nat) (opc : Byte) : Bool :=
  (n == 8 && opc == c.opcSetMotor) || (n == 0 && (opc == c.opcQueryRawImu || opc == c.opcQueryAttitude))

/-- The pair (LEN, OPC) of one of the two typed inbound frames (R86, R101, R102). -/
def isTypedInboundHeader (c : Config α) (n : Nat) (opc : Byte) : Bool :=
  (n == 12 && opc == c.opcRawImu) || (n == 6 && opc == c.opcAttitude)

/-- A frame the row OTHER_FRAME stands for: its length is not malformed (R99) and no earlier row of the table matches
its header (R88). An outbound row can match only in a configuration with SYNC_TX = SYNC_RX (R202). -/
def isOtherFrame (c : Config α) (n : Nat) (opc : Byte) : Bool :=
  decide (n ≤ c.maxPayload) && !(isTypedInboundHeader c n opc)
    && !(c.syncTx == c.syncRx && isOutboundHeader c n opc)

/-- Well-formedness. The operands of an operation are values of their types, all of them legal (R21, R120, R140, R162,
R180, R194). -/
def Instr.wf (c : Config α) : Instr α → Bool
  | .setMotor cmd => cmd.all isU16
  | .queryRawImu => true
  | .queryAttitude => true
  | .rawImu r => r.inRange
  | .attitude a => a.inRange
  | .otherFrame opc payload => isOtherFrame c payload.length opc
  | .mix _ _ _ => true
  | .encode _ => true
  | .txSetMotor _ => true
  | .txQueryRawImu => true
  | .txQueryAttitude => true
  | .feed _ => true
  | .matchFrame _ => true
  | .getRawImu => true
  | .getAttitude => true
  | .getFrame => true
  | .reset => true

end Sys2Proof
end

