-- ==== Sys2Proof/Decode.lean ====
section
/-! DEFINITION. The wire: 16-bit fields, payload layouts, checksum, frames (30_encoding.md R80 to R95), the decoder of
frames (R88, R97: "The decoder … exists for frames only"), then the encoder, written from the same tables. -/

namespace Sys2Proof

variable {α : Type}

/-! ### 16-bit fields (R11, R54, R90) -/

/-- `lo8(v) = v mod 256` (R11). -/
def lo8 (v : Int) : Byte := BitVec.ofInt 8 (v % 256)

/-- `hi8(v) = (v div 256) mod 256` (R11). -/
def hi8 (v : Int) : Byte := BitVec.ofInt 8 (v / 256 % 256)

/-- `le16(b0, b1) = b0 + 256×b1`, the low byte first (R11, R54). -/
def le16 (b0 b1 : Byte) : Int := (b0.toNat : Int) + 256 * (b1.toNat : Int)

/-- `sext_16(u)`: a `u16` read as two's-complement `i16` (R11). -/
def sext16 (u : Int) : Int := if u < 32768 then u else u - 65536

/-- `enc_i16(v) = v mod 65536` (R11). -/
def encI16 (v : Int) : Int := v % 65536

/-- The two bytes of an unsigned field, low byte first (R90). -/
def u16Bytes (v : Int) : List Byte := [lo8 v, hi8 v]

/-- The two bytes of a signed field, low byte first (R90). -/
def i16Bytes (v : Int) : List Byte := [lo8 (encI16 v), hi8 (encI16 v)]

/-- The unsigned field at payload offset `k` (R54: "the two bytes at its even offset and the next one"). The payload is
long enough wherever the model asks; a missing byte counts as 0. -/
def u16At (p : List Byte) (k : Nat) : Int := le16 (p.getD k 0) (p.getD (k + 1) 0)

/-- The signed field at payload offset `k` (R90). -/
def i16At (p : List Byte) (k : Nat) : Int := sext16 (u16At p k)

/-! ### Payload layouts (R91 to R93, R95) -/

/-- `enc_motor` (R95): lane order, each an unsigned field. -/
def encMotor (cmd : Lanes Int) : List Byte :=
  u16Bytes cmd.l0 ++ u16Bytes cmd.l1 ++ u16Bytes cmd.l2 ++ u16Bytes cmd.l3

/-- `dec_motor` (R95). -/
def decMotor (p : List Byte) : Lanes Int := ⟨u16At p 0, u16At p 2, u16At p 4, u16At p 6⟩

/-- `enc_imu` (R95). -/
def encImu (r : RawInertialSample) : List Byte :=
  i16Bytes r.accx ++ i16Bytes r.accy ++ i16Bytes r.accz ++ i16Bytes r.gyrx ++ i16Bytes r.gyry ++ i16Bytes r.gyrz

/-- `dec_imu` (R95). -/
def decImu (p : List Byte) : RawInertialSample :=
  ⟨i16At p 0, i16At p 2, i16At p 4, i16At p 6, i16At p 8, i16At p 10⟩

/-- `enc_att` (R95). -/
def encAtt (a : AttitudeSample) : List Byte := i16Bytes a.angx ++ i16Bytes a.angy ++ i16Bytes a.heading

/-- `dec_att` (R95). -/
def decAtt (p : List Byte) : AttitudeSample := ⟨i16At p 0, i16At p 2, i16At p 4⟩

/-! ### Frames (R81, R84, R95) -/

/-- The exclusive-or of a byte sequence (R84). -/
def xorAll (bs : List Byte) : Byte := bs.foldl (fun acc b => acc ^^^ b) 0

/-- The LEN byte of a payload (R83). -/
def lenByte (p : List Byte) : Byte := BitVec.ofNat 8 p.length

/-- `CHK`: the exclusive-or of LEN, OPC and every payload byte; the sync bytes are not covered (R84). -/
def checksum (len opc : Byte) (p : List Byte) : Byte := xorAll (len :: opc :: p)

/-- `frame_bytes(sync, opc, p)` (R95): SYNC, LEN, OPC, PAYLOAD, CHK. -/
def frameBytes (sync : Sync) (opc : Byte) (p : List Byte) : List Byte :=
  sync.bytes ++ [lenByte p] ++ [opc] ++ p ++ [checksum (lenByte p) opc p]

/-! ### The decoder -/

/-- Why a byte sequence is not a frame of the table. -/
inductive Reject where
  /-- fewer bytes than the header, or than the LEN byte announces (R81, R85) -/
  | truncated
  /-- it begins with neither SYNC_TX nor SYNC_RX (R98) -/
  | noSync
  /-- it begins with SYNC_TX and is none of the three outbound frames (R103) -/
  | notOutbound
  /-- LEN exceeds MAX_PAYLOAD: a malformed length (R99) -/
  | badLength
  /-- CHK differs from the checksum (R100) -/
  | badChecksum
deriving DecidableEq, Repr

/-- The frame rows of the opcode table. -/
inductive Row where
  | setMotor
  | queryRawImu
  | queryAttitude
  | rawImu
  | attitude
  | other
deriving DecidableEq, Repr

/-- The row a header belongs to, "rows tried in file order" (R86, R88). -/
def headerRow (c : Config α) (sync : Sync) (n : Nat) (opc : Byte) : Except Reject Row :=
  if sync = c.syncTx ∧ n = 8 ∧ opc = c.opcSetMotor then .ok .setMotor
  else if sync = c.syncTx ∧ n = 0 ∧ opc = c.opcQueryRawImu then .ok .queryRawImu
  else if sync = c.syncTx ∧ n = 0 ∧ opc = c.opcQueryAttitude then .ok .queryAttitude
  else if sync = c.syncRx ∧ n = 12 ∧ opc = c.opcRawImu then .ok .rawImu
  else if sync = c.syncRx ∧ n = 6 ∧ opc = c.opcAttitude then .ok .attitude
  else if sync = c.syncRx then (if n ≤ c.maxPayload then .ok .other else .error .badLength)
  else if sync = c.syncTx then .error .notOutbound
  else .error .noSync

/-- The instruction of a row, its operands read from the payload (R91 to R93). -/
def Row.build (opc : Byte) (p : List Byte) : Row → Instr α
  | .setMotor => .setMotor (decMotor p)
  | .queryRawImu => .queryRawImu
  | .queryAttitude => .queryAttitude
  | .rawImu => .rawImu (decImu p)
  | .attitude => .attitude (decAtt p)
  | .other => .otherFrame opc p

/-- The body of a frame after its header: `n` payload bytes and CHK, then what follows the frame (R81, R85). -/
def decodeBody (row : Row) (n : Nat) (len opc : Byte) (rest : List Byte) : Except Reject (Instr α × List Byte) :=
  match rest.drop n with
  | [] => .error .truncated
  | chk :: after =>
    if chk = checksum len opc (rest.take n) then .ok (row.build opc (rest.take n), after) else .error .badChecksum

/-- The decoder: the first frame of a byte sequence and the bytes after it. Total on any bytes. -/
def decode (c : Config α) : List Byte → Except Reject (Instr α × List Byte)
  | s0 :: s1 :: s2 :: len :: opc :: rest =>
    match headerRow c ⟨s0, s1, s2⟩ len.toNat opc with
    | .error e => .error e
    | .ok row => decodeBody row len.toNat len opc rest
  | _ => .error .truncated

/-! ### The encoder -/

/-- The bytes of an instruction: a frame has them (R95, R86), an operation has no binary encoding (R97). -/
def encode (c : Config α) : Instr α → Option (List Byte)
  | .setMotor cmd => some (frameBytes c.syncTx c.opcSetMotor (encMotor cmd))
  | .queryRawImu => some (frameBytes c.syncTx c.opcQueryRawImu [])
  | .queryAttitude => some (frameBytes c.syncTx c.opcQueryAttitude [])
  | .rawImu r => some (frameBytes c.syncRx c.opcRawImu (encImu r))
  | .attitude a => some (frameBytes c.syncRx c.opcAttitude (encAtt a))
  | .otherFrame opc payload => some (frameBytes c.syncRx opc payload)
  | .mix _ _ _ => none
  | .encode _ => none
  | .txSetMotor _ => none
  | .txQueryRawImu => none
  | .txQueryAttitude => none
  | .feed _ => none
  | .matchFrame _ => none
  | .getRawImu => none
  | .getAttitude => none
  | .getFrame => none
  | .reset => none

/-! ### A table word as bytes of the wire (log 3) -/

/-- The `n` bytes of a numeral, the most significant first: how the table's `match` numbers its header, "the byte at
offset 0 leftmost (most significant)" (R88). -/
def bytesMsbFirst (n w : Nat) : List Byte :=
  (List.range n).map fun k => BitVec.ofNat 8 (w >>> (8 * (n - 1 - k)))

/-- The `n` bytes of a numeral, the least significant first: the first byte in bits 7..0. -/
def bytesLsbFirst (n w : Nat) : List Byte := (List.range n).map fun k => BitVec.ofNat 8 (w >>> (8 * k))

/-- The whole frame whose first bytes are given: missing header and payload bytes are 0, and a missing CHK is the
checksum the format requires (R84), since CHK is no operand. -/
def completeFrame (given : List Byte) : List Byte :=
  let header := (given ++ List.replicate 5 0).take 5
  let len : Byte := header.getD 3 0
  let payload := (given.drop 5 ++ List.replicate len.toNat 0).take len.toNat
  let chk := given.getD (5 + len.toNat) (checksum len (header.getD 4 0) payload)
  header ++ payload ++ [chk]

/-- The decoder finds a frame of the table at the head of the bytes. -/
def isFrame (c : Config α) (bs : List Byte) : Bool :=
  match decode c bs with
  | .ok _ => true
  | .error _ => false

/-- The wire bytes of a table word of `nbits` bits: the numeral read as the table writes it (R88) where that is a
frame, else read with the first byte in its lowest bits. -/
def tableWordBytes (c : Config α) (nbits w : Nat) : List Byte :=
  let msb := completeFrame (bytesMsbFirst (nbits / 8) w)
  if isFrame c msb then msb else completeFrame (bytesLsbFirst (nbits / 8) w)

/-- The instruction the decoder reads from a table word, under the default configuration. -/
def decodeTableWord (nbits w : Nat) : Option Instr :=
  match decode Config.default (tableWordBytes Config.default nbits w) with
  | .ok (i, _) => some i
  | .error _ => none

end Sys2Proof
end

