-- ==== Sys2Proof/Machine/State.lean ====
section
/-! DEFINITION. The state of the machine as plain data (10_state.md; 44_host_sequences.md for the host's part), the
reasons a step can stop, and the state right after reset (R41). -/

namespace Sys2Proof.Machine

/-- The phase of the parser, RX_PHASE (R31). -/
inductive Phase where
  | sync0
  | sync1
  | sync2
  | len
  | opc
  | payload
  | chk
deriving DecidableEq, Repr

/-- RX_BUF: the cells something has been stored in, addresses strictly rising. A cell that is not listed holds its
power-on content, the free value `Config.rxBufPowerOn` (R36, R41; log 7). -/
abbrev Memory := List Host.Cell

/-- The faults of the machine (R250, R271). -/
inductive Fault where
  /-- `EnvelopeViolation(k, c)`, label E1 (R250). Raised by ENCODE, TX_SET_MOTOR and the frame SET_MOTOR. The spec
  describes its entry, so it is taken: it stands on the result port of a NEXT state, never as the outcome of a step
  (log 4). Safe: it is the spec's own fault. -/
  | envelopeViolation (lane : Fin 4) (value : Int)
  /-- An access to RX_BUF at an index that does not exist (R50: indices 0..MAX_PAYLOAD−1). Raised by FEED, by the
  inbound frames and by GET_RAW_IMU, GET_ATTITUDE and GET_FRAME, only in states outside the ranges of R32 and R34,
  which no run reaches (R200; log 8). Safe: the machine stops. -/
  | rxBufOutside (index : Nat)
deriving DecidableEq, Repr

/-- The refusals of the machine (R256, R271). -/
inductive Refusal where
  /-- An instruction that has no meaning yet, raised by `exec`. Safe: the machine stops. -/
  | notModelled (mnemonic : String)
  /-- An operation other than RESET invoked while HALTED = 1 (R256). The spec gives the refusal its effect (no state
  changes, the refusal is visible to the host), so it stands on the result port of a NEXT state (log 5). Safe. -/
  | halted
  /-- A configuration that breaks the constraints of R7, R8 and R121, offered by the host. Raised by the event
  `configure`. Safe: the machine stops (log 13). -/
  | illegalConfig
deriving DecidableEq, Repr

/-- What stands on the block's result ports after the last operation (R21; log 6). -/
inductive Port (α : Type := Num) where
  /-- no operation has been invoked since power-on -/
  | idle
  /-- the operation ended and has no result: TX_*, the outbound frames, RESET -/
  | completed
  /-- `w[0..3]`, of MIX -/
  | wheels (w : Lanes α)
  /-- `cmd[0..3]`, of ENCODE -/
  | motor (cmd : Lanes Int)
  /-- `done`, of FEED -/
  | done (d : Bool)
  /-- `hit`, of MATCH -/
  | hit (h : Bool)
  /-- `imu`, of GET_RAW_IMU -/
  | imu (r : Option RawInertialSample)
  /-- `att`, of GET_ATTITUDE -/
  | att (a : Option AttitudeSample)
  /-- the raw frame, of GET_FRAME -/
  | frame (f : Option FrameView)
  /-- `fault`, of ENCODE and TX_SET_MOTOR -/
  | fault (f : Fault)
  /-- the operation was refused (R256, R271) -/
  | refused (r : Refusal)
deriving DecidableEq, Repr

/-- Where the host's process stands: how far the startup sequence has come (R283, steps 2 to 7), ticking, the wait of the
shutdown sequence done, or over (R234, R235, R252; log 21). -/
inductive HostPhase where
  /-- the block has been RESET, the transport is not open -/
  | booting
  /-- the transport is open and configured -/
  | opened
  /-- the settle delay has passed -/
  | settled
  /-- the stale bytes have been discarded; TX held `sent` bytes then -/
  | flushed (sent : Nat)
  /-- neutral has been commanded after the flush and the hold delay has passed; TX held `sent` bytes then -/
  | held (sent : Nat)
  /-- startup is complete: the scheduler ticks -/
  | ticking
  /-- neutral has been commanded and the shutdown delay has passed; TX held `sent` bytes then -/
  | parked (sent : Nat)
  /-- the transport is released, or could not be opened -/
  | stopped
deriving DecidableEq, Repr

/-- What the scheduler worker does next: an operation of the block, a pseudo-operation (R105), or a step of the
sequences of 44_host_sequences.md (log 15). Where a move exists is `moveExists` (R236; log 31). -/
inductive Move (α : Type := Num) where
  /-- invoke one operation, or carry one frame -/
  | op (i : Instr α)
  /-- bytes on the wire: the first frame in them runs (log 3) -/
  | wire (bs : List Byte)
  /-- SEND_VELOCITY (R105) -/
  | sendVelocity (v : Velocity α)
  /-- SEND_NEUTRAL (R105) -/
  | sendNeutral
  /-- POLL (R105) -/
  | poll
  /-- FEEDS (R105) -/
  | feeds (bs : List Byte)
  /-- DISPATCH (R105, R227) -/
  | dispatch
  /-- `ENCODE w` with the `w` that MIX put on its port -/
  | encodeResult
  /-- `TX_SET_MOTOR m` with the `m` that ENCODE put on its port -/
  | txResult
  /-- publish the sample on the port, if there is one (R227) -/
  | publish
  /-- publish the consumed command as feedback (R230) -/
  | echo (v : Velocity α)
  /-- step 1 of a tick: feed what the transport holds (R226) -/
  | drain
  /-- dispatch if the FEED just made returned true (R227) -/
  | dispatchIfDone
  /-- step 2 of a tick: swap-and-clear of PENDING (R222, R228) -/
  | consume
  /-- one tick (R225, R232) -/
  | tick
  /-- open and configure the transport; `false` is an open failure (R234) -/
  | openTransport (ok : Bool)
  /-- one of the host's fixed delays (R234, R235) -/
  | wait (d : Delay)
  /-- discard what the transport has buffered (R234, R283) -/
  | flush
  /-- the scheduler begins ticking (R283) -/
  | begin
  /-- release the transport (R235) -/
  | release
  /-- the startup sequence (R234, R283), with the outcome of opening the transport -/
  | startup (openOk : Bool)
  /-- the shutdown sequence (R235) -/
  | shutdown
deriving DecidableEq, Repr

/-- What the world outside the worker does (R219, R221, R233, R236, R258; log 15). -/
inductive Event (α : Type := Num) where
  /-- the command intake writes PENDING (R221) -/
  | intake (v : Velocity α)
  /-- bytes become available on the transport, any bytes (R62, R258) -/
  | arrive (bs : List Byte)
  /-- the tick timer expires (R225, R258) -/
  | timer
  /-- the next publish is going to fail (R233) -/
  | busFailure
  /-- the host establishes the configuration for the next RESET (R236, R280) -/
  | configure (c : Config α)
deriving DecidableEq, Repr

/-- The whole state, over the number domain `α` (R8; log 9). Each field's rule and reset value stand in INVENTORY.md. -/
structure State (α : Type := Num) where
  /-- the configuration in force (R30) -/
  cfg : Config α
  /-- the configuration the host has chosen for the next RESET (R236, R280) -/
  chosenCfg : Config α
  /-- RX_PHASE (R31) -/
  rxPhase : Phase
  /-- RX_LEN (R32) -/
  rxLen : Nat
  /-- RX_OPC (R33) -/
  rxOpc : Byte
  /-- RX_IDX (R34) -/
  rxIdx : Nat
  /-- RX_CHK (R35) -/
  rxChk : Byte
  /-- RX_BUF (R36) -/
  rxBuf : Memory
  /-- RX_VALID (R37) -/
  rxValid : Bool
  /-- HALTED (R40) -/
  halted : Bool
  /-- FAULT_INFO (R40) -/
  faultInfo : Option (Fin 4 × Int)
  /-- TX, oldest byte first (R39, R52) -/
  tx : List Byte
  /-- the result ports (R21); the model's own field (log 6) -/
  out : Port α
  /-- PENDING (R220) -/
  pending : Option (Velocity α)
  /-- bytes of RX the transport holds, next byte first (R51, R258) -/
  transport : List Byte
  /-- records published on the inertial channel, oldest first (R227) -/
  inertialOut : List InertialRecord
  /-- records published on the attitude channel, oldest first (R227) -/
  attitudeOut : List AttitudeRecord
  /-- commands echoed, oldest first (R230) -/
  echoOut : List (Velocity α)
  /-- the next publish fails (R233; log 18) -/
  busFailing : Bool
  /-- where the host's process stands (R234, R235; log 21) -/
  hostPhase : HostPhase
  /-- what the worker has still to do, next first; the model's own field (log 1) -/
  agenda : List (Move α)
  /-- the schedule of outside events: `some e` takes the next step for `e`, `none` gives it to the worker, and so
  does the end of the list; the model's own field (log 15) -/
  inputs : List (Option (Event α))
deriving DecidableEq, Repr

/-- The machine right after power-on, under the configuration "chosen at reset" (R41; logs 6, 7, 13, 18, 21, 24 for the
fields R41 does not give). -/
def State.powerOn {α : Type} (c : Config α) : State α where
  cfg := c
  chosenCfg := c
  rxPhase := .sync0
  rxLen := 0
  rxOpc := 0
  rxIdx := 0
  rxChk := 0
  rxBuf := []
  rxValid := false
  halted := false
  faultInfo := none
  tx := []
  out := .idle
  pending := none
  transport := []
  inertialOut := []
  attitudeOut := []
  echoOut := []
  busFailing := false
  hostPhase := .booting
  agenda := []
  inputs := []

/-- The machine right after power-on, under the default configuration (log 13). -/
def State.reset : State := State.powerOn Config.default

end Sys2Proof.Machine
end

