-- ==== Sys2Proof/Machine/Ops.lean ====
section
/-! DEFINITION. The named operations over the state: RX_BUF, TX, the parser's cursor, refusal while halted, taking the
one fault (60_exceptions.md R253 to R256), and leaving the halted state (R257, R280). -/

namespace Sys2Proof.Machine

variable {α : Type}

/-- The outcome of a step of this machine, over the number domain `α`. -/
abbrev Result (α : Type := Num) := Host.Outcome (State α) Fault Refusal

/-- Goes on with `f` from the next state; a fault or a refusal ends the sequence. -/
def thenDo (o : Result α) (f : State α → Result α) : Result α :=
  match o with
  | .next s => f s
  | .fault r => .fault r
  | .refused r => .refused r

/-- The operation ends with this value on its result port (R21). -/
def answer (p : Port α) (s : State α) : Result α := .next { s with out := p }

/-! ### RX_BUF -/

/-- The byte stored at an index, if anything has been stored there. -/
def Memory.read : Memory → Nat → Option Byte
  | [], _ => none
  | (x, v) :: m, a => if a = x then some v else Memory.read m a

/-- Stores a byte, keeping the addresses strictly rising. -/
def Memory.write : Memory → Nat → Byte → Memory
  | [], a, b => [(a, b)]
  | (x, v) :: m, a, b =>
    if a < x then (a, b) :: (x, v) :: m
    else if a = x then (a, b) :: m
    else (x, v) :: Memory.write m a b

/-- Every address is at least `lo`, and addresses strictly rise. -/
def Memory.risesFrom : Nat → Memory → Bool
  | _, [] => true
  | lo, (x, _) :: m => decide (lo ≤ x) && Memory.risesFrom (x + 1) m

/-- The canonical form: addresses strictly rising. An unlisted address has no stored byte, so no entry can equal what
it holds (log 7). -/
def Memory.wf (m : Memory) : Bool := Memory.risesFrom 0 m

/-- Every address is below `n`. -/
def Memory.below (n : Nat) (m : Memory) : Bool := m.all fun cell => decide (cell.1 < n)

/-- The cells whose address is below `n`. -/
def Memory.keepBelow (n : Nat) (m : Memory) : Memory := m.filter fun cell => decide (cell.1 < n)

/-- `RxBuf[i]`: the stored byte, or the unspecified power-on content (R41; log 7). -/
def bufByte (s : State α) (i : Nat) : Byte := (Memory.read s.rxBuf i).getD (Config.rxBufPowerOn i)

/-- `RX_BUF[i] <- b`. The indices are 0..MAX_PAYLOAD−1 (R36, R50); another one does not exist (log 8). -/
def bufStore (i : Nat) (b : Byte) (s : State α) : Result α :=
  if i < s.cfg.maxPayload then .next { s with rxBuf := Memory.write s.rxBuf i b } else .fault (.rxBufOutside i)

/-- Reads `RX_BUF[0..n−1]` and goes on with the bytes (R36); a slice that leaves the buffer does not exist (log 8). -/
def withSlice (n : Nat) (s : State α) (f : List Byte → Result α) : Result α :=
  if n ≤ s.cfg.maxPayload then f ((List.range n).map (bufByte s)) else .fault (.rxBufOutside s.cfg.maxPayload)

/-! ### Streams and cursor -/

/-- `TxWrite(bytes)` (R52): appended in order, contiguously. -/
def txWrite (bs : List Byte) (s : State α) : State α := { s with tx := s.tx ++ bs }

/-- `cursor_reset()` (R180). -/
def cursorReset (s : State α) : State α := { s with rxPhase := .sync0, rxIdx := 0, rxChk := 0 }

/-! ### Refusal, the fault, and the way out -/

/-- While HALTED = 1 an operation is refused: "it changes no state, appends nothing to TX, consumes no byte and returns
no result" (R256); the refusal is visible to the host (R271; log 5). -/
def unlessHalted (s : State α) (body : State α → Result α) : Result α :=
  if s.halted then answer (.refused .halted) s else body s

/-- `raise EnvelopeViolation(k, c)`: taking the one fault. In `halt` mode HALTED is set and FAULT_INFO records the first
violation (R255); in `skip` mode FAULT_INFO records this one and the block goes on (R254). Nothing else changes, and
the fault is returned to the host (R253; log 4). -/
def raiseEnvelope (k : Fin 4) (c : Int) (s : State α) : Result α :=
  match s.cfg.faultMode with
  | .halt =>
    answer (.fault (.envelopeViolation k c))
      { s with halted := true, faultInfo := if s.faultInfo.isSome then s.faultInfo else some (k, c) }
  | .skip => answer (.fault (.envelopeViolation k c)) { s with faultInfo := some (k, c) }

/-- An actuator value outside [ENV_LO, ENV_HI] (R250). -/
def outsideEnvelope (c : Config α) (v : Int) : Bool := decide (v < c.envLo) || decide (c.envHi < v)

/-- The first offending lane "in the order 0, 1, 2, 3" (R259). -/
def firstViolation (c : Config α) (cmd : Lanes Int) : Option (Fin 4 × Int) :=
  if outsideEnvelope c cmd.l0 then some (0, cmd.l0)
  else if outsideEnvelope c cmd.l1 then some (1, cmd.l1)
  else if outsideEnvelope c cmd.l2 then some (2, cmd.l2)
  else if outsideEnvelope c cmd.l3 then some (3, cmd.l3)
  else none

/-- The envelope check of ENCODE and TX_SET_MOTOR (R145, R165): the fault, or on with the command. -/
def checkEnvelope (cmd : Lanes Int) (s : State α) (ok : State α → Result α) : Result α :=
  match firstViolation s.cfg cmd with
  | some (k, c) => raiseEnvelope k c s
  | none => ok s

/-- The reset of the block: "there is no return from the fault …; the only way out is RESET" (R257). The receiver, the
flags, the fault record and TX take their reset values, RX_BUF is not written (it keeps the cells that exist under the new
MAX_PAYLOAD; log 7), the configuration the host has chosen comes into force (R280), and the host's slot is empty (R41;
log 14). Nothing is sent, nothing is read (R281). -/
def resetBlock (s : State α) : State α :=
  { s with
    cfg := s.chosenCfg
    rxPhase := .sync0, rxIdx := 0, rxChk := 0, rxLen := 0, rxOpc := 0
    rxValid := false
    rxBuf := Memory.keepBelow s.chosenCfg.maxPayload s.rxBuf
    halted := false, faultInfo := none
    tx := []
    pending := none
    hostPhase := .booting }

end Sys2Proof.Machine
end

