-- ==== Sys2Proof/Machine/Operands.lean ====
section
/-! DEFINITION. The arithmetic of the operands: clamp, dot product, amplitude, rounding, the affine map (00_scope.md R11,
40_mixer.md, 41_encoder.md). The number domain is an argument: "an ordered field" (R8, D1), and for `round` one in which every
number has a nearest integer (log 9). -/

namespace Sys2Proof.Machine

variable {α : Type} [Field α] [LinearOrder α]

/-- `clamp(x, lo, hi)` in `Num` (R11). -/
def clampNum (x lo hi : α) : α := if x < lo then lo else if hi < x then hi else x

/-- `clamp(x, lo, hi)` on integers (R11, R144). -/
def clampInt (x lo hi : Int) : Int := if x < lo then lo else if hi < x then hi else x

/-- `abs(x)` (R11). -/
def absNum (x : α) : α := if x < 0 then -x else x

/-- The larger of two. -/
def maxNum (x y : α) : α := if x < y then y else x

/-- The dot product of a row of the layout with the clamped inputs (R121). -/
def dotRow (row : Axes α) (cx cy cr : α) : α := row.fwd * cx + row.lat * cy + row.rot * cr

/-- An input, clamped to [IN_LO, IN_HI] (R122). -/
def clampInput (c : Config α) (v : α) : α := clampNum v c.inLo c.inHi

/-- The raw wheel speeds: clamp each input independently (R122), then one dot product per lane (R126). -/
def rawSpeeds (c : Config α) (vx vy vr : α) : Lanes α :=
  c.layout.map fun row => dotRow row (clampInput c vx) (clampInput c vy) (clampInput c vr)

/-- `amp = max(|r0|, |r1|, |r2|, |r3|)` (R123). -/
def amplitude (r : Lanes α) : α :=
  maxNum (maxNum (absNum r.l0) (absNum r.l1)) (maxNum (absNum r.l2) (absNum r.l3))

/-- The scaled amplitude `s = amp / COMB_LIMIT` (R123). -/
def scaledAmplitude (c : Config α) (r : Lanes α) : α := amplitude r / (c.combLimit : α)

/-- Proportional saturation, strict: all four lanes are divided by `s` when `s > 1`, none otherwise (R124). -/
def saturate (c : Config α) (r : Lanes α) : Lanes α :=
  if 1 < scaledAmplitude c r then r.map (fun x => x / scaledAmplitude c r) else r

/-- The result of MIX (R120). -/
def mixLanes (c : Config α) (vx vy vr : α) : Lanes α := saturate c (rawSpeeds c vx vy vr)

/-- At the tie `n + 1/2`: whether the rule takes `n + 1` (R143; log 11 for `other`). -/
def tieGoesUp (t : TieRule) (n : Int) : Bool :=
  match t with
  | .awayFromZero => decide (0 ≤ n)
  | .toEven => decide (n % 2 ≠ 0)
  | .other => Config.tieUp n

/-- `round(x)`: the nearest integer (R142), a tie by the configuration's rule (R143). -/
def roundNum [FloorRing α] (t : TieRule) (x : α) : Int :=
  let n := ⌊x⌋
  if x - (n : α) < 1 / 2 then n
  else if 1 / 2 < x - (n : α) then n + 1
  else if tieGoesUp t n then n + 1 else n

/-- The affine map `NEUTRAL + MAX_VELOCITY × w`, formed exactly before rounding (R141). -/
def affine (c : Config α) (w : α) : α := (c.neutral : α) + (c.maxVelocity : α) * w

/-- One lane of ENCODE before its check: map, round, clamp (R140, R259 (b)). -/
def encodeLane [FloorRing α] (c : Config α) (w : α) : Int := clampInt (roundNum c.tie (affine c w)) c.clampLo c.clampHi

/-- The four clamped lanes of ENCODE. A lane does not depend on another, so checking after all four are formed reports
the same first offender as checking each in turn (R126, R147; log 23). -/
def encodeLanes [FloorRing α] (c : Config α) (w : Lanes α) : Lanes Int := w.map (encodeLane c)

end Sys2Proof.Machine
end

