-- ==== Sys2Proof/Machine/Flags.lean ====
section
/-! DEFINITION. The flag RX_VALID and the results computed from it (10_state.md R23, R37; 43_parser.md R188, R189, R191,
R194). HALTED, the other flag, is set by `raiseEnvelope` and cleared by `resetBlock`. -/

namespace Sys2Proof.Machine

variable {α : Type}

/-- "Every FEED first clears RX_VALID" (R191). -/
def clearValid (s : State α) : State α := { s with rxValid := false }

/-- FEED returns false (R180). -/
def notDone (s : State α) : Result α := answer (.done false) s

/-- Frame complete: RX_VALID is set, the cursor reset, FEED returns true (R188). -/
def frameComplete (s : State α) : Result α := answer (.done true) (cursorReset { s with rxValid := true })

/-- Drop: the cursor is reset, RX_VALID stays 0, FEED returns false, nothing else happens (R189). -/
def dropFrame (s : State α) : Result α := notDone (cursorReset s)

/-- The payload length of a typed inbound frame (R86). -/
def typedLen : InboundName → Nat
  | .rawImu => 12
  | .attitude => 6

/-- The opcode of a typed inbound frame (R86). -/
def typedOpc (c : Config α) : InboundName → Byte
  | .rawImu => c.opcRawImu
  | .attitude => c.opcAttitude

/-- The result of MATCH: RX_VALID = 1, and the latched opcode and length are those of the name (R194). -/
def isHit (s : State α) (n : InboundName) : Bool :=
  s.rxValid && decide (s.rxOpc = typedOpc s.cfg n) && decide (s.rxLen = typedLen n)

end Sys2Proof.Machine
end

