-- ==== Sys2Proof/Machine/Encoder.lean ====
section
/-! DEFINITION. The Command Encoder: ENCODE (41_encoder.md R140). -/

namespace Sys2Proof.Machine

variable {α : Type} [Field α] [LinearOrder α] [FloorRing α]

/-- ENCODE (R140): four commands on the result port, or EnvelopeViolation at the first lane whose clamped value is
outside the envelope (R145, R259). -/
def execEncode (w : Lanes α) (s : State α) : Result α :=
  unlessHalted s fun s =>
    checkEnvelope (encodeLanes s.cfg w) s fun s => answer (.motor (encodeLanes s.cfg w)) s

end Sys2Proof.Machine
end

