-- ==== Sys2Proof/Machine/Framer.lean ====
section
/-! DEFINITION. The outbound framer: TX_SET_MOTOR, TX_QUERY_RAW_IMU, TX_QUERY_ATTITUDE (42_framer.md R162 to R164). -/

namespace Sys2Proof.Machine

variable {α : Type}

/-- Appends one outbound frame to TX (R160): `frame_bytes(SYNC_TX, opc, payload)`. -/
def sendFrame (opc : Byte) (payload : List Byte) (s : State α) : Result α :=
  answer .completed (txWrite (frameBytes s.cfg.syncTx opc payload) s)

/-- The motor frame, after the envelope check: on a fault nothing is appended, "not even the sync bytes" (R162, R165,
R168). -/
def sendMotor (cmd : Lanes Int) (s : State α) : Result α :=
  unlessHalted s fun s => checkEnvelope cmd s fun s => sendFrame s.cfg.opcSetMotor (encMotor cmd) s

/-- The raw-inertial query frame (R163). -/
def sendQueryRawImu (s : State α) : Result α := unlessHalted s fun s => sendFrame s.cfg.opcQueryRawImu [] s

/-- The attitude query frame (R164). -/
def sendQueryAttitude (s : State α) : Result α := unlessHalted s fun s => sendFrame s.cfg.opcQueryAttitude [] s

/-- TX_SET_MOTOR (R162). -/
def execTxSetMotor (cmd : Lanes Int) (s : State α) : Result α := sendMotor cmd s

/-- TX_QUERY_RAW_IMU (R163). -/
def execTxQueryRawImu (s : State α) : Result α := sendQueryRawImu s

/-- TX_QUERY_ATTITUDE (R164). -/
def execTxQueryAttitude (s : State α) : Result α := sendQueryAttitude s

end Sys2Proof.Machine
end

