-- ==== Sys2Proof/Machine/Parser.lean ====
section
/-! DEFINITION. The inbound incremental parser: FEED (43_parser.md R180 to R192). -/

namespace Sys2Proof.Machine

variable {α : Type}

/-- Phase SYNC0 (R181). -/
def feedSync0 (b : Byte) (s : State α) : Result α :=
  notDone { s with rxPhase := if b = s.cfg.syncRx.s0 then .sync1 else .sync0 }

/-- Phase SYNC1 (R182). -/
def feedSync1 (b : Byte) (s : State α) : Result α :=
  notDone { s with
    rxPhase := if b = s.cfg.syncRx.s1 then .sync2 else if b = s.cfg.syncRx.s0 then .sync1 else .sync0 }

/-- Phase SYNC2 (R183). -/
def feedSync2 (b : Byte) (s : State α) : Result α :=
  notDone { s with
    rxPhase := if b = s.cfg.syncRx.s2 then .len else if b = s.cfg.syncRx.s0 then .sync1 else .sync0 }

/-- Phase LEN (R184): the length test precedes any write of RX_LEN (R259 (d)). -/
def feedLen (b : Byte) (s : State α) : Result α :=
  if s.cfg.maxPayload < b.toNat then dropFrame s
  else notDone { s with rxLen := b.toNat, rxIdx := 0, rxChk := b, rxPhase := .opc }

/-- Phase OPC (R185). -/
def feedOpc (b : Byte) (s : State α) : Result α :=
  notDone { s with
    rxOpc := b, rxChk := s.rxChk ^^^ b, rxPhase := if s.rxLen = 0 then .chk else .payload }

/-- Phase PAYLOAD (R186). -/
def feedPayload (b : Byte) (s : State α) : Result α :=
  thenDo (bufStore s.rxIdx b s) fun s =>
    notDone { s with
      rxChk := s.rxChk ^^^ b, rxIdx := s.rxIdx + 1
      rxPhase := if s.rxIdx + 1 = s.rxLen then .chk else .payload }

/-- Phase CHK (R187): complete (R188) or drop (R189). -/
def feedChk (b : Byte) (s : State α) : Result α := if b = s.rxChk then frameComplete s else dropFrame s

/-- One transition of the parser: RX_VALID is cleared, then the row of the transition table that applies (R191, R192). -/
def feedByte (b : Byte) (s : State α) : Result α :=
  match s.rxPhase with
  | .sync0 => feedSync0 b (clearValid s)
  | .sync1 => feedSync1 b (clearValid s)
  | .sync2 => feedSync2 b (clearValid s)
  | .len => feedLen b (clearValid s)
  | .opc => feedOpc b (clearValid s)
  | .payload => feedPayload b (clearValid s)
  | .chk => feedChk b (clearValid s)

/-- FEEDS (R105): each byte in arrival order, exactly once (R51). -/
def feedAll : List Byte → State α → Result α
  | [], s => .next s
  | b :: bs, s => thenDo (feedByte b s) (feedAll bs)

/-- FEED (R180). -/
def execFeed (b : Byte) (s : State α) : Result α := unlessHalted s (feedByte b)

end Sys2Proof.Machine
end

