-- ==== Sys2Proof/Machine/Frames.lean ====
section
/-! DEFINITION. The six frame rows of the opcode table. An outbound frame is what the block puts on TX; an inbound frame
is a sequence of bytes the parser is fed (30_encoding.md R86; log 2). -/

namespace Sys2Proof.Machine

variable {α : Type}

/-- SET_MOTOR, "produced by host operation TX_SET_MOTOR" (R86, R162). -/
def execSetMotor (cmd : Lanes Int) (s : State α) : Result α := sendMotor cmd s

/-- QUERY_RAW_IMU (R86, R163). -/
def execQueryRawImu (s : State α) : Result α := sendQueryRawImu s

/-- QUERY_ATTITUDE (R86, R164). -/
def execQueryAttitude (s : State α) : Result α := sendQueryAttitude s

/-- An inbound frame arrives: its bytes `frame_bytes(SYNC_RX, opc, payload)` are fed one by one (R202); the result is
that of the last FEED (R105). -/
def receiveFrame (opc : Byte) (payload : List Byte) (s : State α) : Result α :=
  unlessHalted s fun s => feedAll (frameBytes s.cfg.syncRx opc payload) s

/-- RAW_IMU (R86, R92). -/
def execRawImu (r : RawInertialSample) (s : State α) : Result α := receiveFrame s.cfg.opcRawImu (encImu r) s

/-- ATTITUDE (R86, R93). -/
def execAttitude (a : AttitudeSample) (s : State α) : Result α := receiveFrame s.cfg.opcAttitude (encAtt a) s

/-- OTHER_FRAME (R101, R102). -/
def execOtherFrame (opc : Byte) (payload : List Byte) (s : State α) : Result α := receiveFrame opc payload s

end Sys2Proof.Machine
end

