-- ==== Sys2Proof/Machine/Mixer.lean ====
section
/-! DEFINITION. The Velocity Mixer: MIX (40_mixer.md R120). -/

namespace Sys2Proof.Machine

variable {α : Type} [Field α] [LinearOrder α]

/-- MIX (R120): no state is read but the configuration, none is written, no exception. -/
def execMix (vx vy vr : α) (s : State α) : Result α :=
  unlessHalted s fun s => answer (.wheels (mixLanes s.cfg vx vy vr)) s

end Sys2Proof.Machine
end

