-- ==== Sys2Proof/Machine/Query.lean ====
section
/-! DEFINITION. The frame queries MATCH, GET_RAW_IMU, GET_ATTITUDE, GET_FRAME and the Telemetry Decoder (43_parser.md
R194 to R199). None writes state; each leaves its answer on the result port. -/

namespace Sys2Proof.Machine

variable {α : Type}

/-- MATCH (R194). -/
def execMatchFrame (n : InboundName) (s : State α) : Result α := unlessHalted s fun s => answer (.hit (isHit s n)) s

/-- GET_RAW_IMU (R196): none unless MATCH(RAW_IMU), else `dec_imu(RX_BUF[0..11])`. -/
def execGetRawImu (s : State α) : Result α :=
  unlessHalted s fun s =>
    if isHit s .rawImu then withSlice 12 s fun p => answer (.imu (some (decImu p))) s else answer (.imu none) s

/-- GET_ATTITUDE (R197): none unless MATCH(ATTITUDE), else `dec_att(RX_BUF[0..5])`. -/
def execGetAttitude (s : State α) : Result α :=
  unlessHalted s fun s =>
    if isHit s .attitude then withSlice 6 s fun p => answer (.att (some (decAtt p))) s else answer (.att none) s

/-- GET_FRAME (R198): none when RX_VALID = 0, else the raw frame. -/
def execGetFrame (s : State α) : Result α :=
  unlessHalted s fun s =>
    if s.rxValid then withSlice s.rxLen s fun p => answer (.frame (some ⟨s.rxOpc, s.rxLen, p⟩)) s
    else answer (.frame none) s

/-- The inertial telemetry record: "direct field copy" (R199). -/
def inertialRecord (i : RawInertialSample) : InertialRecord := ⟨⟨i.accx, i.accy, i.accz⟩, ⟨i.gyrx, i.gyry, i.gyrz⟩⟩

/-- The attitude telemetry record: "direct field copy" (R199). -/
def attitudeRecord (a : AttitudeSample) : AttitudeRecord := ⟨a.angx, a.angy, a.heading⟩

end Sys2Proof.Machine
end

