-- ==== Sys2Proof/Machine/System.lean ====
section
/-! DEFINITION. RESET, "the block's only system operation" (70_reset_and_hazards.md R280). -/

namespace Sys2Proof.Machine

variable {α : Type}

/-- RESET (R280): "the only operation accepted while halted". -/
def execReset (s : State α) : Result α := answer .completed (resetBlock s)

end Sys2Proof.Machine
end

