-- ==== Sys2Proof/Machine/Dispatch.lean ====
section
/-! DEFINITION. The dispatch: one arm per row of the opcode table. -/

namespace Sys2Proof.Machine

def exec (i : Instr) (s : State) : Host.Outcome State Fault Refusal :=
  match i with
  | .setMotor cmd => Sys2Proof.Machine.execSetMotor cmd s
  | .queryRawImu => Sys2Proof.Machine.execQueryRawImu s
  | .queryAttitude => Sys2Proof.Machine.execQueryAttitude s
  | .rawImu r => Sys2Proof.Machine.execRawImu r s
  | .attitude a => Sys2Proof.Machine.execAttitude a s
  | .otherFrame opc payload => Sys2Proof.Machine.execOtherFrame opc payload s
  | .mix vx vy vr => Sys2Proof.Machine.execMix vx vy vr s
  | .encode w => Sys2Proof.Machine.execEncode w s
  | .txSetMotor cmd => Sys2Proof.Machine.execTxSetMotor cmd s
  | .txQueryRawImu => Sys2Proof.Machine.execTxQueryRawImu s
  | .txQueryAttitude => Sys2Proof.Machine.execTxQueryAttitude s
  | .feed b => Sys2Proof.Machine.execFeed b s
  | .matchFrame opc => Sys2Proof.Machine.execMatchFrame opc s
  | .getRawImu => Sys2Proof.Machine.execGetRawImu s
  | .getAttitude => Sys2Proof.Machine.execGetAttitude s
  | .getFrame => Sys2Proof.Machine.execGetFrame s
  | .reset => Sys2Proof.Machine.execReset s

end Sys2Proof.Machine
end

