-- ==== Sys2Proof/Machine/Perform.lean ====
section
/-! DEFINITION. The operations of the block over any number domain (00_scope.md R8; 92_eei_decisions.md D1; log 9). At the
default domain this is `exec`, whose form is fixed (Laws/Ops.lean, `perform_eq_exec`). -/

namespace Sys2Proof.Machine

variable {α : Type} [Field α] [LinearOrder α] [FloorRing α]

/-- What one instruction does, whatever the number domain: the meaning of its row. -/
def perform (i : Instr α) (s : State α) : Result α :=
  match i with
  | .setMotor cmd => execSetMotor cmd s
  | .queryRawImu => execQueryRawImu s
  | .queryAttitude => execQueryAttitude s
  | .rawImu r => execRawImu r s
  | .attitude a => execAttitude a s
  | .otherFrame opc payload => execOtherFrame opc payload s
  | .mix vx vy vr => execMix vx vy vr s
  | .encode w => execEncode w s
  | .txSetMotor cmd => execTxSetMotor cmd s
  | .txQueryRawImu => execTxQueryRawImu s
  | .txQueryAttitude => execTxQueryAttitude s
  | .feed b => execFeed b s
  | .matchFrame opc => execMatchFrame opc s
  | .getRawImu => execGetRawImu s
  | .getAttitude => execGetAttitude s
  | .getFrame => execGetFrame s
  | .reset => execReset s

end Sys2Proof.Machine
end

