-- ==== Sys2Proof/Machine/Scheduler.lean ====
section
/-! DEFINITION. The host: the scheduler worker's moves and the events of the world outside it (44_host_sequences.md,
30_encoding.md R105; log 15). The worker acts on the block only by invoking its operations through `perform`. -/

namespace Sys2Proof.Machine

variable {α : Type}

/-! ### Moves that invoke no operation themselves -/

/-- The worker goes on with these moves before the rest of its agenda. -/
def push (ms : List (Move α)) (s : State α) : State α := { s with agenda := ms ++ s.agenda }

/-- Publishes a message by `deliver`; a failing publish loses this message and nothing else (R233; log 18). -/
def publishWith (deliver : State α → State α) (s : State α) : State α :=
  if s.busFailing then { s with busFailing := false } else deliver s

/-- Publishes the record of the sample on the port, if there is one (R199, R227). -/
def runPublish (s : State α) : Result α :=
  match s.out with
  | .imu (some r) => .next (publishWith (fun s => { s with inertialOut := s.inertialOut ++ [inertialRecord r] }) s)
  | .att (some a) => .next (publishWith (fun s => { s with attitudeOut := s.attitudeOut ++ [attitudeRecord a] }) s)
  | _ => .next s

/-- The consumed command is republished verbatim on the echo channel. -/
def publishEcho (v : Velocity α) (s : State α) : State α :=
  publishWith (fun s => { s with echoOut := s.echoOut ++ [v] }) s

/-- The echo "after each transmission" (R230). A halted block transmitted nothing (R255); whether the echo is published
for a command that a fault skipped is not stated (R254; log 17). -/
def runEcho (v : Velocity α) (s : State α) : Result α :=
  match s.out with
  | .completed => .next (publishEcho v s)
  | .fault _ => if s.halted then .next s else if Config.echoWhenSkipped then .next (publishEcho v s) else .next s
  | _ => .next s

/-- After a FEED that returned true, and before the next FEED, the frame is dispatched (R227). -/
def runDispatchIfDone (s : State α) : Result α :=
  match s.out with
  | .done true => .next (push [.dispatch] s)
  | _ => .next s

/-- Step 2 of a tick: `c <- PENDING ; PENDING <- empty` in one indivisible step (R222), then SEND_VELOCITY and the echo
if there was a command (R228), and nothing if there was none (R229). -/
def runConsume (s : State α) : Result α :=
  match s.pending with
  | none => .next s
  | some v => .next (push [.sendVelocity v, .echo v] { s with pending := none })

/-- A move that starts a process: RESET or the startup sequence. -/
def startsProcess : Move α → Bool
  | .op .reset => true
  | .startup _ => true
  | _ => false

/-- The process is over: no operation is invoked until the next RESET (R234, R235; log 21). -/
def stopHost (s : State α) : State α :=
  { s with hostPhase := .stopped, agenda := s.agenda.dropWhile fun m => !startsProcess m }

/-- Where the process stands when a delay has passed, with `sent` bytes on TX (R234, R235). -/
def delayDone (d : Delay) (sent : Nat) : HostPhase :=
  match d with
  | .settle => .settled
  | .hold => .held sent
  | .shutdown => .parked sent

/-- A delay of the startup or the shutdown sequence passes. -/
def runWait (d : Delay) (s : State α) : State α := { s with hostPhase := delayDone d s.tx.length }

/-- A frame is placed at the head of the agenda, and the next step is the worker's (log 3). -/
def placeWire (bs : List Byte) (s : State α) : State α :=
  { s with agenda := .wire bs :: s.agenda, inputs := none :: s.inputs }

/-! ### Moves that invoke operations, and the step -/

variable [Field α] [LinearOrder α] [FloorRing α]

/-- SEND_VELOCITY = MIX ; ENCODE ; TX_SET_MOTOR (R105). -/
def runSendVelocity (v : Velocity α) (s : State α) : Result α :=
  perform (.mix v.vx v.vy v.vr) (push [.encodeResult, .txResult] s)

/-- `ENCODE w` of the expansion; without a `w` (MIX was refused) it is not invoked (R105, R256). -/
def runEncodeResult (s : State α) : Result α :=
  match s.out with
  | .wheels w => perform (.encode w) s
  | _ => .next s

/-- `TX_SET_MOTOR m` of the expansion; after a fault in ENCODE it is not invoked (R105, R253). -/
def runTxResult (s : State α) : Result α :=
  match s.out with
  | .motor m => perform (.txSetMotor m) s
  | _ => .next s

/-- A frame given as bytes: the first frame in them runs and the bytes after it follow; bytes that are no frame of the
table are fed to the parser, which consumes and ignores what is malformed (R98 to R100; log 3). -/
def runWire (bs : List Byte) (s : State α) : Result α :=
  match decode s.cfg bs with
  | .ok (i, []) => perform i s
  | .ok (i, b :: rest) => perform i (push [.wire (b :: rest)] s)
  | .error _ => .next (push [.feeds bs] s)

/-- FEEDS, one byte at a time (R105). -/
def runFeeds (bs : List Byte) (s : State α) : Result α :=
  match bs with
  | [] => .next s
  | [b] => perform (.feed b) s
  | b :: c :: rest => perform (.feed b) (push [.feeds (c :: rest)] s)

/-- Step 1 of a tick: one byte read from the transport is fed, dispatched if it completed a frame, and the drain goes
on until no byte is available (R226, R227, R232). While halted the FEED is refused and consumes no byte, so nothing
is read (R256; log 19). -/
def runDrain (s : State α) : Result α :=
  if s.halted then answer (.refused .halted) s
  else match s.transport with
    | [] => .next s
    | b :: rest => perform (.feed b) (push [.dispatchIfDone, .drain] { s with transport := rest })

/-- The bytes of the neutral command: what SEND_NEUTRAL appends to TX (R105, R234). -/
def neutralFrame (c : Config α) : List Byte :=
  frameBytes c.syncTx c.opcSetMotor (encMotor (encodeLanes c (mixLanes c 0 0 0)))

/-- The last thing sent is the neutral command: TX ends with its frame (R234, R235). -/
def neutralJustSent (s : State α) : Bool := (neutralFrame s.cfg).isSuffixOf s.tx

/-- How many bytes TX held before the neutral frame it ends with. -/
def sentBeforeNeutral (s : State α) : Nat := s.tx.length - (neutralFrame s.cfg).length

/-- Whether the host has this move where its process stands. What the host "is assumed never to do" has no move (R236,
third column; log 31): no tick, and so no drain of the transport and no swap of PENDING, before startup completes; the
steps of startup in their order, each directly after the one before it: the hold when exactly the neutral command was
sent since the flush, and ticking when nothing was sent since the hold (R234, R283); no wait of the shutdown unless
neutral was the last command, and no release unless nothing was sent since that wait (R235). Operations and
pseudo-operations may be invoked at any time (R262).

DESIGN CHOICE (log 32): whether the shutdown may run before startup completes, or before the transport was opened, the spec
does not say; here it may, from every phase but `stopped`. -/
def moveExists (m : Move α) (s : State α) : Bool :=
  match m with
  | .op _ => true
  | .wire _ => true
  | .sendVelocity _ => true
  | .sendNeutral => true
  | .poll => true
  | .feeds _ => true
  | .dispatch => true
  | .encodeResult => true
  | .txResult => true
  | .publish => true
  | .echo _ => true
  | .drain => decide (s.hostPhase = .ticking)
  | .dispatchIfDone => true
  | .consume => decide (s.hostPhase = .ticking)
  | .tick => decide (s.hostPhase = .ticking)
  | .openTransport _ => decide (s.hostPhase = .booting)
  | .wait .settle => decide (s.hostPhase = .opened)
  | .wait .hold => decide (s.hostPhase = .flushed (sentBeforeNeutral s)) && neutralJustSent s
  | .wait .shutdown => decide (s.hostPhase ≠ .stopped) && neutralJustSent s
  | .flush => decide (s.hostPhase = .settled)
  | .begin => decide (s.hostPhase = .held s.tx.length) && neutralJustSent s
  | .release => decide (s.hostPhase = .parked s.tx.length) && neutralJustSent s
  | .startup _ => true
  | .shutdown => true

/-- One move of the worker, already taken off the agenda. -/
def runMove (m : Move α) (s : State α) : Result α :=
  match m with
  | .op i => perform i s
  | .wire bs => runWire bs s
  | .sendVelocity v => runSendVelocity v s
  | .sendNeutral => runSendVelocity ⟨0, 0, 0⟩ s
  | .poll => .next (push [.op .txQueryRawImu, .op .txQueryAttitude] s)
  | .feeds bs => runFeeds bs s
  | .dispatch => .next (push [.op .getRawImu, .publish, .op .getAttitude, .publish] s)
  | .encodeResult => runEncodeResult s
  | .txResult => runTxResult s
  | .publish => runPublish s
  | .echo v => runEcho v s
  | .drain => runDrain s
  | .dispatchIfDone => runDispatchIfDone s
  | .consume => runConsume s
  | .tick => .next (push [.drain, .consume, .poll] s)
  | .openTransport ok => .next (if ok then { s with hostPhase := .opened } else stopHost s)
  | .wait d => .next (runWait d s)
  | .flush => .next { s with transport := [], hostPhase := .flushed s.tx.length }
  | .begin => .next { s with hostPhase := .ticking }
  | .release => .next (stopHost s)
  | .startup ok =>
    .next (push
      [.op .reset, .openTransport ok, .wait .settle, .flush, .sendNeutral, .wait .hold, .begin] s)
  | .shutdown => .next (push [.sendNeutral, .wait .shutdown, .release] s)

/-- One step of the worker: its next move, or idle with the state held (R270, R282). A move the host does not have where
its process stands is passed over without effect (R236; log 31). -/
def workerStep (s : State α) : Result α :=
  match s.agenda with
  | [] => .next s
  | m :: rest => if moveExists m s then runMove m { s with agenda := rest } else .next { s with agenda := rest }

/-- One event of the world outside. The intake overwrites PENDING (R221); bytes wait in the transport (R258 (c)); the
timer starts a tick once the host is ticking (R225, R258 (a); log 16); a configuration is established before RESET
(R236, R280; log 13). -/
def takeEvent (e : Event α) (s : State α) : Result α :=
  match e with
  | .intake v => .next { s with pending := some v }
  | .arrive bs => .next { s with transport := s.transport ++ bs }
  | .timer => if s.hostPhase = .ticking then .next { s with agenda := s.agenda ++ [.tick] } else .next s
  | .busFailure => .next { s with busFailing := true }
  | .configure c => if c.legal then .next { s with chosenCfg := c } else .refused .illegalConfig

/-- Who takes the next step: an event where the schedule has one, else the worker (log 15). -/
def scheduledStep (s : State α) : Result α :=
  match s.inputs with
  | [] => workerStep s
  | none :: rest => workerStep { s with inputs := rest }
  | some e :: rest => takeEvent e { s with inputs := rest }

end Sys2Proof.Machine
end

