-- ==== Sys2Proof/Machine/Step.lean ====
section
/-! DEFINITION. One step of the machine, and where a table word is placed so that the next step runs it. -/

namespace Sys2Proof.Machine

/-- One step of the machine at the default number domain: one event, or one move of the worker, whose operations are
instructions (R57, R59). `scheduledStep` is the step at any domain (log 9). -/
def step (s : State) : Host.Outcome State Fault Refusal := scheduledStep s

/-- The state with a table word laid on the wire, next to be run (log 3). -/
def State.withFetchWord (s : State) (nbits w : Nat) : State := placeWire (tableWordBytes s.cfg nbits w) s

end Sys2Proof.Machine
end

