-- ==== Sys2Proof/Safety.lean ====
section
/-! DEFINITION. What counts as a safe state and a safe run, the invariant of the machine, and the notions its claims are
stated in: seeking phases, feeding a byte sequence operation by operation, the frames on TX, the bytes a step feeds. The claims
speak of exec and step, the machine at the default number domain (log 9). -/

namespace Sys2Proof.Machine

/-- The seeking phases SYNC0, SYNC1, SYNC2 (R31, R202). -/
def Phase.seeking : Phase → Bool
  | .sync0 => true
  | .sync1 => true
  | .sync2 => true
  | .len => false
  | .opc => false
  | .payload => false
  | .chk => false

/-- The phases in which a frame is being received after its length is known (R201). -/
def Phase.inFrame : Phase → Bool
  | .sync0 => false
  | .sync1 => false
  | .sync2 => false
  | .len => false
  | .opc => true
  | .payload => true
  | .chk => true

/-- FEEDS operation by operation: the result of each FEED, and the state after the last; `none` if some FEED gave no
`done` result. -/
def feedRun : List Byte → State → Option (List Bool × State)
  | [], s => some ([], s)
  | b :: bs, s =>
    match exec (.feed b) s with
    | .next t =>
      match t.out with
      | .done d =>
        match feedRun bs t with
        | some (ds, u) => some (d :: ds, u)
        | none => none
      | _ => none
    | _ => none

/-- What the parser has consumed of the frame it is receiving, exclusive-or'd: LEN, OPC and the payload bytes stored so
far (R35, R187). -/
def runningChecksum (s : State) : Byte :=
  checksum (BitVec.ofNat 8 s.rxLen) s.rxOpc ((List.range s.rxIdx).map (bufByte s))

/-- The stored bytes RX_BUF[0..n−1] have all been written (R36, R196: "no unwritten byte is read"). -/
def writtenBelow (n : Nat) (s : State) : Prop := ∀ i, i < n → (Memory.read s.rxBuf i).isSome = true

/-- What each phase of the parser says of the cursor (R31 to R35, R180). -/
def cursorInv (s : State) : Prop :=
  match s.rxPhase with
  | .sync0 => s.rxIdx = 0 ∧ s.rxChk = 0
  | .sync1 => s.rxIdx = 0 ∧ s.rxChk = 0
  | .sync2 => s.rxIdx = 0 ∧ s.rxChk = 0
  | .len => s.rxIdx = 0 ∧ s.rxChk = 0
  | .opc => s.rxIdx = 0 ∧ s.rxChk = BitVec.ofNat 8 s.rxLen
  | .payload => s.rxIdx < s.rxLen ∧ s.rxChk = runningChecksum s ∧ writtenBelow s.rxIdx s
  | .chk => s.rxIdx = s.rxLen ∧ s.rxChk = runningChecksum s ∧ writtenBelow s.rxIdx s

/-- The receiver's invariant: RX_BUF in canonical form and inside its bounds (R50), the ranges of R32 and R34, the
cursor, and a latched frame complete and undisturbed (R37). -/
structure ReceiverInv (s : State) : Prop where
  bufCanonical : Memory.wf s.rxBuf = true
  bufBounded : Memory.below s.cfg.maxPayload s.rxBuf = true
  lenBound : s.rxLen ≤ s.cfg.maxPayload
  cursor : cursorInv s
  latched : s.rxValid = true → s.rxPhase = .sync0 ∧ writtenBelow s.rxLen s

/-- One whole frame the block can transmit (R103). -/
inductive OutFrame where
  | motor (cmd : Lanes Int)
  | queryRawImu
  | queryAttitude
deriving DecidableEq, Repr

/-- The bytes of an outbound frame (R160, R162 to R164). -/
def OutFrame.bytes (c : Config) : OutFrame → List Byte
  | .motor cmd => frameBytes c.syncTx c.opcSetMotor (encMotor cmd)
  | .queryRawImu => frameBytes c.syncTx c.opcQueryRawImu []
  | .queryAttitude => frameBytes c.syncTx c.opcQueryAttitude []

/-- The four values of a motor frame lie in [ENV_LO, ENV_HI] (R165). -/
def OutFrame.safe (c : Config) : OutFrame → Prop
  | .motor cmd => ∀ k, c.envLo ≤ cmd.get k ∧ cmd.get k ≤ c.envHi
  | .queryRawImu => True
  | .queryAttitude => True

/-- TX is a sequence of whole outbound frames with nothing between them, and every motor frame among them carries four
values inside the envelope (R52, R103, R165). -/
def TxSafe (s : State) : Prop :=
  ∃ fs : List OutFrame, s.tx = (fs.map (OutFrame.bytes s.cfg)).flatten ∧ ∀ f ∈ fs, f.safe s.cfg

/-- The invariant of the machine. -/
structure Inv (s : State) : Prop where
  cfgLegal : s.cfg.legal = true
  chosenLegal : s.chosenCfg.legal = true
  receiver : ReceiverInv s
  txSafe : TxSafe s
  haltRecorded : s.halted = true → s.faultInfo.isSome = true ∧ s.cfg.faultMode = .halt

/-- `k` steps, stopping at the first fault or refusal. -/
def steps : Nat → State → Result
  | 0, s => .next s
  | k + 1, s => thenDo (step s) (steps k)

/-! ### What is fed -/

/-- The worker takes the next step, no outside event does (log 15). -/
def workersTurn (s : State) : Bool :=
  match s.inputs with
  | [] => true
  | none :: _ => true
  | some _ :: _ => false

/-- The next step runs RESET. -/
def runsReset (s : State) : Bool :=
  workersTurn s &&
    match s.agenda with
    | .op .reset :: _ => true
    | _ => false

/-- The bytes an instruction feeds to the parser: the operand of FEED, the bytes of an inbound frame (R180, R202; log 2). -/
def inboundBytes (c : Config) : Instr → List Byte
  | .feed b => [b]
  | .rawImu r => frameBytes c.syncRx c.opcRawImu (encImu r)
  | .attitude a => frameBytes c.syncRx c.opcAttitude (encAtt a)
  | .otherFrame opc p => frameBytes c.syncRx opc p
  | .setMotor _ => []
  | .queryRawImu => []
  | .queryAttitude => []
  | .mix _ _ _ => []
  | .encode _ => []
  | .txSetMotor _ => []
  | .txQueryRawImu => []
  | .txQueryAttitude => []
  | .matchFrame _ => []
  | .getRawImu => []
  | .getAttitude => []
  | .getFrame => []
  | .reset => []

/-- The bytes a move feeds to the parser in its own step: it invokes FEED or an inbound frame row, or it feeds the next
byte of a sequence or of the transport. -/
def moveFeeds (s : State) : Move → List Byte
  | .op i => inboundBytes s.cfg i
  | .wire bs =>
    match decode s.cfg bs with
    | .ok (i, _) => inboundBytes s.cfg i
    | .error _ => []
  | .feeds bs => bs.take 1
  | .drain => s.transport.take 1
  | .sendVelocity _ => []
  | .sendNeutral => []
  | .poll => []
  | .dispatch => []
  | .encodeResult => []
  | .txResult => []
  | .publish => []
  | .echo _ => []
  | .dispatchIfDone => []
  | .consume => []
  | .tick => []
  | .openTransport _ => []
  | .wait _ => []
  | .flush => []
  | .begin => []
  | .release => []
  | .startup _ => []
  | .shutdown => []

/-- The bytes the next step feeds to the parser; empty when it invokes neither FEED nor an inbound frame row, or is
refused (R256). -/
def fedBytes (s : State) : List Byte :=
  if workersTurn s && !s.halted then
    match s.agenda with
    | [] => []
    | m :: _ => if moveExists m s then moveFeeds s m else []
  else []

/-- `k` steps without RESET: the bytes they feed, in order, and the state after them; `none` if a step is RESET, faults or
is refused. -/
def runFed : Nat → State → Option (List Byte × State)
  | 0, s => some ([], s)
  | k + 1, s =>
    if runsReset s then none
    else match step s with
      | .next t =>
        match runFed k t with
        | some (bs, u) => some (fedBytes s ++ bs, u)
        | none => none
      | _ => none

/-- The receiver state of R31 to R37 is the same. -/
structure SameReceiver (s t : State) : Prop where
  rxPhase : t.rxPhase = s.rxPhase
  rxLen : t.rxLen = s.rxLen
  rxOpc : t.rxOpc = s.rxOpc
  rxIdx : t.rxIdx = s.rxIdx
  rxChk : t.rxChk = s.rxChk
  rxBuf : t.rxBuf = s.rxBuf
  rxValid : t.rxValid = s.rxValid

/-- A safe state: nothing out of the envelope was transmitted and the block is not halted ("it never counts as a
successful final state", R255). -/
def Safe (s : State) : Prop := TxSafe s ∧ s.halted = false

/-- A safe run of `k` steps: every step answers a next state, and each is safe. -/
def SafeRun : Nat → State → Prop
  | 0, s => Safe s
  | k + 1, s => Safe s ∧ ∃ t, step s = .next t ∧ SafeRun k t

end Sys2Proof.Machine
end

