-- ==== Sys2Proof/Certificates/Slice0/Obligations.lean ====
section
/-! DEFINITION. The statements for the provers, in the order of spec/: the wire, MIX, ENCODE, the framer, the fault, the
parser, the queries, RESET, the invariants, the step, the host. -/

open Sys2Proof Sys2Proof.Machine

/-! ### The wire -/

/-- The example frames of the opcode table, byte by byte, decode to the instructions they stand for (R88, R91 to R94). -/
def Obligations.ExampleFramesDecodeToTheirRows : Prop :=
  decode Config.default
      [0x24, 0x4D, 0x3C, 0x08, 0xD6, 0x0E, 0x06, 0x0E, 0x06, 0xAA, 0x05, 0xAA, 0x05, 0xDE]
    = .ok (.setMotor ⟨1550, 1550, 1450, 1450⟩, []) ∧
  decode Config.default [0x24, 0x4D, 0x3C, 0x00, 0x66, 0x66] = .ok (.queryRawImu, []) ∧
  decode Config.default [0x24, 0x4D, 0x3C, 0x00, 0x6C, 0x6C] = .ok (.queryAttitude, []) ∧
  decode Config.default
      [0x24, 0x4D, 0x3E, 0x0C, 0x66, 0x0C, 0x00, 0xDE, 0xFF, 0x00, 0x02, 0xFF, 0xFF, 0x00, 0x00, 0xFF, 0x7F, 0xC5]
    = .ok (.rawImu ⟨12, -34, 512, -1, 0, 32767⟩, []) ∧
  decode Config.default [0x24, 0x4D, 0x3E, 0x06, 0x6C, 0x64, 0x00, 0xCE, 0xFF, 0x0E, 0x01, 0x30]
    = .ok (.attitude ⟨100, -50, 270⟩, []) ∧
  decode Config.default [0x24, 0x4D, 0x3E, 0x02, 0x01, 0xAA, 0x55, 0xFC] = .ok (.otherFrame 0x01 [0xAA, 0x55], [])

/-- Decoding the bytes of a well-formed frame gives the frame back, whatever bytes follow it, under every configuration
of this hardware (R81, R84, R88, R90 to R95). -/
def Obligations.DecodingAnEncodedFrameGivesItBack : Prop :=
  ∀ (c : Config) (i : Instr) (f rest : List Byte), c.legal = true → i.wf c = true → encode c i = some f →
    decode c (f ++ rest) = .ok (i, rest)

/-- Whatever the decoder reads is well formed, and the bytes it consumed are exactly that frame's encoding: no word has
two meanings (R81, R84, R88, R95). -/
def Obligations.ADecodedFrameIsWellFormedAndReencodes : Prop :=
  ∀ (c : Config) (bs rest : List Byte) (i : Instr), c.legal = true → decode c bs = .ok (i, rest) →
    i.wf c = true ∧ ∃ f, encode c i = some f ∧ bs = f ++ rest

/-- What is malformed is rejected by name: bytes that begin with no sync sequence (R98), a LEN above MAX_PAYLOAD (R99),
a CHK that is not the checksum (R100). -/
def Obligations.MalformedFramesAreRejectedByName : Prop :=
  ∀ (c : Config) (y : Sync) (len opc chk : Byte) (p rest : List Byte), c.legal = true →
    (y ≠ c.syncTx → y ≠ c.syncRx → decode c (y.bytes ++ len :: opc :: rest) = .error .noSync) ∧
    (c.maxPayload < len.toNat → decode c (c.syncRx.bytes ++ len :: opc :: rest) = .error .badLength) ∧
    (p.length ≤ c.maxPayload → chk ≠ checksum (lenByte p) opc p →
      decode c (c.syncRx.bytes ++ lenByte p :: opc :: (p ++ chk :: rest)) = .error .badChecksum)

/-- The payload coders are inverse to each other (R95). -/
def Obligations.PayloadCodersInvertEachOther : Prop :=
  (∀ cmd : Lanes Int, cmd.all isU16 = true → decMotor (encMotor cmd) = cmd) ∧
  (∀ r : RawInertialSample, r.inRange = true → decImu (encImu r) = r) ∧
  (∀ a : AttitudeSample, a.inRange = true → decAtt (encAtt a) = a) ∧
  (∀ p : List Byte, p.length = 8 → encMotor (decMotor p) = p ∧ (decMotor p).all isU16 = true) ∧
  (∀ p : List Byte, p.length = 12 → encImu (decImu p) = p ∧ (decImu p).inRange = true) ∧
  (∀ p : List Byte, p.length = 6 → encAtt (decAtt p) = p ∧ (decAtt p).inRange = true)

/-- What the checksum detects and what it does not (R167): one changed covered byte always makes it wrong; the same
pattern folded into two covered bytes leaves it right; a motor command of two equal pairs cancels. -/
def Obligations.ChecksumDetectsOneChangedByteAndMissesEqualPairs : Prop :=
  (∀ (bs : List Byte) (i : Nat) (b : Byte), i < bs.length → b ≠ bs.getD i 0 → xorAll (bs.set i b) ≠ xorAll bs) ∧
  (∀ (bs : List Byte) (i j : Nat) (d : Byte), i < bs.length → j < bs.length → i ≠ j →
    xorAll ((bs.set i (bs.getD i 0 ^^^ d)).set j (bs.getD j 0 ^^^ d)) = xorAll bs) ∧
  (∀ a b : Int, checksum 0x08 0xD6 (encMotor ⟨a, a, b, b⟩) = 0xDE ∧
    checksum 0x08 0xD6 (encMotor ⟨a, b, a, b⟩) = 0xDE ∧ checksum 0x08 0xD6 (encMotor ⟨a, b, b, a⟩) = 0xDE)

/-! ### MIX -/

/-- MIX answers, on every operand, the four dot products of the clamped inputs with the rows of the layout, all divided
by the scaled amplitude when that exceeds 1, and changes nothing else; halted, it is refused (R120). -/
def Obligations.MixAnswersTheSaturatedDotProducts : Prop :=
  ∀ (s : State) (vx vy vr : ℚ), s.cfg.legal = true →
    (s.halted = false →
      ∃ w : Lanes ℚ, exec (.mix vx vy vr) s = .next { s with out := .wheels w } ∧
        let clamped : ℚ → ℚ := fun x => max (-1) (min x 1)
        let r : Fin 4 → ℚ := fun k =>
          (s.cfg.layout.get k).fwd * clamped vx + (s.cfg.layout.get k).lat * clamped vy
            + (s.cfg.layout.get k).rot * clamped vr
        let amp : ℚ := max (max |r 0| |r 1|) (max |r 2| |r 3|)
        ∀ k, w.get k = if 1 < amp / 2 then r k / (amp / 2) else r k) ∧
    (s.halted = true → exec (.mix vx vy vr) s = .next { s with out := .refused .halted })

/-- Every wheel speed that MIX answers lies in [−2, +2], the value before rounding in [1400, 1600], and the encoder's
clamp changes none of them: ENCODE answers the rounded values as they are (R127). -/
def Obligations.MixResultsStayInRangeAndAreNeverClamped : Prop :=
  ∀ (s : State) (vx vy vr : ℚ), s.cfg.legal = true → s.halted = false →
    ∃ w : Lanes ℚ, exec (.mix vx vy vr) s = .next { s with out := .wheels w } ∧
      (∀ k, -2 ≤ w.get k ∧ w.get k ≤ 2 ∧ 1400 ≤ 1500 + 50 * w.get k ∧ 1500 + 50 * w.get k ≤ 1600) ∧
      exec (.encode w) s = .next { s with out := .motor (w.map fun x => roundNum s.cfg.tie (1500 + 50 * x)) }

/-- The saturation is proportional: the answer is the raw vector times `min(1, 1/s)` when the amplitude is positive, and
both are zero when it is zero (R125). -/
def Obligations.MixKeepsTheMixingRatios : Prop :=
  ∀ (s : State) (vx vy vr : ℚ), s.cfg.legal = true → s.halted = false →
    ∃ w : Lanes ℚ, exec (.mix vx vy vr) s = .next { s with out := .wheels w } ∧
      let r := rawSpeeds s.cfg vx vy vr
      (0 < amplitude r → ∀ k, w.get k = r.get k * min 1 (1 / (amplitude r / 2))) ∧
      (amplitude r = 0 → ∀ k, w.get k = 0 ∧ r.get k = 0)

/-- Saturation is strict: above the threshold all four lanes are divided by the same scaled amplitude and the peak of
the answer is exactly 2; at the threshold and below nothing is divided (R124). -/
def Obligations.MixSaturatesStrictlyToAPeakOfTwo : Prop :=
  ∀ (s : State) (vx vy vr : ℚ), s.cfg.legal = true → s.halted = false →
    ∃ w : Lanes ℚ, exec (.mix vx vy vr) s = .next { s with out := .wheels w } ∧
      let r := rawSpeeds s.cfg vx vy vr
      (1 < amplitude r / 2 →
        (∀ k, w.get k = r.get k / (amplitude r / 2)) ∧
        (∀ k, |w.get k| ≤ 2) ∧ ∃ k, |w.get k| = 2) ∧
      (amplitude r / 2 ≤ 1 → w = r)

/-- With orthogonal columns the amplitude is exactly the sum of the magnitudes of the clamped inputs, so it is at most 3,
and MIX saturates exactly when that sum exceeds 2 (R128), in every ordered field the model's number domain may be (D1). -/
def Obligations.AmplitudeIsTheSumOfTheClampedInputs : Prop :=
  ∀ (α : Type) [Field α] [LinearOrder α] [IsStrictOrderedRing α] (c : Config α) (vx vy vr : α), c.legal = true →
    let clamped : α → α := fun x => max (-1) (min x 1)
    let total : α := |clamped vx| + |clamped vy| + |clamped vr|
    amplitude (rawSpeeds c vx vy vr) = total ∧ total ≤ 3 ∧
    (mixLanes c vx vy vr ≠ rawSpeeds c vx vy vr ↔ 2 < total)

/-- The source's testable laws of MIX: zero, pure rotation, linearity below saturation, oddness (R130). -/
def Obligations.MixIsZeroAtRestEqualInRotationLinearAndOdd : Prop :=
  ∀ (s : State), s.cfg.legal = true → s.halted = false →
    exec (.mix 0 0 0) s = .next { s with out := .wheels ⟨0, 0, 0, 0⟩ } ∧
    (∀ r : ℚ, -1 ≤ r → r ≤ 1 →
      ∃ w : Lanes ℚ, exec (.mix 0 0 r) s = .next { s with out := .wheels w } ∧
        ∀ k, w.get k = (s.cfg.layout.get k).rot * r ∧ |w.get k| = |r|) ∧
    (∀ vx vy vr k : ℚ, -1 ≤ vx → vx ≤ 1 → -1 ≤ vy → vy ≤ 1 → -1 ≤ vr → vr ≤ 1 →
      amplitude (rawSpeeds s.cfg vx vy vr) ≤ 2 → 0 < k → k ≤ 1 →
      ∃ w : Lanes ℚ, exec (.mix vx vy vr) s = .next { s with out := .wheels w } ∧
        exec (.mix (k * vx) (k * vy) (k * vr)) s = .next { s with out := .wheels (w.map fun x => k * x) }) ∧
    (∀ vx vy vr : ℚ, ∃ w : Lanes ℚ, exec (.mix vx vy vr) s = .next { s with out := .wheels w } ∧
        exec (.mix (-vx) (-vy) (-vr)) s = .next { s with out := .wheels (w.map fun x => -x) })

/-! ### ENCODE -/

/-- `round` takes the nearest integer under every tie rule (R142); at a tie the default rule takes the neighbour farther
from zero (R143), and the named alternative the even one. In every ordered field with a nearest integer (D1). -/
def Obligations.RoundTakesTheNearestInteger : Prop :=
  ∀ (α : Type) [Field α] [LinearOrder α] [IsStrictOrderedRing α] [FloorRing α],
    (∀ (t : TieRule) (x : α) (n : ℤ), |(n : α) - x| < 1 / 2 → roundNum t x = n) ∧
    (∀ n : ℤ, roundNum .awayFromZero ((n : α) + 1 / 2) = if 0 < (n : α) + 1 / 2 then n + 1 else n) ∧
    (∀ n : ℤ, roundNum .toEven ((n : α) + 1 / 2) % 2 = 0 ∧
      (roundNum .toEven ((n : α) + 1 / 2) = n ∨ roundNum .toEven ((n : α) + 1 / 2) = n + 1)) ∧
    (∀ (t : TieRule) (x : α), |(roundNum t x : α) - x| ≤ 1 / 2)

/-- ENCODE answers, on every operand, one command per lane: `1500 + 50·w` rounded once to a nearest integer, ties away
from zero under the default rule, then clamped to [1400, 1600]; it changes nothing else (R140, R141, R144). -/
def Obligations.EncodeAnswersTheRoundedClampedCommand : Prop :=
  ∀ (s : State) (w : Lanes ℚ), s.cfg.legal = true → s.halted = false →
    ∃ cmd : Lanes Int, exec (.encode w) s = .next { s with out := .motor cmd } ∧
      ∀ k, 1400 ≤ cmd.get k ∧ cmd.get k ≤ 1600 ∧
        ∃ n : ℤ, |(n : ℚ) - (1500 + 50 * w.get k)| ≤ 1 / 2 ∧
          (s.cfg.tie = .awayFromZero →
            ∀ m : ℤ, 1500 + 50 * w.get k = (m : ℚ) + 1 / 2 → n = if 0 ≤ m then m + 1 else m) ∧
          cmd.get k = max 1400 (min n 1600)

/-- Under any configuration, this hardware's or not, ENCODE faults at the first lane, in the order 0 to 3, whose clamped
value is outside the envelope; the fault sets HALTED and the first FAULT_INFO in `halt` mode, FAULT_INFO alone in
`skip` mode, and nothing else (R145, R253 to R255, R259). -/
def Obligations.EncodeFaultsAtTheFirstLaneOutsideTheEnvelope : Prop :=
  ∀ (s : State) (w : Lanes ℚ) (k : Fin 4), s.halted = false →
    (∀ j, j < k → s.cfg.envLo ≤ encodeLane s.cfg (w.get j) ∧ encodeLane s.cfg (w.get j) ≤ s.cfg.envHi) →
    (encodeLane s.cfg (w.get k) < s.cfg.envLo ∨ s.cfg.envHi < encodeLane s.cfg (w.get k)) →
    let v := encodeLane s.cfg (w.get k)
    (s.cfg.faultMode = .halt → exec (.encode w) s =
      .next { s with
        halted := true
        faultInfo := if s.faultInfo.isSome then s.faultInfo else some (k, v)
        out := .fault (.envelopeViolation k v) }) ∧
    (s.cfg.faultMode = .skip → exec (.encode w) s =
      .next { s with faultInfo := some (k, v), out := .fault (.envelopeViolation k v) })

/-- ENCODE is monotonic per lane, and operands of 2 and more give 1600, of −2 and less 1400, however large (R147). -/
def Obligations.EncodeIsMonotonicPerLaneAndBounded : Prop :=
  ∀ (s : State) (w w' : Lanes ℚ), s.cfg.legal = true → s.halted = false →
    ∃ cmd cmd' : Lanes Int, exec (.encode w) s = .next { s with out := .motor cmd } ∧
      exec (.encode w') s = .next { s with out := .motor cmd' } ∧
      ∀ k, (w.get k ≤ w'.get k → cmd.get k ≤ cmd'.get k) ∧
        (2 ≤ w.get k → cmd.get k = 1600) ∧ (w.get k ≤ -2 → cmd.get k = 1400)

/-- For inputs whose raw peak is at least 2, the maximal wheels encode to exactly 1600 or 1400 by their sign, and all four
commands stay in [1400, 1600]; the neutral command encodes to exactly 1500 four times (R148). -/
def Obligations.SaturatedCommandsReachTheEnvelopeExtremes : Prop :=
  ∀ (s : State) (vx vy vr : ℚ), s.cfg.legal = true → s.halted = false →
    let r := rawSpeeds s.cfg vx vy vr
    ∃ (w : Lanes ℚ) (cmd : Lanes Int), exec (.mix vx vy vr) s = .next { s with out := .wheels w } ∧
      exec (.encode w) s = .next { s with out := .motor cmd } ∧
      (∀ k, 1400 ≤ cmd.get k ∧ cmd.get k ≤ 1600) ∧
      (2 ≤ amplitude r → ∀ k, |r.get k| = amplitude r → cmd.get k = if 0 < r.get k then 1600 else 1400) ∧
      (vx = 0 → vy = 0 → vr = 0 → cmd = ⟨1500, 1500, 1500, 1500⟩)

/-! ### The framer -/

/-- TX_SET_MOTOR with four values inside the envelope appends exactly its 14 bytes to TX and changes nothing else: the
sync bytes, 08, the opcode, each value's low then high byte, and the exclusive-or of all but the sync bytes. With a value
outside, it faults at the first such lane and nothing is appended; halted, it is refused (R162). -/
def Obligations.TxSetMotorAppendsItsFourteenBytes : Prop :=
  ∀ (s : State) (cmd : Lanes Int),
    (s.halted = false → (∀ k, s.cfg.envLo ≤ cmd.get k ∧ cmd.get k ≤ s.cfg.envHi) →
      let lo : Int → Byte := fun v => BitVec.ofInt 8 v
      let hi : Int → Byte := fun v => BitVec.ofInt 8 (v / 256)
      let chk : Byte := 0x08 ^^^ s.cfg.opcSetMotor ^^^ lo cmd.l0 ^^^ hi cmd.l0 ^^^ lo cmd.l1 ^^^ hi cmd.l1
        ^^^ lo cmd.l2 ^^^ hi cmd.l2 ^^^ lo cmd.l3 ^^^ hi cmd.l3
      exec (.txSetMotor cmd) s =
        .next { s with
          tx := s.tx ++ [s.cfg.syncTx.s0, s.cfg.syncTx.s1, s.cfg.syncTx.s2, 0x08, s.cfg.opcSetMotor,
            lo cmd.l0, hi cmd.l0, lo cmd.l1, hi cmd.l1, lo cmd.l2, hi cmd.l2, lo cmd.l3, hi cmd.l3, chk]
          out := .completed }) ∧
    (∀ k, s.halted = false → (∀ j, j < k → s.cfg.envLo ≤ cmd.get j ∧ cmd.get j ≤ s.cfg.envHi) →
      (cmd.get k < s.cfg.envLo ∨ s.cfg.envHi < cmd.get k) →
      ∃ t, exec (.txSetMotor cmd) s = .next t ∧ t.out = .fault (.envelopeViolation k (cmd.get k)) ∧
        t = { s with halted := t.halted, faultInfo := t.faultInfo, out := t.out }) ∧
    (s.halted = true → exec (.txSetMotor cmd) s = .next { s with out := .refused .halted })

/-- TX_SET_MOTOR with a value outside the envelope faults at the first such lane: TX and all the rest are as before but for
the fault's record (R165, R253 to R255, R259). The same is stated of the frame row SET_MOTOR, executed: those rules speak
of the operation, and that the frame row acts as it does is the model's reading of a frame row (log 2, DEDUCED). -/
def Obligations.TxSetMotorOutsideTheEnvelopeAppendsNothing : Prop :=
  ∀ (s : State) (cmd : Lanes Int) (k : Fin 4) (i : Instr), s.halted = false →
    i = .txSetMotor cmd ∨ i = .setMotor cmd →
    (∀ j, j < k → s.cfg.envLo ≤ cmd.get j ∧ cmd.get j ≤ s.cfg.envHi) →
    (cmd.get k < s.cfg.envLo ∨ s.cfg.envHi < cmd.get k) →
    (s.cfg.faultMode = .halt → exec i s =
      .next { s with
        halted := true
        faultInfo := if s.faultInfo.isSome then s.faultInfo else some (k, cmd.get k)
        out := .fault (.envelopeViolation k (cmd.get k)) }) ∧
    (s.cfg.faultMode = .skip → exec i s =
      .next { s with faultInfo := some (k, cmd.get k), out := .fault (.envelopeViolation k (cmd.get k)) })

/-- TX_QUERY_RAW_IMU appends its six bytes to TX and changes nothing else; halted, it is refused (R163). -/
def Obligations.TxQueryRawImuAppendsItsSixBytes : Prop :=
  ∀ s : State,
    (s.halted = false → exec .txQueryRawImu s =
      .next { s with
        tx := s.tx ++ [s.cfg.syncTx.s0, s.cfg.syncTx.s1, s.cfg.syncTx.s2, 0x00, s.cfg.opcQueryRawImu,
          s.cfg.opcQueryRawImu]
        out := .completed }) ∧
    (s.halted = true → exec .txQueryRawImu s = .next { s with out := .refused .halted })

/-- TX_QUERY_ATTITUDE appends its six bytes to TX and changes nothing else; halted, it is refused (R164). -/
def Obligations.TxQueryAttitudeAppendsItsSixBytes : Prop :=
  ∀ s : State,
    (s.halted = false → exec .txQueryAttitude s =
      .next { s with
        tx := s.tx ++ [s.cfg.syncTx.s0, s.cfg.syncTx.s1, s.cfg.syncTx.s2, 0x00, s.cfg.opcQueryAttitude,
          s.cfg.opcQueryAttitude]
        out := .completed }) ∧
    (s.halted = true → exec .txQueryAttitude s = .next { s with out := .refused .halted })

/-- The three outbound frame rows put exactly the bytes of their encoding on TX and change nothing else (the model's
reading of a frame row, log 2; the bytes are those of R88 and R95). -/
def Obligations.OutboundFrameRowsAppendTheirEncoding : Prop :=
  ∀ (s : State) (i : Instr), s.halted = false →
    (i = .queryRawImu ∨ i = .queryAttitude ∨
      ∃ cmd : Lanes Int, i = .setMotor cmd ∧ ∀ k, s.cfg.envLo ≤ cmd.get k ∧ cmd.get k ≤ s.cfg.envHi) →
    ∃ f, encode s.cfg i = some f ∧ exec i s = .next { s with tx := s.tx ++ f, out := .completed }

/-! ### The halted state -/

/-- While HALTED = 1 every operation but RESET is refused: no state changes, the refusal stands on the result port (R256;
log 5). The same is stated of the six frame rows, each refused as one instruction: R256 speaks of operations, and that a
frame row is executed by the operations that produce or take it is the model's reading (log 2, DEDUCED). -/
def Obligations.HaltedBlockRefusesEverythingButReset : Prop :=
  ∀ (s : State) (i : Instr), s.halted = true → i ≠ .reset → exec i s = .next { s with out := .refused .halted }

/-- The only way out of the halted state is RESET: a step from a halted state either invokes RESET, or leaves the block
halted with its fault record, its receiver, its configuration and TX as they were (R257). -/
def Obligations.OnlyResetLeavesTheHaltedState : Prop :=
  ∀ s t : State, s.halted = true → step s = .next t →
    (∃ rest, s.agenda = .op .reset :: rest ∧ (s.inputs = [] ∨ ∃ more, s.inputs = none :: more)) ∨
    (t.halted = true ∧ t.faultInfo = s.faultInfo ∧ t.tx = s.tx ∧ t.cfg = s.cfg ∧ t.rxPhase = s.rxPhase ∧
      t.rxLen = s.rxLen ∧ t.rxOpc = s.rxOpc ∧ t.rxIdx = s.rxIdx ∧ t.rxChk = s.rxChk ∧ t.rxBuf = s.rxBuf ∧
      t.rxValid = s.rxValid)

/-! ### FEED -/

/-- FEED while seeking: the phase moves by R181 to R183, RX_VALID is cleared (R191), false is returned, nothing else
changes. -/
def Obligations.FeedWhileSeekingFollowsTheSyncBytes : Prop :=
  ∀ (s : State) (b : Byte), s.halted = false →
    (s.rxPhase = .sync0 → exec (.feed b) s =
      .next { s with
        rxValid := false, out := .done false
        rxPhase := if b = s.cfg.syncRx.s0 then .sync1 else .sync0 }) ∧
    (s.rxPhase = .sync1 → exec (.feed b) s =
      .next { s with
        rxValid := false, out := .done false
        rxPhase := if b = s.cfg.syncRx.s1 then .sync2 else if b = s.cfg.syncRx.s0 then .sync1 else .sync0 }) ∧
    (s.rxPhase = .sync2 → exec (.feed b) s =
      .next { s with
        rxValid := false, out := .done false
        rxPhase := if b = s.cfg.syncRx.s2 then .len else if b = s.cfg.syncRx.s0 then .sync1 else .sync0 })

/-- FEED in phase LEN: a length above MAX_PAYLOAD drops the partial frame, another one is stored, clears the index and
starts the checksum (R184). -/
def Obligations.FeedOfTheLengthByteStoresItOrDrops : Prop :=
  ∀ (s : State) (b : Byte), s.halted = false → s.rxPhase = .len →
    (s.cfg.maxPayload < b.toNat → exec (.feed b) s =
      .next { s with rxValid := false, out := .done false, rxPhase := .sync0, rxIdx := 0, rxChk := 0 }) ∧
    (b.toNat ≤ s.cfg.maxPayload → exec (.feed b) s =
      .next { s with
        rxValid := false, out := .done false, rxPhase := .opc, rxLen := b.toNat, rxIdx := 0, rxChk := b })

/-- FEED in phase OPC: any byte is stored as the opcode and folded into the checksum; a frame without payload goes on to
its checksum (R185). -/
def Obligations.FeedOfTheOpcodeByteStoresAndFoldsIt : Prop :=
  ∀ (s : State) (b : Byte), s.halted = false → s.rxPhase = .opc →
    exec (.feed b) s =
      .next { s with
        rxValid := false, out := .done false, rxOpc := b, rxChk := s.rxChk ^^^ b
        rxPhase := if s.rxLen = 0 then .chk else .payload }

/-- FEED in phase PAYLOAD: the byte is stored at RX_BUF[RX_IDX] and at no other index, folded into the checksum, and the
index advances; after RX_LEN bytes the phase is CHK (R186). -/
def Obligations.FeedOfAPayloadByteStoresAndFoldsIt : Prop :=
  ∀ (s : State) (b : Byte), s.halted = false → s.rxPhase = .payload → s.rxIdx < s.cfg.maxPayload →
    ∃ m : Memory, exec (.feed b) s =
      .next { s with
        rxValid := false, out := .done false, rxBuf := m, rxChk := s.rxChk ^^^ b, rxIdx := s.rxIdx + 1
        rxPhase := if s.rxIdx + 1 = s.rxLen then .chk else .payload } ∧
      (∀ i, bufByte { s with rxBuf := m } i = if i = s.rxIdx then b else bufByte s i) ∧
      (Memory.wf s.rxBuf = true → Memory.wf m = true)

/-- FEED in phase CHK: the byte equal to the running checksum completes the frame, sets RX_VALID and returns true with
RX_OPC, RX_LEN and RX_BUF left as they are; any other byte drops it. The cursor is reset either way (R187 to R189). In
every other phase FEED does not return true (R188). -/
def Obligations.FeedOfTheChecksumByteCompletesOrDrops : Prop :=
  ∀ (s : State) (b : Byte), s.halted = false →
    (s.rxPhase = .chk → exec (.feed b) s =
      .next { s with
        rxValid := decide (b = s.rxChk), out := .done (decide (b = s.rxChk))
        rxPhase := .sync0, rxIdx := 0, rxChk := 0 }) ∧
    (s.rxPhase ≠ .chk → ∀ t, exec (.feed b) s = .next t → t.out = .done false)

/-- An access outside RX_BUF stops the machine by name: a payload byte at an index that does not exist, a latched frame
longer than the buffer, a typed frame under a buffer too small for it (the model's choice for indices R50 says do not
exist, log 8; no state that meets the invariant has one). -/
def Obligations.AccessOutsideTheReceiveBufferFaults : Prop :=
  ∀ (s : State) (b : Byte), s.halted = false →
    (s.rxPhase = .payload → s.cfg.maxPayload ≤ s.rxIdx → exec (.feed b) s = .fault (.rxBufOutside s.rxIdx)) ∧
    (s.rxValid = true → s.cfg.maxPayload < s.rxLen →
      exec .getFrame s = .fault (.rxBufOutside s.cfg.maxPayload)) ∧
    (s.rxValid = true → s.rxOpc = s.cfg.opcRawImu → s.rxLen = 12 → s.cfg.maxPayload < 12 →
      exec .getRawImu s = .fault (.rxBufOutside s.cfg.maxPayload)) ∧
    (s.rxValid = true → s.rxOpc = s.cfg.opcAttitude → s.rxLen = 6 → s.cfg.maxPayload < 6 →
      exec .getAttitude s = .fault (.rxBufOutside s.cfg.maxPayload))

/-- FEED is total: on every byte, in every state that meets the receiver's invariant, it answers a next state, returns
true exactly when RX_VALID is then set, keeps the invariant, and touches nothing but the receiver (R180, R191, R161). -/
def Obligations.FeedIsTotalAndTouchesOnlyTheReceiver : Prop :=
  ∀ (s : State) (b : Byte), s.cfg.legal = true → ReceiverInv s → s.halted = false →
    ∃ (t : State) (d : Bool), exec (.feed b) s = .next t ∧ t.out = .done d ∧ t.rxValid = d ∧ ReceiverInv t ∧
      t = { s with
        rxPhase := t.rxPhase, rxLen := t.rxLen, rxOpc := t.rxOpc, rxIdx := t.rxIdx, rxChk := t.rxChk
        rxBuf := t.rxBuf, rxValid := t.rxValid, out := t.out } ∧
      (∀ i, i ≠ s.rxIdx → bufByte t i = bufByte s i)

/-- The parser finds every occurrence of SYNC_RX: fed from phase SYNC0 while it seeks, it is in phase LEN exactly when
the last three bytes fed were SYNC_RX (R183). -/
def Obligations.ParserReachesLenExactlyAfterTheSyncBytes : Prop :=
  ∀ (s : State) (bs : List Byte), s.cfg.legal = true → s.halted = false → s.rxPhase = .sync0 →
    (∀ p q ds u, bs = p ++ q → q ≠ [] → feedRun p s = some (ds, u) → u.rxPhase.seeking = true) →
    ∃ ds t, feedRun bs s = some (ds, t) ∧ (t.rxPhase = .len ↔ ∃ p, bs = p ++ s.cfg.syncRx.bytes)

/-- Round trip: from any seeking phase, feeding the bytes of `frame_bytes(SYNC_RX, opc, p)` returns false for every byte
but the last and true for the last, and GET_FRAME then answers exactly `(opc, |p|, p)`; the typed queries answer the
record a typed payload was made from, and `dec_motor` inverts `enc_motor` (R202). -/
def Obligations.FedFramesAreReconstructed : Prop :=
  ∀ (s : State) (opc : Byte) (p : List Byte), s.cfg.legal = true → s.halted = false → s.rxPhase.seeking = true →
    p.length ≤ s.cfg.maxPayload →
    ∃ t, feedRun (frameBytes s.cfg.syncRx opc p) s = some (List.replicate (p.length + 5) false ++ [true], t) ∧
      exec .getFrame t = .next { t with out := .frame (some ⟨opc, p.length, p⟩) } ∧
      (∀ r : RawInertialSample, r.inRange = true → opc = s.cfg.opcRawImu → p = encImu r →
        exec .getRawImu t = .next { t with out := .imu (some r) }) ∧
      (∀ a : AttitudeSample, a.inRange = true → opc = s.cfg.opcAttitude → p = encAtt a →
        exec .getAttitude t = .next { t with out := .att (some a) }) ∧
      (∀ cmd : Lanes Int, cmd.all isU16 = true → opc = s.cfg.opcSetMotor → p = encMotor cmd → decMotor p = cmd)

/-- Corruption and recovery: a valid frame with one payload byte, its opcode byte or its checksum byte replaced by a
different one returns false for every byte and leaves the parser in SYNC0; a valid frame fed next is reconstructed
(R203). -/
def Obligations.ACorruptedFrameIsDroppedAndTheNextOneRecovered : Prop :=
  ∀ (s : State) (opc opc' : Byte) (p p' : List Byte), s.cfg.legal = true → s.halted = false →
    s.rxPhase.seeking = true → p.length ≤ s.cfg.maxPayload → p'.length ≤ s.cfg.maxPayload →
    ∀ (k : Nat) (b : Byte), 4 ≤ k → k < p.length + 6 →
      let good := frameBytes s.cfg.syncRx opc p
      b ≠ good.getD k 0 →
      ∃ t u, feedRun (good.set k b) s = some (List.replicate (p.length + 6) false, t) ∧ t.rxPhase = .sync0 ∧
        feedRun (frameBytes s.cfg.syncRx opc' p') t = some (List.replicate (p'.length + 5) false ++ [true], u) ∧
        exec .getFrame u = .next { u with out := .frame (some ⟨opc', p'.length, p'⟩) }

/-- Counting: inside a frame at most `RX_LEN − RX_IDX + 2` further FEEDs bring the phase back to SYNC0, and from SYNC0 no
FEED returns true before the sixth byte (R201). -/
def Obligations.APartialFrameIsFinishedByBoundedlyManyBytes : Prop :=
  ∀ s : State, s.cfg.legal = true → ReceiverInv s → s.halted = false →
    (s.rxPhase.inFrame = true → ∀ bs : List Byte, bs.length = s.rxLen - s.rxIdx + 2 →
      ∃ p q ds t, bs = p ++ q ∧ p ≠ [] ∧ feedRun p s = some (ds, t) ∧ t.rxPhase = .sync0) ∧
    (s.rxPhase = .sync0 → ∀ bs : List Byte, bs.length < 6 →
      ∃ t, feedRun bs s = some (List.replicate bs.length false, t))

/-- The parser's result depends only on the sequence of bytes fed since reset, not on how it is grouped into steps, moves
or ticks (R193), where executing an inbound frame row counts as feeding its bytes (`fedBytes`: the model's reading, log 2,
DEDUCED). A step that invokes neither FEED nor an inbound frame row nor RESET leaves the receiver as it was (R31, R263); a step
that feeds leaves the receiver that feeding those bytes one by one leaves; and two runs without RESET, of any lengths, with
any moves and events in them, from equal receivers under one configuration, that feed the same bytes, end with equal
receivers. -/
def Obligations.FeedingDoesNotDependOnTheCut : Prop :=
  (∀ s t : State, step s = .next t → runsReset s = false → fedBytes s = [] →
    t.rxPhase = s.rxPhase ∧ t.rxLen = s.rxLen ∧ t.rxOpc = s.rxOpc ∧ t.rxIdx = s.rxIdx ∧ t.rxChk = s.rxChk ∧
      t.rxBuf = s.rxBuf ∧ t.rxValid = s.rxValid) ∧
  (∀ s t : State, step s = .next t → runsReset s = false →
    ∃ ds u, feedRun (fedBytes s) s = some (ds, u) ∧ SameReceiver u t) ∧
  (∀ (j k : Nat) (s s' t t' : State) (bs : List Byte), s'.cfg = s.cfg → SameReceiver s s' →
    runFed j s = some (bs, t) → runFed k s' = some (bs, t') → SameReceiver t t')

/-- An inbound frame row, received in a seeking phase, latches exactly its opcode, length and payload: the block answers
true, the cursor is reset, every other byte of RX_BUF and everything outside the receiver is as before (the model's
reading of a frame row, log 2; R188, R202). -/
def Obligations.InboundFrameRowsLatchTheirContent : Prop :=
  ∀ (s : State) (i : Instr) (opc : Byte) (p : List Byte), s.cfg.legal = true → s.halted = false →
    s.rxPhase.seeking = true →
    ((∃ r, i = .rawImu r ∧ opc = s.cfg.opcRawImu ∧ p = encImu r) ∨
      (∃ a, i = .attitude a ∧ opc = s.cfg.opcAttitude ∧ p = encAtt a) ∨
      (i = .otherFrame opc p ∧ p.length ≤ s.cfg.maxPayload)) →
    ∃ m : Memory, exec i s =
      .next { s with
        rxPhase := .sync0, rxLen := p.length, rxOpc := opc, rxIdx := 0, rxChk := 0, rxBuf := m
        rxValid := true, out := .done true } ∧
      ∀ k, bufByte { s with rxBuf := m } k = if k < p.length then p.getD k 0 else bufByte s k

/-! ### The frame queries -/

/-- MATCH answers whether the latched frame has the opcode and the length of the name, changes nothing else, and at most
one of the two names matches (R194). -/
def Obligations.MatchComparesOpcodeAndLength : Prop :=
  ∀ s : State, s.cfg.legal = true →
    (s.halted = false →
      exec (.matchFrame .rawImu) s =
        .next { s with out := .hit (s.rxValid && s.rxOpc == s.cfg.opcRawImu && s.rxLen == 12) } ∧
      exec (.matchFrame .attitude) s =
        .next { s with out := .hit (s.rxValid && s.rxOpc == s.cfg.opcAttitude && s.rxLen == 6) }) ∧
    (s.halted = true → ∀ n, exec (.matchFrame n) s = .next { s with out := .refused .halted }) ∧
    ¬(isHit s .rawImu = true ∧ isHit s .attitude = true)

/-- GET_RAW_IMU answers the six sign-extended little-endian fields of RX_BUF[0..11] when MATCH(RAW_IMU) holds, else
none, and changes nothing else; halted, it is refused. Where the receiver's invariant holds, no byte it reads is unwritten
(R196). -/
def Obligations.GetRawImuCopiesTheSixFields : Prop :=
  ∀ s : State, s.cfg.legal = true →
    let field : Nat → Int := fun k =>
      let u : Int := (bufByte s k).toNat + 256 * (bufByte s (k + 1)).toNat
      if u < 32768 then u else u - 65536
    (s.halted = false → s.rxValid = true → s.rxOpc = s.cfg.opcRawImu → s.rxLen = 12 →
      exec .getRawImu s =
        .next { s with out := .imu (some ⟨field 0, field 2, field 4, field 6, field 8, field 10⟩) }) ∧
    (s.halted = false → ¬(s.rxValid = true ∧ s.rxOpc = s.cfg.opcRawImu ∧ s.rxLen = 12) →
      exec .getRawImu s = .next { s with out := .imu none }) ∧
    (s.halted = true → exec .getRawImu s = .next { s with out := .refused .halted }) ∧
    (ReceiverInv s → s.rxValid = true → s.rxOpc = s.cfg.opcRawImu → s.rxLen = 12 → writtenBelow 12 s)

/-- GET_ATTITUDE answers the three sign-extended little-endian fields of RX_BUF[0..5] when MATCH(ATTITUDE) holds, else
none, and changes nothing else; halted, it is refused (R197). -/
def Obligations.GetAttitudeCopiesTheThreeFields : Prop :=
  ∀ s : State, s.cfg.legal = true →
    let field : Nat → Int := fun k =>
      let u : Int := (bufByte s k).toNat + 256 * (bufByte s (k + 1)).toNat
      if u < 32768 then u else u - 65536
    (s.halted = false → s.rxValid = true → s.rxOpc = s.cfg.opcAttitude → s.rxLen = 6 →
      exec .getAttitude s = .next { s with out := .att (some ⟨field 0, field 2, field 4⟩) }) ∧
    (s.halted = false → ¬(s.rxValid = true ∧ s.rxOpc = s.cfg.opcAttitude ∧ s.rxLen = 6) →
      exec .getAttitude s = .next { s with out := .att none }) ∧
    (s.halted = true → exec .getAttitude s = .next { s with out := .refused .halted })

/-- GET_FRAME answers none when RX_VALID = 0, else the opcode, the length and the RX_LEN bytes of the frame, and changes
nothing else; halted, it is refused (R198). -/
def Obligations.GetFrameAnswersTheRawFrame : Prop :=
  ∀ s : State, s.rxLen ≤ s.cfg.maxPayload →
    (s.halted = false → s.rxValid = true →
      ∃ p : List Byte, exec .getFrame s = .next { s with out := .frame (some ⟨s.rxOpc, s.rxLen, p⟩) } ∧
        p.length = s.rxLen ∧ ∀ k, k < s.rxLen → p.getD k 0 = bufByte s k) ∧
    (s.halted = false → s.rxValid = false → exec .getFrame s = .next { s with out := .frame none }) ∧
    (s.halted = true → exec .getFrame s = .next { s with out := .refused .halted })

/-- MIX, MATCH, GET_RAW_IMU, GET_ATTITUDE and GET_FRAME have no side effect and are idempotent: where one answers, the
state is as before but for its result, and repeating it gives the same again (R58). -/
def Obligations.PureOperationsAreIdempotent : Prop :=
  ∀ (s t : State) (i : Instr),
    ((∃ vx vy vr, i = .mix vx vy vr) ∨ (∃ n, i = .matchFrame n) ∨ i = .getRawImu ∨ i = .getAttitude ∨
      i = .getFrame) →
    exec i s = .next t → t = { s with out := t.out } ∧ exec i t = .next t

/-! ### RESET and the power-on state -/

/-- RESET answers from every state, halted or not: the receiver's cursor and frame fields, RX_VALID, HALTED, FAULT_INFO
and TX take their reset values (R280). That the configuration chosen by the host comes into force is how the model holds
it (log 13, DESIGN CHOICE), and that the bytes of RX_BUF survive is the model's choice where R280 and R41 leave the content
unspecified (log 7, DESIGN CHOICE, unsafe). -/
def Obligations.ResetEstablishesTheResetValues : Prop :=
  ∀ s : State, ∃ t, exec .reset s = .next t ∧
    t.rxPhase = .sync0 ∧ t.rxIdx = 0 ∧ t.rxChk = 0 ∧ t.rxLen = 0 ∧ t.rxOpc = 0 ∧ t.rxValid = false ∧
    t.halted = false ∧ t.faultInfo = none ∧ t.tx = [] ∧ t.cfg = s.chosenCfg ∧
    ∀ i, i < t.cfg.maxPayload → bufByte t i = bufByte s i

/-- The frame of RESET: it sends nothing, so that TX, a new run's, is empty (R280, R281), it reads nothing and does not
flush the transport (R281); beside the block's own state only the host's slot is emptied (R41) and the host's process
starts anew (the model's choice, log 14). -/
def Obligations.ResetLeavesTheTransportAndTheBusAlone : Prop :=
  ∀ s : State, ∃ t, exec .reset s = .next t ∧
    t.tx = [] ∧ t.transport = s.transport ∧ t.inertialOut = s.inertialOut ∧ t.attitudeOut = s.attitudeOut ∧
    t.echoOut = s.echoOut ∧ t.busFailing = s.busFailing ∧ t.chosenCfg = s.chosenCfg ∧ t.agenda = s.agenda ∧
    t.inputs = s.inputs ∧ t.pending = none ∧ t.hostPhase = .booting ∧ t.out = .completed ∧
    (Memory.wf s.rxBuf = true → Memory.wf t.rxBuf = true)

/-- The state after power-on has the values R41 gives. That no byte of RX_BUF is listed is how the model leaves its content
unspecified (log 7), and that the configuration in force is the default instance is the model's choice (log 13, DESIGN
CHOICE: R41 says "the instance chosen at reset"); the default instance has the constants of R7 and meets the constraints
of R8. -/
def Obligations.PowerOnStateHasTheSpecifiedValues : Prop :=
  State.reset.rxPhase = .sync0 ∧ State.reset.rxIdx = 0 ∧ State.reset.rxChk = 0 ∧ State.reset.rxLen = 0 ∧
  State.reset.rxOpc = 0 ∧ State.reset.rxValid = false ∧ State.reset.halted = false ∧
  State.reset.faultInfo = none ∧ State.reset.tx = [] ∧ State.reset.pending = none ∧
  (∀ i, Memory.read State.reset.rxBuf i = none) ∧
  State.reset.cfg = Config.default ∧ Config.default.legal = true ∧
  Config.default.clampLo = 1400 ∧ Config.default.clampHi = 1600

/-! ### Invariants -/

/-- The invariant of the machine holds after power-on. -/
def Obligations.InvariantHoldsAtPowerOn : Prop := Inv State.reset

/-- Every step keeps the invariant: the configuration stays one of this hardware, RX_BUF stays canonical and inside its
bounds, the cursor and the running checksum say what has been received (R32 to R37), a latched frame is complete and
undisturbed, TX holds whole frames inside the envelope, and a halt is recorded (R40). -/
def Obligations.EveryStepKeepsTheInvariant : Prop :=
  ∀ s t : State, Inv s → step s = .next t → Inv t

/-- From every state that meets the invariant a step answers a next state, unless the outside world offers an illegal
configuration: no run reaches a fault (R200, R250, R294). -/
def Obligations.NoReachableStepFaults : Prop :=
  ∀ s : State, Inv s →
    (∃ t, step s = .next t) ∨
    (∃ c rest, s.inputs = some (.configure c) :: rest ∧ c.legal = false ∧ step s = .refused .illegalConfig)

/-- No step transmits an actuator value outside the envelope, under any configuration and in any state: TX stays a
sequence of whole outbound frames whose motor frames carry four values in [ENV_LO, ENV_HI] (R52, R165). -/
def Obligations.EveryTransmittedMotorFrameIsInsideTheEnvelope : Prop :=
  ∀ s t : State, TxSafe s → step s = .next t → TxSafe t

/-- ENCODE cannot fault under a configuration of this hardware, so no step from a state that meets the invariant halts
the block unless it runs TX_SET_MOTOR or a SET_MOTOR frame (R146, R165). -/
def Obligations.OnlyAnOfferedMotorCommandCanHaltTheBlock : Prop :=
  ∀ s t : State, Inv s → s.halted = false → step s = .next t → t.halted = true →
    ∃ (cmd : Lanes Int) (k : Fin 4), (cmd.get k < 1400 ∨ 1600 < cmd.get k) ∧
      t.faultInfo.isSome = true ∧ t.out = .fault (.envelopeViolation k (cmd.get k)) ∧
      ((∃ rest, s.agenda = .op (.txSetMotor cmd) :: rest) ∨ (∃ rest, s.agenda = .op (.setMotor cmd) :: rest) ∨
        (∃ bs rest after, s.agenda = .wire bs :: rest ∧ decode s.cfg bs = .ok (.setMotor cmd, after)) ∨
        (∃ rest, s.agenda = .txResult :: rest ∧ s.out = .motor cmd))

/-- What the host "is assumed never to do" has no move (R236, third column; how the model holds the host: logs 13, 15, 21,
31; that a shutdown may begin in any phase but stopped is the model's choice, log 32). In every state and for every step: the configuration in force changes only when RESET runs, then to the one the host
has chosen (R30), and TX is empty then; the host's process advances only in the order of startup and shutdown: the hold
passes only when what TX holds beyond its bytes at the flush is exactly the neutral frame, ticking begins and the transport
is released only when nothing was sent since the hold or the shutdown's wait, and neutral is the last command before each of
them (R234, R235, R283); before startup completes, and after the ticking has ended, no byte of the transport reaches the parser (bytes arrive, or the flush
discards all of them with the receiver untouched) and nothing but RESET empties PENDING. -/
def Obligations.WhatTheHostIsAssumedNeverToDoHasNoMove : Prop :=
  ∀ s t : State, step s = .next t →
    (t.cfg = s.cfg ∨ (runsReset s = true ∧ t.cfg = s.chosenCfg ∧ t.tx = [])) ∧
    (t.hostPhase = s.hostPhase ∨ (runsReset s = true ∧ t.hostPhase = .booting) ∨
      (s.hostPhase = .booting ∧ t.hostPhase = .opened) ∨ (s.hostPhase = .opened ∧ t.hostPhase = .settled) ∨
      (s.hostPhase = .settled ∧ t.hostPhase = .flushed s.tx.length ∧ t.transport = []) ∨
      (∃ sent, s.hostPhase = .flushed sent ∧ t.hostPhase = .held s.tx.length ∧
        s.tx = s.tx.take sent ++ neutralFrame s.cfg) ∨
      (s.hostPhase = .held s.tx.length ∧ t.hostPhase = .ticking ∧ neutralJustSent s = true) ∨
      (s.hostPhase ≠ .stopped ∧ t.hostPhase = .parked s.tx.length ∧ neutralJustSent s = true) ∨
      (s.hostPhase = .parked s.tx.length ∧ t.hostPhase = .stopped ∧ neutralJustSent s = true) ∨
      (s.hostPhase = .booting ∧ t.hostPhase = .stopped ∧ ∃ rest, s.agenda = .openTransport false :: rest)) ∧
    (s.hostPhase ≠ .ticking →
      ((∃ bs, t.transport = s.transport ++ bs) ∨
        (s.hostPhase = .settled ∧ t.transport = [] ∧ SameReceiver s t)) ∧
      (t.pending = s.pending ∨ (runsReset s = true ∧ t.pending = none) ∨
        ∃ v later, s.inputs = some (.intake v) :: later ∧ t.pending = some v))

/-- TX is append-only: unless the step runs RESET, which starts a new run, it leaves the bytes on TX as they are and
appends at most one whole frame after them (R39, R52). -/
def Obligations.TxIsAppendOnly : Prop :=
  ∀ s t : State, step s = .next t →
    (∃ rest, s.agenda = .op .reset :: rest ∧ (s.inputs = [] ∨ ∃ more, s.inputs = none :: more)) ∨ t.tx = s.tx ∨
      ∃ f : OutFrame, f.safe s.cfg ∧ t.tx = s.tx ++ f.bytes s.cfg

/-- No coupling from RX to TX inside the block: what an operation appends does not depend on the receiver state, the
result port, or anything else but the configuration, HALTED and TX itself (R63, R161). -/
def Obligations.TransmissionDoesNotDependOnTheReceiver : Prop :=
  ∀ (i : Instr) (s s' t t' : State), s.cfg = s'.cfg → s.halted = s'.halted → s.tx = s'.tx →
    exec i s = .next t → exec i s' = .next t' → t.tx = t'.tx ∧ t.halted = t'.halted

/-! ### The step -/

/-- A step runs the decoded frame: with bytes on the wire that decode to an instruction, the step is that instruction's
meaning, in the state with those bytes consumed; the bytes after the frame stay on the wire. Bytes that are no frame of
the table are fed to the parser, and a placed table word runs as what it decodes to (the model's choices, log 3). -/
def Obligations.StepRunsTheDecodedFrame : Prop :=
  ∀ (s : State) (bs : List Byte) (rest : List Move) (later : List (Option Event)) (i : Instr),
    s.agenda = .wire bs :: rest → ((s.inputs = [] ∧ later = []) ∨ s.inputs = none :: later) →
    (decode s.cfg bs = .ok (i, []) → step s = exec i { s with agenda := rest, inputs := later }) ∧
    (∀ b more, decode s.cfg bs = .ok (i, b :: more) →
      step s = exec i { s with agenda := .wire (b :: more) :: rest, inputs := later }) ∧
    (∀ e, decode s.cfg bs = .error e → step s = .next { s with agenda := .feeds bs :: rest, inputs := later }) ∧
    (∀ nbits w, decode s.cfg (tableWordBytes s.cfg nbits w) = .ok (i, []) →
      step (s.withFetchWord nbits w) = exec i s)

/-- A step performs the operation the host invokes next, in the state with that invocation consumed; with nothing to do
the block is idle and holds its state (R57, R59, R270). A move the host does not have where its process stands is passed
over: no tick before startup completes, no hold unless exactly neutral was sent since the flush, no start of ticking and no
release unless neutral was the last command before the wait that precedes it (R236, R283; log 31). -/
def Obligations.StepPerformsTheNextOperationOrIdles : Prop :=
  ∀ (s : State) (later : List (Option Event)), ((s.inputs = [] ∧ later = []) ∨ s.inputs = none :: later) →
    (∀ i rest, s.agenda = .op i :: rest → step s = exec i { s with agenda := rest, inputs := later }) ∧
    (s.agenda = [] → step s = .next { s with inputs := later }) ∧
    (∀ m rest, s.agenda = m :: rest →
      (m = .tick ∨ m = .drain ∨ m = .consume) ∧ s.hostPhase ≠ .ticking ∨
        m = .wait .hold ∧ (s.hostPhase ≠ .flushed (sentBeforeNeutral s) ∨ neutralJustSent s = false) ∨
        m = .begin ∧ (s.hostPhase ≠ .held s.tx.length ∨ neutralJustSent s = false) ∨
        m = .release ∧ (s.hostPhase ≠ .parked s.tx.length ∨ neutralJustSent s = false) →
      step s = .next { s with agenda := rest, inputs := later })

/-! ### The host -/

/-- The intake overwrites PENDING, last write wins, and touches nothing else; the scheduler's swap-and-clear, in a tick of
a block that is not halted, takes the whole triple in one step and leaves the slot empty (R221 to R223). -/
def Obligations.PendingIsOverwrittenAndSwappedWhole : Prop :=
  ∀ (s : State) (v : Velocity) (later : List (Option Event)) (rest : List Move),
    (s.inputs = some (.intake v) :: later → step s = .next { s with pending := some v, inputs := later }) ∧
    (((s.inputs = [] ∧ later = []) ∨ s.inputs = none :: later) → s.halted = false → s.hostPhase = .ticking →
      s.agenda = .consume :: rest →
      (s.pending = some v →
        step s = .next { s with
          pending := none, agenda := .sendVelocity v :: .echo v :: rest, inputs := later }) ∧
      (s.pending = none → step s = .next { s with agenda := rest, inputs := later }))

/-- A tick with nothing to drain transmits twelve or twenty-six bytes (R232). With no pending command: the two queries and
no motor frame, and no echo (R229, R231). With one: its motor frame and then the two queries, the slot is emptied and the
command is echoed verbatim (R228, R230, R231). -/
def Obligations.ATickSendsTwelveOrTwentySixBytes : Prop :=
  ∀ s : State, s.inputs = [] → s.agenda = [.tick] → s.hostPhase = .ticking → s.transport = [] → s.halted = false →
    (s.pending = none →
      ∃ k t, steps k s = .next t ∧ t.agenda = [] ∧
        t.tx = s.tx ++ (OutFrame.queryRawImu.bytes s.cfg ++ OutFrame.queryAttitude.bytes s.cfg) ∧
        t.tx.length = s.tx.length + 12 ∧ t.echoOut = s.echoOut ∧ t.halted = false) ∧
    (∀ v : Velocity, s.cfg.legal = true → s.pending = some v → s.busFailing = false →
      ∃ k t, steps k s = .next t ∧ t.agenda = [] ∧
        t.tx = s.tx ++ (OutFrame.bytes s.cfg (.motor (encodeLanes s.cfg (mixLanes s.cfg v.vx v.vy v.vr)))
          ++ OutFrame.queryRawImu.bytes s.cfg ++ OutFrame.queryAttitude.bytes s.cfg) ∧
        t.tx.length = s.tx.length + 26 ∧ t.pending = none ∧ t.echoOut = s.echoOut ++ [v] ∧ t.halted = false)

/-- Startup and shutdown run to their end. Startup resets the block under the chosen configuration, discards the stale
bytes unfed, sends exactly the neutral frame, and the host ticks (R234, R283); if the transport cannot be opened nothing is
sent and the process is over (R234, R252). Shutdown of a running block appends the neutral frame and releases the transport
(R235), from any phase of the process but stopped (the spec does not say from which: the model's choice, log 32). -/
def Obligations.StartupAndShutdownRunToTheirEnd : Prop :=
  ∀ s : State, s.inputs = [] →
    (s.chosenCfg.legal = true → s.agenda = [.startup true] →
      ∃ k t, steps k s = .next t ∧ t.agenda = [] ∧ t.hostPhase = .ticking ∧ t.cfg = s.chosenCfg ∧
        t.tx = OutFrame.bytes s.chosenCfg (.motor ⟨1500, 1500, 1500, 1500⟩) ∧ t.transport = [] ∧
        t.rxPhase = .sync0 ∧ t.rxValid = false ∧ t.halted = false) ∧
    (s.agenda = [.startup false] →
      ∃ k t, steps k s = .next t ∧ t.agenda = [] ∧ t.hostPhase = .stopped ∧ t.tx = [] ∧
        t.transport = s.transport) ∧
    (s.cfg.legal = true → s.halted = false → s.hostPhase ≠ .stopped → s.agenda = [.shutdown] →
      ∃ k t, steps k s = .next t ∧ t.agenda = [] ∧ t.hostPhase = .stopped ∧
        t.tx = s.tx ++ OutFrame.bytes s.cfg (.motor ⟨1500, 1500, 1500, 1500⟩) ∧ t.transport = s.transport)

/-- Draining a telemetry frame from the transport publishes exactly its record, each field the same number, on the channel
of its kind and on no other, and consumes every byte (R199, R226, R227): an attitude frame, and a raw-inertial frame. -/
def Obligations.ADrainedTelemetryFrameIsPublished : Prop :=
  ∀ s : State, s.cfg.legal = true → s.inputs = [] → s.agenda = [.drain] → s.hostPhase = .ticking →
    s.rxPhase.seeking = true → s.halted = false → s.busFailing = false →
    (∀ a : AttitudeSample, a.inRange = true →
      s.transport = frameBytes s.cfg.syncRx s.cfg.opcAttitude (encAtt a) →
      ∃ k t, steps k s = .next t ∧ t.agenda = [] ∧ t.transport = [] ∧
        t.attitudeOut = s.attitudeOut ++ [⟨a.angx, a.angy, a.heading⟩] ∧ t.inertialOut = s.inertialOut ∧
        t.tx = s.tx) ∧
    (∀ r : RawInertialSample, r.inRange = true →
      s.transport = frameBytes s.cfg.syncRx s.cfg.opcRawImu (encImu r) →
      ∃ k t, steps k s = .next t ∧ t.agenda = [] ∧ t.transport = [] ∧
        t.inertialOut = s.inertialOut ++ [⟨⟨r.accx, r.accy, r.accz⟩, ⟨r.gyrx, r.gyry, r.gyrz⟩⟩] ∧
        t.attitudeOut = s.attitudeOut ∧ t.tx = s.tx)

/-- A failing publish, of either record or of the echo, loses that message and changes no state of the block, and the
worker goes on with the next move; a publish that does not fail appends its message (R199, R230, R233). -/
def Obligations.AFailedPublishLosesOnlyItsMessage : Prop :=
  ∀ (s : State) (rest : List Move) (m : Move) (later : List (Option Event)),
    ((s.inputs = [] ∧ later = []) ∨ s.inputs = none :: later) → s.agenda = m :: rest →
    ((m = .publish ∧ ∃ r, s.out = .imu (some r)) ∨ (m = .publish ∧ ∃ a, s.out = .att (some a)) ∨
      (s.out = .completed ∧ ∃ v, m = .echo v) → s.busFailing = true →
      step s = .next { s with agenda := rest, inputs := later, busFailing := false }) ∧
    (∀ r, m = .publish → s.out = .imu (some r) → s.busFailing = false →
      step s = .next { s with
        agenda := rest, inputs := later
        inertialOut := s.inertialOut ++ [⟨⟨r.accx, r.accy, r.accz⟩, ⟨r.gyrx, r.gyry, r.gyrz⟩⟩] }) ∧
    (∀ a, m = .publish → s.out = .att (some a) → s.busFailing = false →
      step s = .next { s with
        agenda := rest, inputs := later, attitudeOut := s.attitudeOut ++ [⟨a.angx, a.angy, a.heading⟩] }) ∧
    (∀ v, m = .echo v → s.out = .completed → s.busFailing = false →
      step s = .next { s with agenda := rest, inputs := later, echoOut := s.echoOut ++ [v] })
end

