-- ==== Sys2Proof/Laws/State.lean ====
section
/-! SUPPORT. One lemma per field per named update of the state, true by rfl, so that no later proof unfolds a record
update. -/

namespace Sys2Proof.Machine

variable {α : Type}

/-! ### powerOn -/

theorem State.reset_eq : State.reset = State.powerOn Config.default := rfl

@[simp] theorem State.powerOn_cfg (c : Config α) : (State.powerOn c).cfg = c := rfl
@[simp] theorem State.powerOn_chosenCfg (c : Config α) : (State.powerOn c).chosenCfg = c := rfl
@[simp] theorem State.powerOn_rxPhase (c : Config α) : (State.powerOn c).rxPhase = .sync0 := rfl
@[simp] theorem State.powerOn_rxLen (c : Config α) : (State.powerOn c).rxLen = 0 := rfl
@[simp] theorem State.powerOn_rxOpc (c : Config α) : (State.powerOn c).rxOpc = 0 := rfl
@[simp] theorem State.powerOn_rxIdx (c : Config α) : (State.powerOn c).rxIdx = 0 := rfl
@[simp] theorem State.powerOn_rxChk (c : Config α) : (State.powerOn c).rxChk = 0 := rfl
@[simp] theorem State.powerOn_rxBuf (c : Config α) : (State.powerOn c).rxBuf = [] := rfl
@[simp] theorem State.powerOn_rxValid (c : Config α) : (State.powerOn c).rxValid = false := rfl
@[simp] theorem State.powerOn_halted (c : Config α) : (State.powerOn c).halted = false := rfl
@[simp] theorem State.powerOn_faultInfo (c : Config α) : (State.powerOn c).faultInfo = none := rfl
@[simp] theorem State.powerOn_tx (c : Config α) : (State.powerOn c).tx = [] := rfl
@[simp] theorem State.powerOn_out (c : Config α) : (State.powerOn c).out = .idle := rfl
@[simp] theorem State.powerOn_pending (c : Config α) : (State.powerOn c).pending = none := rfl
@[simp] theorem State.powerOn_transport (c : Config α) : (State.powerOn c).transport = [] := rfl
@[simp] theorem State.powerOn_inertialOut (c : Config α) : (State.powerOn c).inertialOut = [] := rfl
@[simp] theorem State.powerOn_attitudeOut (c : Config α) : (State.powerOn c).attitudeOut = [] := rfl
@[simp] theorem State.powerOn_echoOut (c : Config α) : (State.powerOn c).echoOut = [] := rfl
@[simp] theorem State.powerOn_busFailing (c : Config α) : (State.powerOn c).busFailing = false := rfl
@[simp] theorem State.powerOn_hostPhase (c : Config α) : (State.powerOn c).hostPhase = .booting := rfl
@[simp] theorem State.powerOn_agenda (c : Config α) : (State.powerOn c).agenda = [] := rfl
@[simp] theorem State.powerOn_inputs (c : Config α) : (State.powerOn c).inputs = [] := rfl

/-! ### txWrite -/

@[simp] theorem txWrite_cfg (bs : List Byte) (s : State α) : (txWrite bs s).cfg = s.cfg := rfl
@[simp] theorem txWrite_chosenCfg (bs : List Byte) (s : State α) : (txWrite bs s).chosenCfg = s.chosenCfg := rfl
@[simp] theorem txWrite_rxPhase (bs : List Byte) (s : State α) : (txWrite bs s).rxPhase = s.rxPhase := rfl
@[simp] theorem txWrite_rxLen (bs : List Byte) (s : State α) : (txWrite bs s).rxLen = s.rxLen := rfl
@[simp] theorem txWrite_rxOpc (bs : List Byte) (s : State α) : (txWrite bs s).rxOpc = s.rxOpc := rfl
@[simp] theorem txWrite_rxIdx (bs : List Byte) (s : State α) : (txWrite bs s).rxIdx = s.rxIdx := rfl
@[simp] theorem txWrite_rxChk (bs : List Byte) (s : State α) : (txWrite bs s).rxChk = s.rxChk := rfl
@[simp] theorem txWrite_rxBuf (bs : List Byte) (s : State α) : (txWrite bs s).rxBuf = s.rxBuf := rfl
@[simp] theorem txWrite_rxValid (bs : List Byte) (s : State α) : (txWrite bs s).rxValid = s.rxValid := rfl
@[simp] theorem txWrite_halted (bs : List Byte) (s : State α) : (txWrite bs s).halted = s.halted := rfl
@[simp] theorem txWrite_faultInfo (bs : List Byte) (s : State α) : (txWrite bs s).faultInfo = s.faultInfo := rfl
@[simp] theorem txWrite_tx (bs : List Byte) (s : State α) : (txWrite bs s).tx = s.tx ++ bs := rfl
@[simp] theorem txWrite_out (bs : List Byte) (s : State α) : (txWrite bs s).out = s.out := rfl
@[simp] theorem txWrite_pending (bs : List Byte) (s : State α) : (txWrite bs s).pending = s.pending := rfl
@[simp] theorem txWrite_transport (bs : List Byte) (s : State α) : (txWrite bs s).transport = s.transport := rfl
@[simp] theorem txWrite_inertialOut (bs : List Byte) (s : State α) : (txWrite bs s).inertialOut = s.inertialOut := rfl
@[simp] theorem txWrite_attitudeOut (bs : List Byte) (s : State α) : (txWrite bs s).attitudeOut = s.attitudeOut := rfl
@[simp] theorem txWrite_echoOut (bs : List Byte) (s : State α) : (txWrite bs s).echoOut = s.echoOut := rfl
@[simp] theorem txWrite_busFailing (bs : List Byte) (s : State α) : (txWrite bs s).busFailing = s.busFailing := rfl
@[simp] theorem txWrite_hostPhase (bs : List Byte) (s : State α) : (txWrite bs s).hostPhase = s.hostPhase := rfl
@[simp] theorem txWrite_agenda (bs : List Byte) (s : State α) : (txWrite bs s).agenda = s.agenda := rfl
@[simp] theorem txWrite_inputs (bs : List Byte) (s : State α) : (txWrite bs s).inputs = s.inputs := rfl

/-! ### cursorReset -/

@[simp] theorem cursorReset_cfg (s : State α) : (cursorReset s).cfg = s.cfg := rfl
@[simp] theorem cursorReset_chosenCfg (s : State α) : (cursorReset s).chosenCfg = s.chosenCfg := rfl
@[simp] theorem cursorReset_rxPhase (s : State α) : (cursorReset s).rxPhase = .sync0 := rfl
@[simp] theorem cursorReset_rxLen (s : State α) : (cursorReset s).rxLen = s.rxLen := rfl
@[simp] theorem cursorReset_rxOpc (s : State α) : (cursorReset s).rxOpc = s.rxOpc := rfl
@[simp] theorem cursorReset_rxIdx (s : State α) : (cursorReset s).rxIdx = 0 := rfl
@[simp] theorem cursorReset_rxChk (s : State α) : (cursorReset s).rxChk = 0 := rfl
@[simp] theorem cursorReset_rxBuf (s : State α) : (cursorReset s).rxBuf = s.rxBuf := rfl
@[simp] theorem cursorReset_rxValid (s : State α) : (cursorReset s).rxValid = s.rxValid := rfl
@[simp] theorem cursorReset_halted (s : State α) : (cursorReset s).halted = s.halted := rfl
@[simp] theorem cursorReset_faultInfo (s : State α) : (cursorReset s).faultInfo = s.faultInfo := rfl
@[simp] theorem cursorReset_tx (s : State α) : (cursorReset s).tx = s.tx := rfl
@[simp] theorem cursorReset_out (s : State α) : (cursorReset s).out = s.out := rfl
@[simp] theorem cursorReset_pending (s : State α) : (cursorReset s).pending = s.pending := rfl
@[simp] theorem cursorReset_transport (s : State α) : (cursorReset s).transport = s.transport := rfl
@[simp] theorem cursorReset_inertialOut (s : State α) : (cursorReset s).inertialOut = s.inertialOut := rfl
@[simp] theorem cursorReset_attitudeOut (s : State α) : (cursorReset s).attitudeOut = s.attitudeOut := rfl
@[simp] theorem cursorReset_echoOut (s : State α) : (cursorReset s).echoOut = s.echoOut := rfl
@[simp] theorem cursorReset_busFailing (s : State α) : (cursorReset s).busFailing = s.busFailing := rfl
@[simp] theorem cursorReset_hostPhase (s : State α) : (cursorReset s).hostPhase = s.hostPhase := rfl
@[simp] theorem cursorReset_agenda (s : State α) : (cursorReset s).agenda = s.agenda := rfl
@[simp] theorem cursorReset_inputs (s : State α) : (cursorReset s).inputs = s.inputs := rfl

/-! ### clearValid -/

@[simp] theorem clearValid_cfg (s : State α) : (clearValid s).cfg = s.cfg := rfl
@[simp] theorem clearValid_chosenCfg (s : State α) : (clearValid s).chosenCfg = s.chosenCfg := rfl
@[simp] theorem clearValid_rxPhase (s : State α) : (clearValid s).rxPhase = s.rxPhase := rfl
@[simp] theorem clearValid_rxLen (s : State α) : (clearValid s).rxLen = s.rxLen := rfl
@[simp] theorem clearValid_rxOpc (s : State α) : (clearValid s).rxOpc = s.rxOpc := rfl
@[simp] theorem clearValid_rxIdx (s : State α) : (clearValid s).rxIdx = s.rxIdx := rfl
@[simp] theorem clearValid_rxChk (s : State α) : (clearValid s).rxChk = s.rxChk := rfl
@[simp] theorem clearValid_rxBuf (s : State α) : (clearValid s).rxBuf = s.rxBuf := rfl
@[simp] theorem clearValid_rxValid (s : State α) : (clearValid s).rxValid = false := rfl
@[simp] theorem clearValid_halted (s : State α) : (clearValid s).halted = s.halted := rfl
@[simp] theorem clearValid_faultInfo (s : State α) : (clearValid s).faultInfo = s.faultInfo := rfl
@[simp] theorem clearValid_tx (s : State α) : (clearValid s).tx = s.tx := rfl
@[simp] theorem clearValid_out (s : State α) : (clearValid s).out = s.out := rfl
@[simp] theorem clearValid_pending (s : State α) : (clearValid s).pending = s.pending := rfl
@[simp] theorem clearValid_transport (s : State α) : (clearValid s).transport = s.transport := rfl
@[simp] theorem clearValid_inertialOut (s : State α) : (clearValid s).inertialOut = s.inertialOut := rfl
@[simp] theorem clearValid_attitudeOut (s : State α) : (clearValid s).attitudeOut = s.attitudeOut := rfl
@[simp] theorem clearValid_echoOut (s : State α) : (clearValid s).echoOut = s.echoOut := rfl
@[simp] theorem clearValid_busFailing (s : State α) : (clearValid s).busFailing = s.busFailing := rfl
@[simp] theorem clearValid_hostPhase (s : State α) : (clearValid s).hostPhase = s.hostPhase := rfl
@[simp] theorem clearValid_agenda (s : State α) : (clearValid s).agenda = s.agenda := rfl
@[simp] theorem clearValid_inputs (s : State α) : (clearValid s).inputs = s.inputs := rfl

/-! ### push -/

@[simp] theorem push_cfg (ms : List (Move α)) (s : State α) : (push ms s).cfg = s.cfg := rfl
@[simp] theorem push_chosenCfg (ms : List (Move α)) (s : State α) : (push ms s).chosenCfg = s.chosenCfg := rfl
@[simp] theorem push_rxPhase (ms : List (Move α)) (s : State α) : (push ms s).rxPhase = s.rxPhase := rfl
@[simp] theorem push_rxLen (ms : List (Move α)) (s : State α) : (push ms s).rxLen = s.rxLen := rfl
@[simp] theorem push_rxOpc (ms : List (Move α)) (s : State α) : (push ms s).rxOpc = s.rxOpc := rfl
@[simp] theorem push_rxIdx (ms : List (Move α)) (s : State α) : (push ms s).rxIdx = s.rxIdx := rfl
@[simp] theorem push_rxChk (ms : List (Move α)) (s : State α) : (push ms s).rxChk = s.rxChk := rfl
@[simp] theorem push_rxBuf (ms : List (Move α)) (s : State α) : (push ms s).rxBuf = s.rxBuf := rfl
@[simp] theorem push_rxValid (ms : List (Move α)) (s : State α) : (push ms s).rxValid = s.rxValid := rfl
@[simp] theorem push_halted (ms : List (Move α)) (s : State α) : (push ms s).halted = s.halted := rfl
@[simp] theorem push_faultInfo (ms : List (Move α)) (s : State α) : (push ms s).faultInfo = s.faultInfo := rfl
@[simp] theorem push_tx (ms : List (Move α)) (s : State α) : (push ms s).tx = s.tx := rfl
@[simp] theorem push_out (ms : List (Move α)) (s : State α) : (push ms s).out = s.out := rfl
@[simp] theorem push_pending (ms : List (Move α)) (s : State α) : (push ms s).pending = s.pending := rfl
@[simp] theorem push_transport (ms : List (Move α)) (s : State α) : (push ms s).transport = s.transport := rfl
@[simp] theorem push_inertialOut (ms : List (Move α)) (s : State α) : (push ms s).inertialOut = s.inertialOut := rfl
@[simp] theorem push_attitudeOut (ms : List (Move α)) (s : State α) : (push ms s).attitudeOut = s.attitudeOut := rfl
@[simp] theorem push_echoOut (ms : List (Move α)) (s : State α) : (push ms s).echoOut = s.echoOut := rfl
@[simp] theorem push_busFailing (ms : List (Move α)) (s : State α) : (push ms s).busFailing = s.busFailing := rfl
@[simp] theorem push_hostPhase (ms : List (Move α)) (s : State α) : (push ms s).hostPhase = s.hostPhase := rfl
@[simp] theorem push_agenda (ms : List (Move α)) (s : State α) : (push ms s).agenda = ms ++ s.agenda := rfl
@[simp] theorem push_inputs (ms : List (Move α)) (s : State α) : (push ms s).inputs = s.inputs := rfl

/-! ### resetBlock -/

@[simp] theorem resetBlock_cfg (s : State α) : (resetBlock s).cfg = s.chosenCfg := rfl
@[simp] theorem resetBlock_chosenCfg (s : State α) : (resetBlock s).chosenCfg = s.chosenCfg := rfl
@[simp] theorem resetBlock_rxPhase (s : State α) : (resetBlock s).rxPhase = .sync0 := rfl
@[simp] theorem resetBlock_rxLen (s : State α) : (resetBlock s).rxLen = 0 := rfl
@[simp] theorem resetBlock_rxOpc (s : State α) : (resetBlock s).rxOpc = 0 := rfl
@[simp] theorem resetBlock_rxIdx (s : State α) : (resetBlock s).rxIdx = 0 := rfl
@[simp] theorem resetBlock_rxChk (s : State α) : (resetBlock s).rxChk = 0 := rfl
@[simp] theorem resetBlock_rxBuf (s : State α) : (resetBlock s).rxBuf = Memory.keepBelow s.chosenCfg.maxPayload s.rxBuf := rfl
@[simp] theorem resetBlock_rxValid (s : State α) : (resetBlock s).rxValid = false := rfl
@[simp] theorem resetBlock_halted (s : State α) : (resetBlock s).halted = false := rfl
@[simp] theorem resetBlock_faultInfo (s : State α) : (resetBlock s).faultInfo = none := rfl
@[simp] theorem resetBlock_tx (s : State α) : (resetBlock s).tx = [] := rfl
@[simp] theorem resetBlock_out (s : State α) : (resetBlock s).out = s.out := rfl
@[simp] theorem resetBlock_pending (s : State α) : (resetBlock s).pending = none := rfl
@[simp] theorem resetBlock_transport (s : State α) : (resetBlock s).transport = s.transport := rfl
@[simp] theorem resetBlock_inertialOut (s : State α) : (resetBlock s).inertialOut = s.inertialOut := rfl
@[simp] theorem resetBlock_attitudeOut (s : State α) : (resetBlock s).attitudeOut = s.attitudeOut := rfl
@[simp] theorem resetBlock_echoOut (s : State α) : (resetBlock s).echoOut = s.echoOut := rfl
@[simp] theorem resetBlock_busFailing (s : State α) : (resetBlock s).busFailing = s.busFailing := rfl
@[simp] theorem resetBlock_hostPhase (s : State α) : (resetBlock s).hostPhase = .booting := rfl
@[simp] theorem resetBlock_agenda (s : State α) : (resetBlock s).agenda = s.agenda := rfl
@[simp] theorem resetBlock_inputs (s : State α) : (resetBlock s).inputs = s.inputs := rfl

/-! ### placeWire -/

@[simp] theorem placeWire_cfg (bs : List Byte) (s : State α) : (placeWire bs s).cfg = s.cfg := rfl
@[simp] theorem placeWire_chosenCfg (bs : List Byte) (s : State α) : (placeWire bs s).chosenCfg = s.chosenCfg := rfl
@[simp] theorem placeWire_rxPhase (bs : List Byte) (s : State α) : (placeWire bs s).rxPhase = s.rxPhase := rfl
@[simp] theorem placeWire_rxLen (bs : List Byte) (s : State α) : (placeWire bs s).rxLen = s.rxLen := rfl
@[simp] theorem placeWire_rxOpc (bs : List Byte) (s : State α) : (placeWire bs s).rxOpc = s.rxOpc := rfl
@[simp] theorem placeWire_rxIdx (bs : List Byte) (s : State α) : (placeWire bs s).rxIdx = s.rxIdx := rfl
@[simp] theorem placeWire_rxChk (bs : List Byte) (s : State α) : (placeWire bs s).rxChk = s.rxChk := rfl
@[simp] theorem placeWire_rxBuf (bs : List Byte) (s : State α) : (placeWire bs s).rxBuf = s.rxBuf := rfl
@[simp] theorem placeWire_rxValid (bs : List Byte) (s : State α) : (placeWire bs s).rxValid = s.rxValid := rfl
@[simp] theorem placeWire_halted (bs : List Byte) (s : State α) : (placeWire bs s).halted = s.halted := rfl
@[simp] theorem placeWire_faultInfo (bs : List Byte) (s : State α) : (placeWire bs s).faultInfo = s.faultInfo := rfl
@[simp] theorem placeWire_tx (bs : List Byte) (s : State α) : (placeWire bs s).tx = s.tx := rfl
@[simp] theorem placeWire_out (bs : List Byte) (s : State α) : (placeWire bs s).out = s.out := rfl
@[simp] theorem placeWire_pending (bs : List Byte) (s : State α) : (placeWire bs s).pending = s.pending := rfl
@[simp] theorem placeWire_transport (bs : List Byte) (s : State α) : (placeWire bs s).transport = s.transport := rfl
@[simp] theorem placeWire_inertialOut (bs : List Byte) (s : State α) : (placeWire bs s).inertialOut = s.inertialOut := rfl
@[simp] theorem placeWire_attitudeOut (bs : List Byte) (s : State α) : (placeWire bs s).attitudeOut = s.attitudeOut := rfl
@[simp] theorem placeWire_echoOut (bs : List Byte) (s : State α) : (placeWire bs s).echoOut = s.echoOut := rfl
@[simp] theorem placeWire_busFailing (bs : List Byte) (s : State α) : (placeWire bs s).busFailing = s.busFailing := rfl
@[simp] theorem placeWire_hostPhase (bs : List Byte) (s : State α) : (placeWire bs s).hostPhase = s.hostPhase := rfl
@[simp] theorem placeWire_agenda (bs : List Byte) (s : State α) : (placeWire bs s).agenda = .wire bs :: s.agenda := rfl
@[simp] theorem placeWire_inputs (bs : List Byte) (s : State α) : (placeWire bs s).inputs = none :: s.inputs := rfl

/-! ### stopHost -/

@[simp] theorem stopHost_cfg (s : State α) : (stopHost s).cfg = s.cfg := rfl
@[simp] theorem stopHost_chosenCfg (s : State α) : (stopHost s).chosenCfg = s.chosenCfg := rfl
@[simp] theorem stopHost_rxPhase (s : State α) : (stopHost s).rxPhase = s.rxPhase := rfl
@[simp] theorem stopHost_rxLen (s : State α) : (stopHost s).rxLen = s.rxLen := rfl
@[simp] theorem stopHost_rxOpc (s : State α) : (stopHost s).rxOpc = s.rxOpc := rfl
@[simp] theorem stopHost_rxIdx (s : State α) : (stopHost s).rxIdx = s.rxIdx := rfl
@[simp] theorem stopHost_rxChk (s : State α) : (stopHost s).rxChk = s.rxChk := rfl
@[simp] theorem stopHost_rxBuf (s : State α) : (stopHost s).rxBuf = s.rxBuf := rfl
@[simp] theorem stopHost_rxValid (s : State α) : (stopHost s).rxValid = s.rxValid := rfl
@[simp] theorem stopHost_halted (s : State α) : (stopHost s).halted = s.halted := rfl
@[simp] theorem stopHost_faultInfo (s : State α) : (stopHost s).faultInfo = s.faultInfo := rfl
@[simp] theorem stopHost_tx (s : State α) : (stopHost s).tx = s.tx := rfl
@[simp] theorem stopHost_out (s : State α) : (stopHost s).out = s.out := rfl
@[simp] theorem stopHost_pending (s : State α) : (stopHost s).pending = s.pending := rfl
@[simp] theorem stopHost_transport (s : State α) : (stopHost s).transport = s.transport := rfl
@[simp] theorem stopHost_inertialOut (s : State α) : (stopHost s).inertialOut = s.inertialOut := rfl
@[simp] theorem stopHost_attitudeOut (s : State α) : (stopHost s).attitudeOut = s.attitudeOut := rfl
@[simp] theorem stopHost_echoOut (s : State α) : (stopHost s).echoOut = s.echoOut := rfl
@[simp] theorem stopHost_busFailing (s : State α) : (stopHost s).busFailing = s.busFailing := rfl
@[simp] theorem stopHost_hostPhase (s : State α) : (stopHost s).hostPhase = .stopped := rfl
@[simp] theorem stopHost_agenda (s : State α) : (stopHost s).agenda = s.agenda.dropWhile fun m => !startsProcess m := rfl
@[simp] theorem stopHost_inputs (s : State α) : (stopHost s).inputs = s.inputs := rfl

/-! ### runWait -/

@[simp] theorem runWait_cfg (d : Delay) (s : State α) : (runWait d s).cfg = s.cfg := rfl
@[simp] theorem runWait_chosenCfg (d : Delay) (s : State α) : (runWait d s).chosenCfg = s.chosenCfg := rfl
@[simp] theorem runWait_rxPhase (d : Delay) (s : State α) : (runWait d s).rxPhase = s.rxPhase := rfl
@[simp] theorem runWait_rxLen (d : Delay) (s : State α) : (runWait d s).rxLen = s.rxLen := rfl
@[simp] theorem runWait_rxOpc (d : Delay) (s : State α) : (runWait d s).rxOpc = s.rxOpc := rfl
@[simp] theorem runWait_rxIdx (d : Delay) (s : State α) : (runWait d s).rxIdx = s.rxIdx := rfl
@[simp] theorem runWait_rxChk (d : Delay) (s : State α) : (runWait d s).rxChk = s.rxChk := rfl
@[simp] theorem runWait_rxBuf (d : Delay) (s : State α) : (runWait d s).rxBuf = s.rxBuf := rfl
@[simp] theorem runWait_rxValid (d : Delay) (s : State α) : (runWait d s).rxValid = s.rxValid := rfl
@[simp] theorem runWait_halted (d : Delay) (s : State α) : (runWait d s).halted = s.halted := rfl
@[simp] theorem runWait_faultInfo (d : Delay) (s : State α) : (runWait d s).faultInfo = s.faultInfo := rfl
@[simp] theorem runWait_tx (d : Delay) (s : State α) : (runWait d s).tx = s.tx := rfl
@[simp] theorem runWait_out (d : Delay) (s : State α) : (runWait d s).out = s.out := rfl
@[simp] theorem runWait_pending (d : Delay) (s : State α) : (runWait d s).pending = s.pending := rfl
@[simp] theorem runWait_transport (d : Delay) (s : State α) : (runWait d s).transport = s.transport := rfl
@[simp] theorem runWait_inertialOut (d : Delay) (s : State α) : (runWait d s).inertialOut = s.inertialOut := rfl
@[simp] theorem runWait_attitudeOut (d : Delay) (s : State α) : (runWait d s).attitudeOut = s.attitudeOut := rfl
@[simp] theorem runWait_echoOut (d : Delay) (s : State α) : (runWait d s).echoOut = s.echoOut := rfl
@[simp] theorem runWait_busFailing (d : Delay) (s : State α) : (runWait d s).busFailing = s.busFailing := rfl
@[simp] theorem runWait_hostPhase (d : Delay) (s : State α) : (runWait d s).hostPhase = delayDone d s.tx.length := rfl
@[simp] theorem runWait_agenda (d : Delay) (s : State α) : (runWait d s).agenda = s.agenda := rfl
@[simp] theorem runWait_inputs (d : Delay) (s : State α) : (runWait d s).inputs = s.inputs := rfl

end Sys2Proof.Machine
end

