-- ==== Sys2Proof/Laws/Ops.lean ====
section
/-! SUPPORT. One spec lemma per shared operation of Machine/Ops.lean: everything it can do. -/

namespace Sys2Proof.Machine

variable {α : Type}

/-- At the default number domain `perform` is `exec`, instruction by instruction. -/
@[simp] theorem perform_eq_exec (i : Instr) (s : State) : perform i s = exec i s := by
  cases i <;> rfl

@[simp] theorem thenDo_next (s : State α) (f : State α → Result α) : thenDo (.next s) f = f s := rfl

theorem thenDo_eq_next {o : Result α} {f : State α → Result α} {t : State α} :
    thenDo o f = .next t ↔ ∃ s, o = .next s ∧ f s = .next t := by
  cases o <;> simp [thenDo]

theorem answer_eq_next {p : Port α} {s t : State α} : answer p s = .next t ↔ t = { s with out := p } := by
  simp [answer, eq_comm]

/-! ### RX_BUF -/

@[simp] theorem Memory.read_nil (a : Nat) : Memory.read [] a = none := rfl

@[simp] theorem Memory.read_write_same (m : Memory) (a : Nat) (b : Byte) :
    Memory.read (Memory.write m a b) a = some b := by
  induction m with
  | nil => simp [Memory.write, Memory.read]
  | cons cell m ih =>
    obtain ⟨x, v⟩ := cell
    simp only [Memory.write]
    split
    · simp [Memory.read]
    · split
      · simp [Memory.read]
      · simp [Memory.read, *]

theorem Memory.read_write_other {m : Memory} {a k : Nat} {b : Byte} (h : k ≠ a) :
    Memory.read (Memory.write m a b) k = Memory.read m k := by
  induction m with
  | nil => simp [Memory.write, Memory.read, h]
  | cons cell m ih =>
    obtain ⟨x, v⟩ := cell
    simp only [Memory.write]
    split
    · simp [Memory.read, h]
    · split
      · simp_all [Memory.read]
      · simp [Memory.read, ih]

theorem Memory.risesFrom_write {m : Memory} {lo a : Nat} {b : Byte} (h : Memory.risesFrom lo m = true) (ha : lo ≤ a) :
    Memory.risesFrom lo (Memory.write m a b) = true := by
  induction m generalizing lo with
  | nil => simp [Memory.write, Memory.risesFrom, ha]
  | cons cell m ih =>
    obtain ⟨x, v⟩ := cell
    simp only [Memory.risesFrom, Bool.and_eq_true, decide_eq_true_eq] at h
    simp only [Memory.write]
    split
    · rename_i hlt
      simp [Memory.risesFrom, ha, h.2, Nat.succ_le_of_lt hlt]
    · split
      · rename_i heq
        subst heq
        simp [Memory.risesFrom, h]
      · simp only [Memory.risesFrom, h.1, decide_true, Bool.true_and]
        exact ih h.2 (by omega)

/-- A store keeps the canonical form. -/
theorem Memory.wf_write {m : Memory} {a : Nat} {b : Byte} (h : Memory.wf m = true) :
    Memory.wf (Memory.write m a b) = true :=
  Memory.risesFrom_write h (Nat.zero_le a)

theorem Memory.below_write {m : Memory} {n a : Nat} {b : Byte} (h : Memory.below n m = true) (ha : a < n) :
    Memory.below n (Memory.write m a b) = true := by
  induction m with
  | nil => simp [Memory.write, Memory.below, ha]
  | cons cell m ih =>
    obtain ⟨x, v⟩ := cell
    simp only [Memory.below, List.all_cons, Bool.and_eq_true, decide_eq_true_eq] at h ih
    simp only [Memory.write]
    split
    · simp [Memory.below, ha, h.1]
      simpa using h.2
    · split
      · simp [Memory.below, ha]
        simpa using h.2
      · simp only [Memory.below, List.all_cons, h.1, decide_true, Bool.true_and]
        exact ih h.2

theorem Memory.risesFrom_mono {m : Memory} {lo hi : Nat} (h : Memory.risesFrom hi m = true) (hle : lo ≤ hi) :
    Memory.risesFrom lo m = true := by
  cases m with
  | nil => rfl
  | cons cell m =>
    obtain ⟨x, v⟩ := cell
    simp only [Memory.risesFrom, Bool.and_eq_true, decide_eq_true_eq] at h ⊢
    exact ⟨by omega, h.2⟩

theorem Memory.risesFrom_keepBelow {m : Memory} {lo n : Nat} (h : Memory.risesFrom lo m = true) :
    Memory.risesFrom lo (Memory.keepBelow n m) = true := by
  induction m generalizing lo with
  | nil => rfl
  | cons cell m ih =>
    obtain ⟨x, v⟩ := cell
    simp only [Memory.risesFrom, Bool.and_eq_true, decide_eq_true_eq] at h
    have hm := ih h.2
    unfold Memory.keepBelow at hm ⊢
    rw [List.filter_cons]
    split
    · simp only [Memory.risesFrom, h.1, decide_true, Bool.true_and]
      exact hm
    · exact Memory.risesFrom_mono hm (by omega)

/-- RESET's restriction to the cells that exist keeps the canonical form. -/
theorem Memory.wf_keepBelow {m : Memory} {n : Nat} (h : Memory.wf m = true) :
    Memory.wf (Memory.keepBelow n m) = true :=
  Memory.risesFrom_keepBelow h

theorem Memory.below_keepBelow (n : Nat) (m : Memory) : Memory.below n (Memory.keepBelow n m) = true := by
  simp [Memory.below, Memory.keepBelow]

theorem Memory.keepBelow_eq_self {m : Memory} {n : Nat} (h : Memory.below n m = true) : Memory.keepBelow n m = m := by
  simpa [Memory.keepBelow, Memory.below, List.filter_eq_self] using h

theorem reset_rxBuf_wf : Memory.wf State.reset.rxBuf = true := rfl

theorem bufStore_eq_next {i : Nat} {b : Byte} {s t : State α} :
    bufStore i b s = .next t ↔ i < s.cfg.maxPayload ∧ t = { s with rxBuf := Memory.write s.rxBuf i b } := by
  unfold bufStore
  split <;> simp_all [eq_comm]

theorem withSlice_of_le {n : Nat} {s : State α} {f : List Byte → Result α} (h : n ≤ s.cfg.maxPayload) :
    withSlice n s f = f ((List.range n).map (bufByte s)) := if_pos h

theorem withSlice_of_lt {n : Nat} {s : State α} {f : List Byte → Result α} (h : s.cfg.maxPayload < n) :
    withSlice n s f = .fault (.rxBufOutside s.cfg.maxPayload) := if_neg (by omega)

/-! ### Refusal and the fault -/

theorem unlessHalted_of_running {s : State α} {body : State α → Result α} (h : s.halted = false) :
    unlessHalted s body = body s := by
  simp [unlessHalted, h]

theorem unlessHalted_of_halted {s : State α} {body : State α → Result α} (h : s.halted = true) :
    unlessHalted s body = .next { s with out := .refused .halted } := by
  simp [unlessHalted, h, answer]

theorem unlessHalted_eq_next {s t : State α} {body : State α → Result α} :
    unlessHalted s body = .next t ↔
      (s.halted = true ∧ t = { s with out := .refused .halted }) ∨ (s.halted = false ∧ body s = .next t) := by
  cases h : s.halted <;> simp [unlessHalted, h, answer, eq_comm]

theorem outsideEnvelope_eq_false {c : Config α} {v : Int} :
    outsideEnvelope c v = false ↔ c.envLo ≤ v ∧ v ≤ c.envHi := by
  simp [outsideEnvelope]

theorem outsideEnvelope_eq_true {c : Config α} {v : Int} :
    outsideEnvelope c v = true ↔ v < c.envLo ∨ c.envHi < v := by
  simp [outsideEnvelope]

theorem firstViolation_eq_none {c : Config α} {cmd : Lanes Int} :
    firstViolation c cmd = none ↔ ∀ k, outsideEnvelope c (cmd.get k) = false := by
  rw [Fin.forall_fin_succ, Fin.forall_fin_succ, Fin.forall_fin_two]
  simp only [firstViolation, Lanes.get]
  repeat' split
  all_goals simp_all

/-- The reported lane is the first offender, with its value. -/
theorem firstViolation_eq_some {c : Config α} {cmd : Lanes Int} {k : Fin 4} {v : Int} :
    firstViolation c cmd = some (k, v) ↔
      v = cmd.get k ∧ outsideEnvelope c (cmd.get k) = true ∧ ∀ j, j < k → outsideEnvelope c (cmd.get j) = false := by
  have hall : ∀ p : Fin 4 → Prop, (∀ j, p j) ↔ p 0 ∧ p 1 ∧ p 2 ∧ p 3 := by
    intro p
    constructor
    · intro h
      exact ⟨h 0, h 1, h 2, h 3⟩
    · rintro ⟨h0, h1, h2, h3⟩ j
      fin_cases j <;> assumption
  rw [hall]
  cases h0 : outsideEnvelope c cmd.l0 <;> cases h1 : outsideEnvelope c cmd.l1 <;>
    cases h2 : outsideEnvelope c cmd.l2 <;> cases h3 : outsideEnvelope c cmd.l3 <;>
    fin_cases k <;> simp [firstViolation, Lanes.get, h0, h1, h2, h3, eq_comm]

/-- Everything the fault's entry does. -/
theorem raiseEnvelope_eq_next {k : Fin 4} {c : Int} {s t : State α} :
    raiseEnvelope k c s = .next t ↔
      (s.cfg.faultMode = .halt ∧
        t = { s with
          halted := true
          faultInfo := if s.faultInfo.isSome then s.faultInfo else some (k, c)
          out := .fault (.envelopeViolation k c) }) ∨
      (s.cfg.faultMode = .skip ∧
        t = { s with faultInfo := some (k, c), out := .fault (.envelopeViolation k c) }) := by
  unfold raiseEnvelope
  cases h : s.cfg.faultMode <;> simp [answer_eq_next]

theorem checkEnvelope_of_inside {cmd : Lanes Int} {s : State α} {ok : State α → Result α}
    (h : firstViolation s.cfg cmd = none) : checkEnvelope cmd s ok = ok s := by
  simp [checkEnvelope, h]

theorem checkEnvelope_of_violation {cmd : Lanes Int} {s : State α} {ok : State α → Result α} {k : Fin 4} {c : Int}
    (h : firstViolation s.cfg cmd = some (k, c)) : checkEnvelope cmd s ok = raiseEnvelope k c s := by
  simp [checkEnvelope, h]

end Sys2Proof.Machine
end

