-- ==== Sys2Proof/Laws/Arith.lean ====
section
/-! SUPPORT. The small lemmas of Machine/Operands.lean, over every ordered field: the clamp, the amplitude and the rounding
in the library's terms, what a configuration of this hardware fixes, and that rational operands give the same results in
every number domain. -/

namespace Sys2Proof.Machine

/-! ### Configuration -/

section Configuration

variable {α : Type} [Field α] [LinearOrder α] {c : Config α}

/-- The constants of a configuration of this hardware (R7). -/
theorem constants_of_legal (h : c.legal = true) :
    c.inLo = -1 ∧ c.inHi = 1 ∧ c.combLimit = 2 ∧ c.maxVelocity = 50 ∧ c.neutral = 1500 ∧ c.envLo = 1400
      ∧ c.envHi = 1600 := by
  simp only [Config.legal, Bool.and_eq_true] at h
  simpa [Config.constantsLegal, and_assoc] using h.1.2

/-- The layout of a configuration of this hardware: entries ±1, orthogonal columns (R121). -/
theorem layout_of_legal (h : c.legal = true) :
    (∀ k, (c.layout.get k).isUnitRow = true) ∧ columnProduct c.layout Axes.fwd Axes.lat = 0 ∧
      columnProduct c.layout Axes.fwd Axes.rot = 0 ∧ columnProduct c.layout Axes.lat Axes.rot = 0 := by
  simp only [Config.legal, Bool.and_eq_true] at h
  have hl : Config.layoutLegal c = true := h.1.1
  simp only [Config.layoutLegal, Lanes.all, Bool.and_eq_true, beq_iff_eq] at hl
  obtain ⟨⟨⟨⟨⟨⟨h0, h1⟩, h2⟩, h3⟩, p⟩, q⟩, r⟩ := hl
  refine ⟨fun k => ?_, p, q, r⟩
  fin_cases k <;> assumption

/-- The wire parameters of a configuration of this hardware (R8). -/
theorem wire_of_legal (h : c.legal = true) :
    c.syncRx.s0 ≠ c.syncRx.s1 ∧ c.syncRx.s0 ≠ c.syncRx.s2 ∧ c.opcSetMotor ≠ c.opcQueryRawImu
      ∧ c.opcSetMotor ≠ c.opcQueryAttitude ∧ c.opcQueryRawImu ≠ c.opcQueryAttitude ∧ c.opcRawImu ≠ c.opcAttitude
      ∧ 12 ≤ c.maxPayload ∧ c.maxPayload ≤ 255 := by
  simp only [Config.legal, Bool.and_eq_true] at h
  simpa [Config.wireLegal, and_assoc] using h.2

end Configuration

/-! ### Lanes -/

theorem forall_lanes {p : Fin 4 → Prop} : (∀ k, p k) ↔ p 0 ∧ p 1 ∧ p 2 ∧ p 3 := by
  constructor
  · intro h
    exact ⟨h 0, h 1, h 2, h 3⟩
  · rintro ⟨h0, h1, h2, h3⟩ j
    fin_cases j <;> assumption

@[simp] theorem Lanes.get_map {α β : Type} (f : α → β) (v : Lanes α) (k : Fin 4) : (v.map f).get k = f (v.get k) := by
  fin_cases k <;> rfl

theorem Lanes.ext_get {α : Type} {v w : Lanes α} (h : ∀ k, v.get k = w.get k) : v = w := by
  cases v
  cases w
  simpa [Lanes.get] using forall_lanes.1 h

/-! ### Clamp and amplitude -/

theorem clampNum_eq_max_min {α : Type} [LinearOrder α] {x lo hi : α} (h : lo ≤ hi) : clampNum x lo hi = max lo (min x hi) := by
  unfold clampNum
  split
  · rename_i hx
    rw [min_eq_left (hx.le.trans h), max_eq_left hx.le]
  · split
    · rename_i h2
      rw [min_eq_right h2.le, max_eq_right h]
    · rename_i h1 h2
      rw [min_eq_left (not_lt.1 h2), max_eq_right (not_lt.1 h1)]

theorem clampInt_eq_max_min {x lo hi : ℤ} (h : lo ≤ hi) : clampInt x lo hi = max lo (min x hi) := by
  unfold clampInt
  split
  · omega
  · split <;> omega

theorem maxNum_eq_max {α : Type} [LinearOrder α] (x y : α) : maxNum x y = max x y := by
  unfold maxNum
  split
  · rename_i h
    rw [max_eq_right h.le]
  · rename_i h
    rw [max_eq_left (not_lt.1 h)]

variable {α : Type} [Field α] [LinearOrder α] [IsStrictOrderedRing α]

theorem absNum_eq_abs (x : α) : absNum x = |x| := by
  unfold absNum
  split
  · rename_i h
    rw [abs_of_neg h]
  · rename_i h
    rw [abs_of_nonneg (not_lt.1 h)]

theorem amplitude_eq_max (r : Lanes α) : amplitude r = max (max |r.l0| |r.l1|) (max |r.l2| |r.l3|) := by
  simp [amplitude, absNum_eq_abs, maxNum_eq_max]

/-- One raw wheel speed, under a configuration of this hardware. -/
theorem rawSpeeds_get {c : Config α} (h : c.legal = true) (vx vy vr : α) (k : Fin 4) :
    (rawSpeeds c vx vy vr).get k =
      (c.layout.get k).fwd * max (-1) (min vx 1) + (c.layout.get k).lat * max (-1) (min vy 1)
        + (c.layout.get k).rot * max (-1) (min vr 1) := by
  obtain ⟨h1, h2, -⟩ := constants_of_legal h
  have hle : (-1 : α) ≤ 1 := neg_le_self zero_le_one
  simp [rawSpeeds, clampInput, dotRow, h1, h2, clampNum_eq_max_min hle]

omit [IsStrictOrderedRing α] in
theorem scaledAmplitude_of_legal {c : Config α} (h : c.legal = true) (r : Lanes α) :
    scaledAmplitude c r = amplitude r / 2 := by
  simp [scaledAmplitude, (constants_of_legal h).2.2.1]

omit [IsStrictOrderedRing α] in
/-- One wheel speed of MIX, under a configuration of this hardware. -/
theorem mixLanes_get {c : Config α} (h : c.legal = true) (vx vy vr : α) (k : Fin 4) :
    (mixLanes c vx vy vr).get k =
      if 1 < amplitude (rawSpeeds c vx vy vr) / 2
      then (rawSpeeds c vx vy vr).get k / (amplitude (rawSpeeds c vx vy vr) / 2)
      else (rawSpeeds c vx vy vr).get k := by
  simp only [mixLanes, saturate, scaledAmplitude_of_legal h]
  split <;> simp

/-! ### Rounding -/

omit [IsStrictOrderedRing α] in
/-- `round` takes the floor or its successor, and which one only where it is a nearest integer. -/
theorem roundNum_eq_floor_or_succ [FloorRing α] (t : TieRule) (x : α) :
    (roundNum t x = ⌊x⌋ ∧ x - (⌊x⌋ : α) ≤ 1 / 2) ∨ (roundNum t x = ⌊x⌋ + 1 ∧ 1 / 2 ≤ x - (⌊x⌋ : α)) := by
  unfold roundNum
  simp only
  split
  · rename_i h
    exact .inl ⟨rfl, h.le⟩
  · rename_i h1
    split
    · rename_i h
      exact .inr ⟨rfl, h.le⟩
    · rename_i h2
      split
      · exact .inr ⟨rfl, not_lt.1 h1⟩
      · exact .inl ⟨rfl, not_lt.1 h2⟩

/-! ### Rational operands give the same results in every number domain (D1: "no operation leaves ℚ") -/

theorem isUnit_cast (x : ℚ) : isUnit (x : α) = isUnit x := by
  have h1 : (x : α) = 1 ↔ x = 1 := by exact_mod_cast (Rat.cast_inj (α := α) (p := x) (q := 1))
  have h2 : (x : α) = -1 ↔ x = -1 := by exact_mod_cast (Rat.cast_inj (α := α) (p := x) (q := -1))
  rw [Bool.eq_iff_iff]
  simp [isUnit, h1, h2]

theorem columnProduct_cast (m : Lanes (Axes ℚ)) (p q : Axes α → α) (p' q' : Axes ℚ → ℚ)
    (hp : ∀ r : Axes ℚ, p (r.map fun x : ℚ => (x : α)) = (p' r : α))
    (hq : ∀ r : Axes ℚ, q (r.map fun x : ℚ => (x : α)) = (q' r : α)) :
    columnProduct (m.map fun r => r.map fun x : ℚ => (x : α)) p q = ((columnProduct m p' q' : ℚ) : α) := by
  simp [columnProduct, Lanes.map, hp, hq]

/-- A configuration is one of this hardware in every number domain, or in none. -/
theorem legal_inDomain (c : Config) : (c.inDomain α).legal = c.legal := by
  have zero : ∀ x : ℚ, ((x : α) == 0) = (x == 0) := fun x => by
    rw [Bool.eq_iff_iff]
    simp
  have lo : ((c.inLo : α) == -1) = (c.inLo == -1) := by
    have h : (c.inLo : α) = -1 ↔ c.inLo = -1 := by exact_mod_cast (Rat.cast_inj (α := α) (p := c.inLo) (q := -1))
    rw [Bool.eq_iff_iff]
    simp [h]
  have hi : ((c.inHi : α) == 1) = (c.inHi == 1) := by
    have h : (c.inHi : α) = 1 ↔ c.inHi = 1 := by exact_mod_cast (Rat.cast_inj (α := α) (p := c.inHi) (q := 1))
    rw [Bool.eq_iff_iff]
    simp [h]
  have h1 := columnProduct_cast (α := α) c.layout Axes.fwd Axes.lat Axes.fwd Axes.lat (fun _ => rfl) fun _ => rfl
  have h2 := columnProduct_cast (α := α) c.layout Axes.fwd Axes.rot Axes.fwd Axes.rot (fun _ => rfl) fun _ => rfl
  have h3 := columnProduct_cast (α := α) c.layout Axes.lat Axes.rot Axes.lat Axes.rot (fun _ => rfl) fun _ => rfl
  simp only [Config.legal, Config.layoutLegal, Config.constantsLegal, Config.wireLegal, Config.inDomain, h1, h2, h3, zero,
    lo, hi]
  simp only [Lanes.all, Lanes.map, Axes.isUnitRow, Axes.map, isUnit_cast]
  rfl

theorem clampNum_cast (x lo hi : ℚ) : clampNum (x : α) (lo : α) (hi : α) = ((clampNum x lo hi : ℚ) : α) := by
  simp only [clampNum, Rat.cast_lt]
  split
  · rfl
  · split <;> rfl

theorem amplitude_cast (r : Lanes ℚ) : amplitude (r.map fun x : ℚ => (x : α)) = ((amplitude r : ℚ) : α) := by
  simp [amplitude_eq_max, Lanes.map]

theorem rawSpeeds_cast (c : Config) (vx vy vr : ℚ) :
    rawSpeeds (c.inDomain α) (vx : α) (vy : α) (vr : α) = (rawSpeeds c vx vy vr).map fun x : ℚ => (x : α) := by
  simp [rawSpeeds, Lanes.map, clampInput, Config.inDomain, clampNum_cast, dotRow, Axes.map]

/-- MIX of rational operands is the same in every ordered field. -/
theorem mixLanes_cast (c : Config) (vx vy vr : ℚ) :
    mixLanes (c.inDomain α) (vx : α) (vy : α) (vr : α) = (mixLanes c vx vy vr).map fun x : ℚ => (x : α) := by
  have hs : scaledAmplitude (c.inDomain α) ((rawSpeeds c vx vy vr).map fun x : ℚ => (x : α))
      = ((scaledAmplitude c (rawSpeeds c vx vy vr) : ℚ) : α) := by
    simp [scaledAmplitude, amplitude_cast, Config.inDomain]
  have h1 : (1 : α) < ((scaledAmplitude c (rawSpeeds c vx vy vr) : ℚ) : α)
      ↔ 1 < scaledAmplitude c (rawSpeeds c vx vy vr) := by exact_mod_cast Iff.rfl
  simp only [mixLanes, saturate, rawSpeeds_cast, hs, h1]
  split
  · simp [Lanes.map]
  · rfl

theorem roundNum_cast [FloorRing α] (t : TieRule) (x : ℚ) : roundNum t (x : α) = roundNum t x := by
  have hf : ⌊(x : α)⌋ = ⌊x⌋ := by
    rw [Int.floor_eq_iff]
    exact ⟨by exact_mod_cast Int.floor_le x, by exact_mod_cast Int.lt_floor_add_one x⟩
  have hd : (x : α) - ((⌊x⌋ : ℤ) : α) = ((x - ((⌊x⌋ : ℤ) : ℚ) : ℚ) : α) := by push_cast; rfl
  have hh : (1 / 2 : α) = ((1 / 2 : ℚ) : α) := by simp
  simp only [roundNum, hf, hd, hh, Rat.cast_lt]

/-- ENCODE of rational operands is the same in every number domain. -/
theorem encodeLanes_cast [FloorRing α] (c : Config) (w : Lanes ℚ) :
    encodeLanes (c.inDomain α) (w.map fun x : ℚ => (x : α)) = encodeLanes c w := by
  have h : ∀ x : ℚ, encodeLane (c.inDomain α) (x : α) = encodeLane c x := by
    intro x
    have ha : affine (c.inDomain α) (x : α) = ((affine c x : ℚ) : α) := by simp [affine, Config.inDomain]
    simp only [encodeLane, ha, roundNum_cast]
    rfl
  simp [encodeLanes, Lanes.map, h]

end Sys2Proof.Machine
end

