-- ==== Sys2Proof/Laws/Parser.lean ====
section
/-! SUPPORT. The parser: one lemma per row of its transition table (43_parser.md R192), everything one FEED can do, and
feeding a sequence. -/

namespace Sys2Proof.Machine

variable {α : Type}

theorem isHit_iff {s : State α} {n : InboundName} :
    isHit s n = true ↔ s.rxValid = true ∧ s.rxOpc = typedOpc s.cfg n ∧ s.rxLen = typedLen n := by
  simp only [isHit, Bool.and_eq_true, decide_eq_true_eq, and_assoc]

theorem bufByte_write (s : State α) (i k : Nat) (b : Byte) :
    bufByte { s with rxBuf := Memory.write s.rxBuf i b } k = if k = i then b else bufByte s k := by
  unfold bufByte
  split
  · rename_i h
    subst h
    simp
  · rename_i h
    simp only [Memory.read_write_other h]

theorem Memory.read_keepBelow {m : Memory} {n i : Nat} (h : i < n) :
    Memory.read (Memory.keepBelow n m) i = Memory.read m i := by
  induction m with
  | nil => rfl
  | cons cell m ih =>
    obtain ⟨x, v⟩ := cell
    unfold Memory.keepBelow at ih ⊢
    rw [List.filter_cons]
    split
    · simp only [Memory.read, ih]
    · rename_i hx
      have hne : i ≠ x := by
        rintro rfl
        simp [h] at hx
      simp only [Memory.read, hne, if_false, ih]

/-! ### The rows of the transition table -/

theorem feedByte_sync0 {s : State α} {b : Byte} (hp : s.rxPhase = .sync0) :
    feedByte b s = .next { s with
      rxValid := false, out := .done false
      rxPhase := if b = s.cfg.syncRx.s0 then .sync1 else .sync0 } := by
  simp [feedByte, hp, feedSync0, notDone, answer, clearValid]

theorem feedByte_sync1 {s : State α} {b : Byte} (hp : s.rxPhase = .sync1) :
    feedByte b s = .next { s with
      rxValid := false, out := .done false
      rxPhase := if b = s.cfg.syncRx.s1 then .sync2 else if b = s.cfg.syncRx.s0 then .sync1 else .sync0 } := by
  simp [feedByte, hp, feedSync1, notDone, answer, clearValid]

theorem feedByte_sync2 {s : State α} {b : Byte} (hp : s.rxPhase = .sync2) :
    feedByte b s = .next { s with
      rxValid := false, out := .done false
      rxPhase := if b = s.cfg.syncRx.s2 then .len else if b = s.cfg.syncRx.s0 then .sync1 else .sync0 } := by
  simp [feedByte, hp, feedSync2, notDone, answer, clearValid]

theorem feedByte_len_ok {s : State α} {b : Byte} (hp : s.rxPhase = .len) (hb : b.toNat ≤ s.cfg.maxPayload) :
    feedByte b s = .next { s with
      rxValid := false, out := .done false, rxPhase := .opc, rxLen := b.toNat, rxIdx := 0, rxChk := b } := by
  simp [feedByte, hp, feedLen, Nat.not_lt.2 hb, notDone, answer, clearValid]

theorem feedByte_len_drop {s : State α} {b : Byte} (hp : s.rxPhase = .len) (hb : s.cfg.maxPayload < b.toNat) :
    feedByte b s = .next { s with
      rxValid := false, out := .done false, rxPhase := .sync0, rxIdx := 0, rxChk := 0 } := by
  simp [feedByte, hp, feedLen, hb, dropFrame, notDone, answer, clearValid, cursorReset]

theorem feedByte_opc {s : State α} {b : Byte} (hp : s.rxPhase = .opc) :
    feedByte b s = .next { s with
      rxValid := false, out := .done false, rxOpc := b, rxChk := s.rxChk ^^^ b
      rxPhase := if s.rxLen = 0 then .chk else .payload } := by
  simp [feedByte, hp, feedOpc, notDone, answer, clearValid]

theorem feedByte_payload {s : State α} {b : Byte} (hp : s.rxPhase = .payload) (hi : s.rxIdx < s.cfg.maxPayload) :
    feedByte b s = .next { s with
      rxValid := false, out := .done false, rxBuf := Memory.write s.rxBuf s.rxIdx b, rxChk := s.rxChk ^^^ b
      rxIdx := s.rxIdx + 1, rxPhase := if s.rxIdx + 1 = s.rxLen then .chk else .payload } := by
  simp [feedByte, hp, feedPayload, bufStore, hi, notDone, answer, clearValid]

theorem feedByte_payload_outside {s : State α} {b : Byte} (hp : s.rxPhase = .payload) (hi : s.cfg.maxPayload ≤ s.rxIdx) :
    feedByte b s = .fault (.rxBufOutside s.rxIdx) := by
  simp [feedByte, hp, feedPayload, bufStore, Nat.not_lt.2 hi, thenDo, clearValid]

theorem feedByte_chk {s : State α} {b : Byte} (hp : s.rxPhase = .chk) :
    feedByte b s = .next { s with
      rxValid := decide (b = s.rxChk), out := .done (decide (b = s.rxChk))
      rxPhase := .sync0, rxIdx := 0, rxChk := 0 } := by
  simp only [feedByte, hp, feedChk, clearValid]
  split <;> rename_i h <;> simp [h, frameComplete, dropFrame, notDone, answer, cursorReset]

/-! ### Everything one FEED can do -/

/-- The fields of the receiver and the result port are taken from `t`, all the others from `s`. -/
def withReceiverOf (t s : State α) : State α :=
  { s with
    rxPhase := t.rxPhase, rxLen := t.rxLen, rxOpc := t.rxOpc, rxIdx := t.rxIdx, rxChk := t.rxChk
    rxBuf := t.rxBuf, rxValid := t.rxValid, out := t.out }

/-- A FEED that answers touches only the receiver, stores at most one byte, at RX_IDX, and returns the new RX_VALID. -/
theorem feedByte_effect {s t : State α} {b : Byte} (h : feedByte b s = .next t) :
    t = withReceiverOf t s ∧ t.out = .done t.rxValid ∧
      (t.rxBuf = s.rxBuf ∨ t.rxBuf = Memory.write s.rxBuf s.rxIdx b ∧ s.rxIdx < s.cfg.maxPayload) := by
  cases hp : s.rxPhase with
  | sync0 => rw [feedByte_sync0 hp] at h; cases h; exact ⟨rfl, rfl, .inl rfl⟩
  | sync1 => rw [feedByte_sync1 hp] at h; cases h; exact ⟨rfl, rfl, .inl rfl⟩
  | sync2 => rw [feedByte_sync2 hp] at h; cases h; exact ⟨rfl, rfl, .inl rfl⟩
  | len =>
    rcases Nat.lt_or_ge s.cfg.maxPayload b.toNat with hb | hb
    · rw [feedByte_len_drop hp hb] at h; cases h; exact ⟨rfl, rfl, .inl rfl⟩
    · rw [feedByte_len_ok hp hb] at h; cases h; exact ⟨rfl, rfl, .inl rfl⟩
  | opc => rw [feedByte_opc hp] at h; cases h; exact ⟨rfl, rfl, .inl rfl⟩
  | payload =>
    rcases Nat.lt_or_ge s.rxIdx s.cfg.maxPayload with hi | hi
    · rw [feedByte_payload hp hi] at h; cases h; exact ⟨rfl, rfl, .inr ⟨rfl, hi⟩⟩
    · rw [feedByte_payload_outside hp hi] at h; cases h
  | chk => rw [feedByte_chk hp] at h; cases h; exact ⟨rfl, rfl, .inl rfl⟩

/-- Feeding a sequence touches only the receiver. -/
theorem feedAll_effect {bs : List Byte} {s t : State α} (h : feedAll bs s = .next t) : t = withReceiverOf t s := by
  induction bs generalizing s with
  | nil => cases h; rfl
  | cons b bs ih =>
    obtain ⟨u, hu, ht⟩ := thenDo_eq_next.1 h
    have h1 := (feedByte_effect hu).1
    have h2 := ih ht
    rw [h1] at h2
    exact h2

/-! ### FEEDS operation by operation -/

theorem exec_feed {s : State} (h : s.halted = false) (b : Byte) : exec (.feed b) s = feedByte b s := by
  simp [exec, execFeed, unlessHalted_of_running h]

theorem feedRun_cons {b : Byte} {bs : List Byte} {s t : State} {d : Bool} (h : exec (.feed b) s = .next t)
    (ho : t.out = .done d) : feedRun (b :: bs) s = (feedRun bs t).map fun r => (d :: r.1, r.2) := by
  simp only [feedRun, h, ho]
  cases feedRun bs t with
  | none => rfl
  | some r => rfl

theorem feedRun_append {as bs : List Byte} {s t : State} {ds : List Bool} (h : feedRun as s = some (ds, t)) :
    feedRun (as ++ bs) s = (feedRun bs t).map fun r => (ds ++ r.1, r.2) := by
  induction as generalizing s ds with
  | nil =>
    simp only [feedRun, Option.some.injEq, Prod.mk.injEq] at h
    obtain ⟨rfl, rfl⟩ := h
    simp
  | cons a as ih =>
    simp only [List.cons_append, feedRun] at h ⊢
    split at h
    · rename_i u hu
      split at h
      · split at h
        · rename_i ds' u' hr
          simp only [Option.some.injEq, Prod.mk.injEq] at h
          obtain ⟨rfl, rfl⟩ := h
          rw [ih hr]
          cases feedRun bs u' <;> rfl
        · simp at h
      · simp at h
    · simp at h

end Sys2Proof.Machine
end

