-- ==== Sys2Proof/Laws/Wire.lean ====
section
/-! SUPPORT. The small lemmas of Decode.lean: fields, checksum, frames. -/

namespace Sys2Proof

/-! ### 16-bit fields -/

theorem le16_lo8_hi8 {v : Int} (h0 : 0 ≤ v) (h1 : v < 65536) : le16 (lo8 v) (hi8 v) = v := by
  simp only [le16, lo8, hi8, BitVec.toNat_ofInt]
  omega

theorem lo8_le16 (a b : Byte) : lo8 (le16 a b) = a := by
  apply BitVec.eq_of_toNat_eq
  have ha := a.isLt
  simp only [le16, lo8, BitVec.toNat_ofInt]
  omega

theorem hi8_le16 (a b : Byte) : hi8 (le16 a b) = b := by
  apply BitVec.eq_of_toNat_eq
  have ha := a.isLt
  have hb := b.isLt
  simp only [le16, hi8, BitVec.toNat_ofInt]
  omega

theorem le16_range (a b : Byte) : 0 ≤ le16 a b ∧ le16 a b < 65536 := by
  have ha := a.isLt
  have hb := b.isLt
  simp only [le16]
  omega

theorem sext16_encI16 {v : Int} (h : isI16 v = true) : sext16 (encI16 v) = v := by
  simp only [isI16, Bool.and_eq_true, decide_eq_true_eq] at h
  unfold sext16 encI16
  by_cases hc : v % 65536 < 32768
  · rw [if_pos hc]
    omega
  · rw [if_neg hc]
    omega

theorem encI16_sext16 {u : Int} (h0 : 0 ≤ u) (h1 : u < 65536) : encI16 (sext16 u) = u := by
  unfold sext16 encI16
  split <;> omega

theorem encI16_range (v : Int) : 0 ≤ encI16 v ∧ encI16 v < 65536 := by
  simp only [encI16]
  omega

theorem isI16_sext16 {u : Int} (h0 : 0 ≤ u) (h1 : u < 65536) : isI16 (sext16 u) = true := by
  rw [isI16, Bool.and_eq_true, decide_eq_true_eq, decide_eq_true_eq]
  unfold sext16
  split <;> omega

/-! ### Payloads -/

@[simp] theorem u16Bytes_length (v : Int) : (u16Bytes v).length = 2 := rfl
@[simp] theorem i16Bytes_length (v : Int) : (i16Bytes v).length = 2 := rfl
@[simp] theorem encMotor_length (cmd : Lanes Int) : (encMotor cmd).length = 8 := rfl
@[simp] theorem encImu_length (r : RawInertialSample) : (encImu r).length = 12 := rfl
@[simp] theorem encAtt_length (a : AttitudeSample) : (encAtt a).length = 6 := rfl

/-! ### Checksum and frames -/

theorem xorAll_foldl (bs : List Byte) (a : Byte) :
    bs.foldl (fun acc b => acc ^^^ b) a = a ^^^ xorAll bs := by
  induction bs generalizing a with
  | nil => simp [xorAll]
  | cons b bs ih =>
    rw [xorAll, List.foldl_cons, List.foldl_cons, ih, ih (0 ^^^ b)]
    simp [BitVec.xor_assoc]

@[simp] theorem xorAll_nil : xorAll [] = 0 := rfl

theorem xorAll_cons (b : Byte) (bs : List Byte) : xorAll (b :: bs) = b ^^^ xorAll bs := by
  rw [xorAll, List.foldl_cons, xorAll_foldl]
  simp

theorem xorAll_append (as bs : List Byte) : xorAll (as ++ bs) = xorAll as ^^^ xorAll bs := by
  rw [xorAll, List.foldl_append, xorAll_foldl]
  rfl

theorem checksum_eq (len opc : Byte) (p : List Byte) : checksum len opc p = len ^^^ opc ^^^ xorAll p := by
  simp [checksum, xorAll_cons, BitVec.xor_assoc]

/-- A frame, byte by byte (R81). -/
theorem frameBytes_eq (y : Sync) (opc : Byte) (p : List Byte) :
    frameBytes y opc p = y.s0 :: y.s1 :: y.s2 :: lenByte p :: opc :: (p ++ [checksum (lenByte p) opc p]) := by
  simp [frameBytes, Sync.bytes]

/-- "Total length n + 6 bytes" (R81). -/
theorem frameBytes_length (y : Sync) (opc : Byte) (p : List Byte) : (frameBytes y opc p).length = p.length + 6 := by
  simp [frameBytes_eq]

theorem lenByte_toNat {p : List Byte} (h : p.length < 256) : (lenByte p).toNat = p.length := by
  simp [lenByte, BitVec.toNat_ofNat, Nat.mod_eq_of_lt h]

end Sys2Proof
end

