-- ==== Sys2Proof/Laws/Exec.lean ====
section
/-! SUPPORT. Everything an instruction can do, and everything a step can do: the inversion lemmas that later proofs cite
instead of unfolding `exec` and `step`. -/

namespace Sys2Proof.Machine

/-- What an instruction that answers has done. -/
inductive Effect (i : Instr) (s : State) : State → Prop where
  /-- RESET -/
  | reset (h : i = .reset) : Effect i s { resetBlock s with out := .completed }
  /-- only the result port changed -/
  | port (p : Port) : Effect i s { s with out := p }
  /-- one frame was appended to TX -/
  | sent (f : OutFrame) (hs : f.safe s.cfg) (hr : s.halted = false) :
      Effect i s { s with tx := s.tx ++ f.bytes s.cfg, out := .completed }
  /-- the fault was taken in `halt` mode -/
  | halted (k : Fin 4) (v : Int) (hr : s.halted = false) (hm : s.cfg.faultMode = .halt)
      (hv : (∃ cmd, (i = .txSetMotor cmd ∨ i = .setMotor cmd) ∧ firstViolation s.cfg cmd = some (k, v)) ∨
        ∃ w, i = .encode w ∧ firstViolation s.cfg (encodeLanes s.cfg w) = some (k, v)) :
      Effect i s { s with
        halted := true
        faultInfo := if s.faultInfo.isSome then s.faultInfo else some (k, v)
        out := .fault (.envelopeViolation k v) }
  /-- the fault was taken in `skip` mode -/
  | skipped (k : Fin 4) (v : Int) (hr : s.halted = false) (hm : s.cfg.faultMode = .skip) :
      Effect i s { s with faultInfo := some (k, v), out := .fault (.envelopeViolation k v) }
  /-- bytes were fed -/
  | fed (bs : List Byte) (t : State) (hr : s.halted = false) (h : feedAll bs s = .next t) : Effect i s t

theorem inside_of_none {c : Config} {cmd : Lanes Int} (h : firstViolation c cmd = none) :
    (OutFrame.motor cmd).safe c :=
  fun k => outsideEnvelope_eq_false.1 (firstViolation_eq_none.1 h k)

theorem withSlice_eq_next {n : Nat} {s t : State} {f : List Byte → Result} :
    withSlice n s f = .next t ↔ n ≤ s.cfg.maxPayload ∧ f ((List.range n).map (bufByte s)) = .next t := by
  unfold withSlice
  split <;> simp_all

theorem sendMotor_effect {i : Instr} {cmd : Lanes Int} {s t : State} (hi : i = .txSetMotor cmd ∨ i = .setMotor cmd)
    (h : sendMotor cmd s = .next t) : Effect i s t := by
  rcases unlessHalted_eq_next.1 h with ⟨-, rfl⟩ | ⟨hr, h⟩
  · exact .port _
  · cases hv : firstViolation s.cfg cmd with
    | none =>
      rw [checkEnvelope_of_inside hv] at h
      cases h
      exact .sent (.motor cmd) (inside_of_none hv) hr
    | some kv =>
      obtain ⟨k, v⟩ := kv
      rw [checkEnvelope_of_violation hv] at h
      rcases raiseEnvelope_eq_next.1 h with ⟨hm, rfl⟩ | ⟨hm, rfl⟩
      · exact .halted k v hr hm (.inl ⟨cmd, hi, hv⟩)
      · exact .skipped k v hr hm

theorem encode_effect {w : Lanes Num} {s t : State} (h : execEncode w s = .next t) : Effect (.encode w) s t := by
  rcases unlessHalted_eq_next.1 h with ⟨-, rfl⟩ | ⟨hr, h⟩
  · exact .port _
  · cases hv : firstViolation s.cfg (encodeLanes s.cfg w) with
    | none =>
      rw [checkEnvelope_of_inside hv] at h
      cases h
      exact .port _
    | some kv =>
      obtain ⟨k, v⟩ := kv
      rw [checkEnvelope_of_violation hv] at h
      rcases raiseEnvelope_eq_next.1 h with ⟨hm, rfl⟩ | ⟨hm, rfl⟩
      · exact .halted k v hr hm (.inr ⟨w, rfl, hv⟩)
      · exact .skipped k v hr hm

theorem receiveFrame_effect {i : Instr} {opc : Byte} {p : List Byte} {s t : State}
    (h : receiveFrame opc p s = .next t) : Effect i s t := by
  rcases unlessHalted_eq_next.1 h with ⟨-, rfl⟩ | ⟨hr, h⟩
  · exact .port _
  · exact .fed _ t hr h

theorem exec_effect {i : Instr} {s t : State} (h : exec i s = .next t) : Effect i s t := by
  cases i with
  | setMotor cmd => exact sendMotor_effect (.inr rfl) h
  | txSetMotor cmd => exact sendMotor_effect (.inl rfl) h
  | queryRawImu =>
    rcases unlessHalted_eq_next.1 h with ⟨-, rfl⟩ | ⟨hr, h⟩
    · exact .port _
    · cases h
      exact .sent .queryRawImu trivial hr
  | txQueryRawImu =>
    rcases unlessHalted_eq_next.1 h with ⟨-, rfl⟩ | ⟨hr, h⟩
    · exact .port _
    · cases h
      exact .sent .queryRawImu trivial hr
  | queryAttitude =>
    rcases unlessHalted_eq_next.1 h with ⟨-, rfl⟩ | ⟨hr, h⟩
    · exact .port _
    · cases h
      exact .sent .queryAttitude trivial hr
  | txQueryAttitude =>
    rcases unlessHalted_eq_next.1 h with ⟨-, rfl⟩ | ⟨hr, h⟩
    · exact .port _
    · cases h
      exact .sent .queryAttitude trivial hr
  | rawImu r => exact receiveFrame_effect h
  | attitude a => exact receiveFrame_effect h
  | otherFrame opc p => exact receiveFrame_effect h
  | mix vx vy vr =>
    rcases unlessHalted_eq_next.1 h with ⟨-, rfl⟩ | ⟨-, h⟩
    · exact .port _
    · cases h
      exact .port _
  | encode w => exact encode_effect h
  | feed b =>
    rcases unlessHalted_eq_next.1 h with ⟨-, rfl⟩ | ⟨hr, h⟩
    · exact .port _
    · exact .fed [b] t hr (by simpa [feedAll, thenDo_eq_next] using h)
  | matchFrame n =>
    rcases unlessHalted_eq_next.1 h with ⟨-, rfl⟩ | ⟨-, h⟩
    · exact .port _
    · cases h
      exact .port _
  | getRawImu =>
    simp only [exec, execGetRawImu] at h
    rcases unlessHalted_eq_next.1 h with ⟨-, rfl⟩ | ⟨-, h⟩
    · exact .port _
    · split at h
      · obtain ⟨-, h⟩ := withSlice_eq_next.1 h
        cases h
        exact .port _
      · cases h
        exact .port _
  | getAttitude =>
    simp only [exec, execGetAttitude] at h
    rcases unlessHalted_eq_next.1 h with ⟨-, rfl⟩ | ⟨-, h⟩
    · exact .port _
    · split at h
      · obtain ⟨-, h⟩ := withSlice_eq_next.1 h
        cases h
        exact .port _
      · cases h
        exact .port _
  | getFrame =>
    simp only [exec, execGetFrame] at h
    rcases unlessHalted_eq_next.1 h with ⟨-, rfl⟩ | ⟨-, h⟩
    · exact .port _
    · split at h
      · obtain ⟨-, h⟩ := withSlice_eq_next.1 h
        cases h
        exact .port _
      · cases h
        exact .port _
  | reset =>
    cases h
    exact .reset rfl

/-! ### The step -/

/-- The state of the block itself, its result port apart: what the host cannot write. -/
structure SameBlock (s t : State) : Prop where
  cfg : t.cfg = s.cfg
  rxPhase : t.rxPhase = s.rxPhase
  rxLen : t.rxLen = s.rxLen
  rxOpc : t.rxOpc = s.rxOpc
  rxIdx : t.rxIdx = s.rxIdx
  rxChk : t.rxChk = s.rxChk
  rxBuf : t.rxBuf = s.rxBuf
  rxValid : t.rxValid = s.rxValid
  halted : t.halted = s.halted
  faultInfo : t.faultInfo = s.faultInfo
  tx : t.tx = s.tx

theorem SameBlock.refl (s : State) : SameBlock s s := ⟨rfl, rfl, rfl, rfl, rfl, rfl, rfl, rfl, rfl, rfl, rfl⟩

theorem SameBlock.trans {s t u : State} (h : SameBlock s t) (g : SameBlock t u) : SameBlock s u :=
  ⟨g.cfg.trans h.cfg, g.rxPhase.trans h.rxPhase, g.rxLen.trans h.rxLen, g.rxOpc.trans h.rxOpc, g.rxIdx.trans h.rxIdx,
    g.rxChk.trans h.rxChk, g.rxBuf.trans h.rxBuf, g.rxValid.trans h.rxValid, g.halted.trans h.halted,
    g.faultInfo.trans h.faultInfo, g.tx.trans h.tx⟩

/-- Which instruction a move invokes. -/
def Invokes (m : Move) (s : State) (i : Instr) : Prop :=
  match m with
  | .op j => i = j
  | .wire bs => ∃ rest, decode s.cfg bs = .ok (i, rest)
  | .sendVelocity v => i = .mix v.vx v.vy v.vr
  | .sendNeutral => i = .mix 0 0 0
  | .feeds bs => ∃ b rest, bs = b :: rest ∧ i = .feed b
  | .encodeResult => ∃ w, s.out = .wheels w ∧ i = .encode w
  | .txResult => ∃ c, s.out = .motor c ∧ i = .txSetMotor c
  | .drain => ∃ b rest, s.transport = b :: rest ∧ i = .feed b
  | _ => False

/-- What a step does: it invokes an instruction in a state that differs only on the host's side, or it touches the host's
side alone. -/
theorem runMove_effect {m : Move} {s : State} {o : Result} (h : runMove m s = o) :
    (∃ i s', Invokes m s i ∧ SameBlock s s' ∧ s'.chosenCfg = s.chosenCfg ∧ exec i s' = o) ∨
    (∃ t, o = .next t ∧ SameBlock s t ∧ t.chosenCfg = s.chosenCfg) := by
  have same : ∀ ms, SameBlock s (push ms s) := fun ms => by constructor <;> rfl
  cases m with
  | op i => exact .inl ⟨i, s, rfl, (by constructor <;> rfl), rfl, (perform_eq_exec i s).symm.trans h⟩
  | wire bs =>
    simp only [runMove, runWire, perform_eq_exec] at h
    split at h
    · rename_i i hd
      exact .inl ⟨i, s, ⟨_, hd⟩, (by constructor <;> rfl), rfl, h⟩
    · rename_i i b rest hd
      exact .inl ⟨i, _, ⟨_, hd⟩, same _, rfl, h⟩
    · exact .inr ⟨_, h.symm, same _, rfl⟩
  | sendVelocity v => exact .inl ⟨_, _, rfl, same _, rfl, h⟩
  | sendNeutral => exact .inl ⟨_, _, rfl, same _, rfl, h⟩
  | poll => exact .inr ⟨_, h.symm, same _, rfl⟩
  | feeds bs =>
    match bs, h with
    | [], h => exact .inr ⟨_, h.symm, (by constructor <;> rfl), rfl⟩
    | [b], h => exact .inl ⟨_, _, ⟨b, [], rfl, rfl⟩, (by constructor <;> rfl), rfl, h⟩
    | b :: c :: rest, h => exact .inl ⟨_, _, ⟨b, c :: rest, rfl, rfl⟩, same _, rfl, h⟩
  | dispatch => exact .inr ⟨_, h.symm, same _, rfl⟩
  | encodeResult =>
    simp only [runMove, runEncodeResult, perform_eq_exec] at h
    split at h
    · rename_i w hw
      exact .inl ⟨_, s, ⟨w, hw, rfl⟩, (by constructor <;> rfl), rfl, h⟩
    · exact .inr ⟨_, h.symm, (by constructor <;> rfl), rfl⟩
  | txResult =>
    simp only [runMove, runTxResult, perform_eq_exec] at h
    split at h
    · rename_i c hc
      exact .inl ⟨_, s, ⟨c, hc, rfl⟩, (by constructor <;> rfl), rfl, h⟩
    · exact .inr ⟨_, h.symm, (by constructor <;> rfl), rfl⟩
  | publish =>
    simp only [runMove, runPublish, publishWith] at h
    split at h
    · split at h <;> exact .inr ⟨_, h.symm, (by constructor <;> rfl), rfl⟩
    · split at h <;> exact .inr ⟨_, h.symm, (by constructor <;> rfl), rfl⟩
    · exact .inr ⟨_, h.symm, (by constructor <;> rfl), rfl⟩
  | echo v =>
    simp only [runMove, runEcho, publishEcho, publishWith] at h
    split at h
    · split at h <;> exact .inr ⟨_, h.symm, (by constructor <;> rfl), rfl⟩
    · split at h
      · exact .inr ⟨_, h.symm, (by constructor <;> rfl), rfl⟩
      · split at h
        · split at h <;> exact .inr ⟨_, h.symm, (by constructor <;> rfl), rfl⟩
        · exact .inr ⟨_, h.symm, (by constructor <;> rfl), rfl⟩
    · exact .inr ⟨_, h.symm, (by constructor <;> rfl), rfl⟩
  | drain =>
    simp only [runMove, runDrain, perform_eq_exec] at h
    split at h
    · exact .inr ⟨_, h.symm, (by constructor <;> rfl), rfl⟩
    · split at h
      · exact .inr ⟨_, h.symm, (by constructor <;> rfl), rfl⟩
      · rename_i b rest ht
        exact .inl ⟨_, push [.dispatchIfDone, .drain] { s with transport := rest }, ⟨b, rest, ht, rfl⟩,
          (by constructor <;> rfl), rfl, h⟩
  | dispatchIfDone =>
    simp only [runMove, runDispatchIfDone] at h
    split at h <;> exact .inr ⟨_, h.symm, (by constructor <;> rfl), rfl⟩
  | consume =>
    simp only [runMove, runConsume] at h
    split at h <;> exact .inr ⟨_, h.symm, (by constructor <;> rfl), rfl⟩
  | tick => exact .inr ⟨_, h.symm, same _, rfl⟩
  | openTransport ok => cases ok <;> exact .inr ⟨_, h.symm, (by constructor <;> rfl), rfl⟩
  | wait d => exact .inr ⟨_, h.symm, (by constructor <;> rfl), rfl⟩
  | flush => exact .inr ⟨_, h.symm, (by constructor <;> rfl), rfl⟩
  | begin => exact .inr ⟨_, h.symm, (by constructor <;> rfl), rfl⟩
  | release => exact .inr ⟨_, h.symm, (by constructor <;> rfl), rfl⟩
  | startup ok => exact .inr ⟨_, h.symm, same _, rfl⟩
  | shutdown => exact .inr ⟨_, h.symm, same _, rfl⟩

/-- Where the block is not halted, a move that invokes an instruction runs it in a state that differs only on the host's
side. -/
theorem runMove_invokes {m : Move} {s : State} {i : Instr} (hv : Invokes m s i) (hh : s.halted = false) :
    ∃ s', SameBlock s s' ∧ runMove m s = exec i s' := by
  have same : ∀ ms, SameBlock s (push ms s) := fun ms => by constructor <;> rfl
  cases m with
  | op j => exact ⟨s, .refl s, by rw [show i = j from hv]; exact perform_eq_exec j s⟩
  | wire bs =>
    obtain ⟨rest, hd⟩ := hv
    cases rest with
    | nil => exact ⟨s, .refl s, by simp only [runMove, runWire, hd, perform_eq_exec]⟩
    | cons b rest => exact ⟨_, same [.wire (b :: rest)], by simp only [runMove, runWire, hd, perform_eq_exec]⟩
  | sendVelocity v => exact ⟨_, same _, by rw [show i = _ from hv]; rfl⟩
  | sendNeutral => exact ⟨_, same _, by rw [show i = _ from hv]; rfl⟩
  | feeds bs =>
    obtain ⟨b, rest, rfl, rfl⟩ := hv
    cases rest with
    | nil => exact ⟨s, .refl s, rfl⟩
    | cons c rest => exact ⟨_, same _, rfl⟩
  | encodeResult =>
    obtain ⟨w, hw, rfl⟩ := hv
    exact ⟨s, .refl s, by simp only [runMove, runEncodeResult, hw, perform_eq_exec]⟩
  | txResult =>
    obtain ⟨c, hc, rfl⟩ := hv
    exact ⟨s, .refl s, by simp only [runMove, runTxResult, hc, perform_eq_exec]⟩
  | drain =>
    obtain ⟨b, rest, ht, rfl⟩ := hv
    exact ⟨push [.dispatchIfDone, .drain] { s with transport := rest }, (by constructor <;> rfl), by
      simp [runMove, runDrain, hh, ht]⟩
  | _ => cases hv

/-- What an instruction other than RESET leaves of the host's side: everything. -/
theorem exec_host {i : Instr} {s t : State} (h : exec i s = .next t) (hi : i ≠ .reset) :
    t.cfg = s.cfg ∧ t.chosenCfg = s.chosenCfg ∧ t.pending = s.pending ∧ t.transport = s.transport ∧
      t.inertialOut = s.inertialOut ∧ t.attitudeOut = s.attitudeOut ∧ t.echoOut = s.echoOut ∧
      t.busFailing = s.busFailing ∧ t.hostPhase = s.hostPhase ∧ t.agenda = s.agenda ∧ t.inputs = s.inputs := by
  cases exec_effect h with
  | reset hr => exact absurd hr hi
  | fed bs t hr h =>
    rw [feedAll_effect h]
    exact ⟨rfl, rfl, rfl, rfl, rfl, rfl, rfl, rfl, rfl, rfl, rfl⟩
  | _ => exact ⟨rfl, rfl, rfl, rfl, rfl, rfl, rfl, rfl, rfl, rfl, rfl⟩

theorem build_ne_reset (row : Row) (opc : Byte) (p : List Byte) : (row.build opc p : Instr) ≠ .reset := by
  cases row <;> simp [Row.build]

/-- What is decoded is a frame. -/
theorem decode_isFrame {c : Config} {bs rest : List Byte} {i : Instr} (h : decode c bs = .ok (i, rest)) :
    i ≠ .reset := by
  unfold decode decodeBody at h
  repeat' split at h
  all_goals
    cases h
  exact build_ne_reset _ _ _

/-- Only the move `.op .reset` invokes RESET. -/
theorem invokes_reset {m : Move} {s : State} (h : Invokes m s .reset) : m = .op .reset := by
  cases m with
  | op j => rw [show j = .reset from (show Instr.reset = j from h).symm]
  | wire bs =>
    obtain ⟨rest, h⟩ := h
    exact absurd rfl (decode_isFrame h)
  | feeds bs => obtain ⟨b, rest, -, h⟩ := h; cases h
  | encodeResult => obtain ⟨w, -, h⟩ := h; cases h
  | txResult => obtain ⟨c, -, h⟩ := h; cases h
  | drain => obtain ⟨b, rest, -, h⟩ := h; cases h
  | _ => cases h

/-- `neutralJustSent` reads the configuration and TX alone. -/
theorem neutralJustSent_congr {s t : State} (hc : t.cfg = s.cfg) (ht : t.tx = s.tx) :
    neutralJustSent t = neutralJustSent s := by
  simp only [neutralJustSent, hc, ht]

/-- TX ends with the neutral frame: it is what it held before, and that frame. -/
theorem neutralJustSent_iff {s : State} :
    neutralJustSent s = true ↔ s.tx = s.tx.take (sentBeforeNeutral s) ++ neutralFrame s.cfg := by
  unfold neutralJustSent sentBeforeNeutral
  rw [List.isSuffixOf_iff_suffix]
  constructor
  · rintro ⟨x, hx⟩
    rw [← hx]
    simp
  · intro h
    exact ⟨_, h.symm⟩

/-- `moveExists` reads the configuration, TX and where the process stands. -/
theorem moveExists_congr {m : Move} {s t : State} (hc : t.cfg = s.cfg) (ht : t.tx = s.tx)
    (hp : t.hostPhase = s.hostPhase) : moveExists m t = moveExists m s := by
  have hl : sentBeforeNeutral t = sentBeforeNeutral s := by simp only [sentBeforeNeutral, hc, ht]
  unfold moveExists
  rw [hp, neutralJustSent_congr hc ht, hl, ht]

/-- Where the host's process stands after a move, with `sent` bytes on TX before it. -/
def phaseAfter (m : Move) (sent : Nat) (p : HostPhase) : HostPhase :=
  match m with
  | .openTransport true => .opened
  | .openTransport false => .stopped
  | .wait d => delayDone d sent
  | .flush => .flushed sent
  | .begin => .ticking
  | .release => .stopped
  | _ => p

/-- What a move other than RESET does to the configuration, to PENDING, to the transport and to where the process stands:
only the swap empties PENDING, only the drain and the flush take bytes from the transport. -/
theorem runMove_host {m : Move} {s t : State} (h : runMove m s = .next t) (hm : m ≠ .op .reset) :
    t.cfg = s.cfg ∧ t.pending = (if m = .consume then none else s.pending) ∧
      t.transport = (if m = .flush then [] else if m = .drain ∧ s.halted = false then s.transport.tail else s.transport) ∧
      t.hostPhase = phaseAfter m s.tx.length s.hostPhase := by
  have op : ∀ {i : Instr} {u : State}, exec i u = .next t → i ≠ .reset → t.cfg = u.cfg ∧ t.pending = u.pending ∧
      t.transport = u.transport ∧ t.hostPhase = u.hostPhase := fun he hi =>
    have e := exec_host he hi
    ⟨e.1, e.2.2.1, e.2.2.2.1, e.2.2.2.2.2.2.2.2.1⟩
  cases m with
  | op i =>
    have hi : i ≠ .reset := fun e => hm (by rw [e])
    simpa [phaseAfter] using op ((perform_eq_exec i s).symm.trans h) hi
  | wire bs =>
    simp only [runMove, runWire, perform_eq_exec] at h
    split at h
    · rename_i i hd
      simpa [phaseAfter] using op h (decode_isFrame hd)
    · rename_i i b rest hd
      simpa [phaseAfter, push] using op h (decode_isFrame hd)
    · cases h
      exact ⟨rfl, rfl, rfl, rfl⟩
  | sendVelocity v =>
    simp only [runMove, runSendVelocity, perform_eq_exec] at h
    simpa [phaseAfter, push] using op h (by simp)
  | sendNeutral =>
    simp only [runMove, runSendVelocity, perform_eq_exec] at h
    simpa [phaseAfter, push] using op h (by simp)
  | feeds bs =>
    match bs, h with
    | [], h => cases h; exact ⟨rfl, rfl, rfl, rfl⟩
    | [b], h =>
      simp only [runMove, runFeeds, perform_eq_exec] at h
      simpa [phaseAfter] using op h (by simp)
    | b :: c :: rest, h =>
      simp only [runMove, runFeeds, perform_eq_exec] at h
      simpa [phaseAfter, push] using op h (by simp)
  | encodeResult =>
    simp only [runMove, runEncodeResult, perform_eq_exec] at h
    split at h
    · simpa [phaseAfter] using op h (by simp)
    · cases h; exact ⟨rfl, rfl, rfl, rfl⟩
  | txResult =>
    simp only [runMove, runTxResult, perform_eq_exec] at h
    split at h
    · simpa [phaseAfter] using op h (by simp)
    · cases h; exact ⟨rfl, rfl, rfl, rfl⟩
  | publish =>
    simp only [runMove, runPublish, publishWith] at h
    repeat' split at h
    all_goals
      cases h
      exact ⟨rfl, rfl, rfl, rfl⟩
  | echo v =>
    simp only [runMove, runEcho, publishEcho, publishWith] at h
    repeat' split at h
    all_goals
      cases h
      exact ⟨rfl, rfl, rfl, rfl⟩
  | drain =>
    simp only [runMove, runDrain, perform_eq_exec] at h
    split at h
    · rename_i hh
      cases h
      simp [phaseAfter, hh]
    · rename_i hh
      split at h
      · rename_i ht
        cases h
        simp [phaseAfter, ht]
      · rename_i b rest ht
        have e := op h (by simp)
        simp only [push] at e
        simpa [phaseAfter, hh, ht] using e
  | dispatchIfDone =>
    simp only [runMove, runDispatchIfDone] at h
    split at h <;> cases h <;> exact ⟨rfl, rfl, rfl, rfl⟩
  | consume =>
    simp only [runMove, runConsume] at h
    split at h
    · rename_i hp
      cases h
      simp [phaseAfter, hp]
    · cases h; exact ⟨rfl, rfl, rfl, rfl⟩
  | openTransport ok => cases ok <;> cases h <;> exact ⟨rfl, rfl, rfl, rfl⟩
  | wait d => cases h; exact ⟨rfl, rfl, rfl, rfl⟩
  | _ => cases h; exact ⟨rfl, rfl, rfl, rfl⟩

/-- Who acts in a step: the worker with its next move, if the host has that move where it stands, or an outside event. -/
theorem step_cases {s : State} {o : Result} (h : step s = o) :
    (∃ later, ((s.inputs = [] ∧ later = []) ∨ s.inputs = none :: later) ∧
      ((s.agenda = [] ∧ o = .next { s with inputs := later }) ∨
        ∃ m rest, s.agenda = m :: rest ∧
          ((moveExists m s = true ∧ runMove m { s with agenda := rest, inputs := later } = o) ∨
            (moveExists m s = false ∧ o = .next { s with agenda := rest, inputs := later })))) ∨
    (∃ e later, s.inputs = some e :: later ∧ takeEvent e { s with inputs := later } = o) := by
  have worker : ∀ later, workerStep { s with inputs := later } = o →
      (s.agenda = [] ∧ o = .next { s with inputs := later }) ∨
        ∃ m rest, s.agenda = m :: rest ∧
          ((moveExists m s = true ∧ runMove m { s with agenda := rest, inputs := later } = o) ∨
            (moveExists m s = false ∧ o = .next { s with agenda := rest, inputs := later })) := by
    intro later h
    unfold workerStep at h
    split at h
    · rename_i ha
      exact .inl ⟨ha, h.symm⟩
    · rename_i m rest ha
      refine .inr ⟨m, rest, ha, ?_⟩
      change (if moveExists m s then _ else _) = o at h
      split at h
      · rename_i hm
        exact .inl ⟨hm, h⟩
      · rename_i hm
        exact .inr ⟨by simpa using hm, h.symm⟩
  unfold step scheduledStep at h
  split at h
  · rename_i hi
    refine .inl ⟨[], .inl ⟨hi, rfl⟩, worker [] ?_⟩
    rw [← hi]
    exact h
  · rename_i more hi
    exact .inl ⟨more, .inr hi, worker more h⟩
  · rename_i e more hi
    exact .inr ⟨e, more, hi, h⟩

/-- Everything a step can do to the block: the worker invokes an instruction, or only the host's side changes, or an
illegal configuration is refused. -/
theorem step_effect {s : State} {o : Result} (h : step s = o) :
    (∃ m rest i s', s.agenda = m :: rest ∧ (s.inputs = [] ∨ ∃ more, s.inputs = none :: more) ∧ Invokes m s i ∧
      SameBlock s s' ∧ s'.chosenCfg = s.chosenCfg ∧ exec i s' = o) ∨
    (∃ t, o = .next t ∧ SameBlock s t ∧ (t.chosenCfg = s.chosenCfg ∨ t.chosenCfg.legal = true)) ∨
    (∃ c more, s.inputs = some (.configure c) :: more ∧ c.legal = false ∧ o = .refused .illegalConfig) := by
  rcases step_cases h with ⟨later, hi, ⟨-, rfl⟩ | ⟨m, rest, ha, ⟨-, h⟩ | ⟨-, rfl⟩⟩⟩ | ⟨e, more, hi, h⟩
  · exact .inr (.inl ⟨_, rfl, (by constructor <;> rfl), .inl rfl⟩)
  · have hb : SameBlock s { s with agenda := rest, inputs := later } := by constructor <;> rfl
    rcases runMove_effect h with ⟨i, s', hv, hb', hc', he⟩ | ⟨t, rfl, hb', hc'⟩
    · exact .inl ⟨m, rest, i, s', ha, hi.imp And.left fun h => ⟨_, h⟩, hv, hb.trans hb', hc', he⟩
    · exact .inr (.inl ⟨t, rfl, hb.trans hb', .inl hc'⟩)
  · exact .inr (.inl ⟨_, rfl, (by constructor <;> rfl), .inl rfl⟩)
  · right
    cases e with
    | intake v => exact .inl ⟨_, h.symm, (by constructor <;> rfl), .inl rfl⟩
    | arrive bs => exact .inl ⟨_, h.symm, (by constructor <;> rfl), .inl rfl⟩
    | timer =>
      simp only [takeEvent] at h
      split at h <;> exact .inl ⟨_, h.symm, (by constructor <;> rfl), .inl rfl⟩
    | busFailure => exact .inl ⟨_, h.symm, (by constructor <;> rfl), .inl rfl⟩
    | configure c =>
      simp only [takeEvent] at h
      split at h
      · rename_i hl
        exact .inl ⟨_, h.symm, (by constructor <;> rfl), .inr hl⟩
      · rename_i hl
        exact .inr ⟨c, more, hi, by simpa using hl, h.symm⟩

/-- The worker's next move, when no event is due. -/
theorem step_of_agenda {s : State} {m : Move} {rest : List Move} (hi : s.inputs = []) (ha : s.agenda = m :: rest)
    (hm : moveExists m s = true) : step s = runMove m { s with agenda := rest } := by
  simp [step, scheduledStep, hi, workerStep, ha, hm]

theorem steps_succ {k : Nat} {s t : State} (h : step s = .next t) : steps (k + 1) s = steps k t := by
  simp [steps, h]

theorem steps_of_agenda {k : Nat} {s t : State} {m : Move} {rest : List Move} (hi : s.inputs = [])
    (ha : s.agenda = m :: rest) (hm : moveExists m s = true) (h : runMove m { s with agenda := rest } = .next t) :
    steps (k + 1) s = steps k t :=
  steps_succ ((step_of_agenda hi ha hm).trans h)

end Sys2Proof.Machine
end

