-- ==== Sys2Proof/Laws/PerInstr.lean ====
section
/-! SUPPORT. Statements made once per constructor of Instr. -/

namespace Sys2Proof.Laws.FrameFormat

/-- Where the instruction has an encoding, the encoding's byte 3 is the number of its bytes less six, and the
exclusive-or of everything after the three sync bytes, the checksum included, is zero (R81, R83, R84). -/
def Statement (i : Instr) : Prop :=
  ∀ (c : Config) (f : List Byte), encode c i = some f →
    f.getD 3 0 = BitVec.ofNat 8 (f.length - 6) ∧ xorAll (f.drop 3) = 0

/-- Every frame of the wire has that form. -/
theorem of_frameBytes {c : Config} {i : Instr} {y : Sync} {opc : Byte} {p f : List Byte}
    (he : encode c i = some (frameBytes y opc p)) (h : encode c i = some f) :
    f.getD 3 0 = BitVec.ofNat 8 (f.length - 6) ∧ xorAll (f.drop 3) = 0 := by
  obtain rfl : frameBytes y opc p = f := by simpa [he] using h
  constructor
  · rw [frameBytes_length, frameBytes_eq]
    simp [lenByte]
  · rw [frameBytes_eq]
    simp only [List.drop_succ_cons, List.drop_zero, xorAll_cons, xorAll_append, checksum_eq, xorAll_nil]
    simp

theorem setMotor (cmd : Lanes Int) : Statement (.setMotor cmd) := fun _ _ h => of_frameBytes rfl h
theorem queryRawImu : Statement .queryRawImu := fun _ _ h => of_frameBytes rfl h
theorem queryAttitude : Statement .queryAttitude := fun _ _ h => of_frameBytes rfl h
theorem rawImu (r : RawInertialSample) : Statement (.rawImu r) := fun _ _ h => of_frameBytes rfl h
theorem attitude (a : AttitudeSample) : Statement (.attitude a) := fun _ _ h => of_frameBytes rfl h
theorem otherFrame (opc : Byte) (payload : List Byte) : Statement (.otherFrame opc payload) :=
  fun _ _ h => of_frameBytes rfl h
theorem mix (vx vy vr : Num) : Statement (.mix vx vy vr) := fun _ _ h => by cases h
theorem encode (w : Lanes Num) : Statement (.encode w) := fun _ _ h => by cases h
theorem txSetMotor (cmd : Lanes Int) : Statement (.txSetMotor cmd) := fun _ _ h => by cases h
theorem txQueryRawImu : Statement .txQueryRawImu := fun _ _ h => by cases h
theorem txQueryAttitude : Statement .txQueryAttitude := fun _ _ h => by cases h
theorem feed (b : Byte) : Statement (.feed b) := fun _ _ h => by cases h
theorem matchFrame (opc : InboundName) : Statement (.matchFrame opc) := fun _ _ h => by cases h
theorem getRawImu : Statement .getRawImu := fun _ _ h => by cases h
theorem getAttitude : Statement .getAttitude := fun _ _ h => by cases h
theorem getFrame : Statement .getFrame := fun _ _ h => by cases h
theorem reset : Statement .reset := fun _ _ h => by cases h

end Sys2Proof.Laws.FrameFormat
end

