-- ==== Sys2Proof/Tests/Slice0.lean ====
section
/-! SUPPORT. Tests: the well-formedness checks refuse what they must, words written out from the spec's encoding decode
to their rows, each instruction on the spec's own vectors (95_test_vectors.md), and a witness for the hypotheses of each
obligation. -/

open Sys2Proof Sys2Proof.Machine

namespace Sys2Proof.Tests

-- one thread: the many small kernel evaluations below would otherwise each ask for a stack of their own
set_option Elab.async false

/-! ### Helpers -/

/-- The next state of an outcome. -/
def nextOf : Result → Option State
  | .next s => some s
  | .fault _ => none
  | .refused _ => none

/-- What stands on the result port of the next state. -/
def portOf (o : Result) : Option Port := (nextOf o).map State.out

/-- The bytes on TX of the next state. -/
def txOf (o : Result) : Option (List Byte) := (nextOf o).map State.tx

/-- A halted block. -/
def haltedState : State := { State.reset with halted := true, faultInfo := some (1, 1601) }

/-- A block whose configuration is chosen so that ENCODE can fault: no configuration of this hardware (R146). -/
def narrow (m : FaultMode) : State :=
  { State.reset with cfg := { Config.default with envHi := 1550, faultMode := m } }

/-- A receiver with two of three payload bytes stored. -/
def midPayload : State :=
  { State.reset with
    rxPhase := .payload, rxLen := 3, rxOpc := 1, rxIdx := 2, rxBuf := [(0, 0xAA), (1, 0x55)], rxChk := 0xFD }

/-- A receiver that has latched the frame of vector A1. -/
def latchedAttitude : State :=
  { State.reset with
    rxLen := 6, rxOpc := 0x6C, rxValid := true
    rxBuf := [(0, 0x64), (1, 0x00), (2, 0xCE), (3, 0xFF), (4, 0x0E), (5, 0x01)] }

/-- A receiver that has latched the frame of vector A3, with the neutral motor frame on TX. -/
def latchedImu : State :=
  { State.reset with
    rxLen := 12, rxOpc := 0x66, rxValid := true
    rxBuf := [(0, 0x00), (1, 0x80), (2, 0x01), (3, 0x00), (4, 0x02), (5, 0x00), (6, 0x03), (7, 0x00), (8, 0x04),
      (9, 0x00), (10, 0x05), (11, 0x00)]
    tx := [0x24, 0x4D, 0x3C, 0x08, 0xD6, 0xDC, 0x05, 0xDC, 0x05, 0xDC, 0x05, 0xDC, 0x05, 0xDE] }

/-! ### Well-formedness refuses an ill-formed term, one for each check -/

theorem test_wf_motor_above_u16 : Instr.wf Config.default (.setMotor ⟨0, 0, 0, 65536⟩) = false := by decide +kernel
theorem test_wf_motor_negative : Instr.wf Config.default (.setMotor ⟨-1, 0, 0, 0⟩) = false := by decide +kernel
theorem test_wf_imu_above_i16 : Instr.wf Config.default (.rawImu ⟨0, 0, 0, 0, 0, 32768⟩) = false := by
  decide +kernel
theorem test_wf_imu_below_i16 : Instr.wf Config.default (.rawImu ⟨-32769, 0, 0, 0, 0, 0⟩) = false := by
  decide +kernel
theorem test_wf_attitude_above_i16 : Instr.wf Config.default (.attitude ⟨0, 32768, 0⟩) = false := by decide +kernel
theorem test_wf_other_too_long :
    Instr.wf Config.default (.otherFrame 1 (List.replicate 65 0)) = false := by decide +kernel
theorem test_wf_other_longest : Instr.wf Config.default (.otherFrame 1 (List.replicate 64 0)) = true := by
  decide +kernel
theorem test_wf_other_is_attitude :
    Instr.wf Config.default (.otherFrame 0x6C [0, 0, 0, 0, 0, 0]) = false := by decide +kernel
theorem test_wf_other_is_imu :
    Instr.wf Config.default (.otherFrame 0x66 (List.replicate 12 0)) = false := by decide +kernel
theorem test_wf_other_is_outbound :
    Instr.wf { Config.default with syncTx := Config.default.syncRx } (.otherFrame 0x66 []) = false := by decide +kernel

/-- R8, R121: each constraint refuses a configuration that breaks it alone. -/
theorem test_config_constraints :
    Config.legal { Config.default with layout := ⟨⟨1, 1, 1⟩, ⟨1, 1, 1⟩, ⟨-1, -1, 1⟩, ⟨-1, 1, 1⟩⟩ } = false ∧
    Config.legal { Config.default with layout := ⟨⟨2, 1, 1⟩, ⟨1, -1, 1⟩, ⟨-1, -1, 1⟩, ⟨-1, 1, 1⟩⟩ } = false ∧
    Config.legal { Config.default with envHi := 1700 } = false ∧
    Config.legal { Config.default with syncRx := ⟨0x24, 0x24, 0x3E⟩ } = false ∧
    Config.legal { Config.default with opcQueryRawImu := 0xD6 } = false ∧
    Config.legal { Config.default with opcAttitude := 0x66 } = false ∧
    Config.legal { Config.default with maxPayload := 11 } = false ∧
    Config.legal { Config.default with maxPayload := 256 } = false ∧
    Config.legal Config.default = true := by decide +kernel

/-! ### Decoding: words written out from the encodings of R86 and R91 to R94 -/

/-- 24 4D 3C, LEN 8, OPC 214, then 1500 = 05DC four times low byte first, CHK DE (table row SET_MOTOR). -/
theorem test_decode_set_motor :
    decode Config.default
        [0b00100100, 0b01001101, 0b00111100, 0b00001000, 0b11010110, 0b11011100, 0b00000101, 0b11011100, 0b00000101,
          0b11011100, 0b00000101, 0b11011100, 0b00000101, 0b11011110]
      = .ok (.setMotor ⟨1500, 1500, 1500, 1500⟩, []) := by decide +kernel

theorem test_decode_query_raw_imu :
    decode Config.default [0b00100100, 0b01001101, 0b00111100, 0b00000000, 0b01100110, 0b01100110]
      = .ok (.queryRawImu, []) := by decide +kernel

theorem test_decode_query_attitude :
    decode Config.default [0b00100100, 0b01001101, 0b00111100, 0b00000000, 0b01101100, 0b01101100]
      = .ok (.queryAttitude, []) := by decide +kernel

/-- 24 4D 3E, LEN 12, OPC 102, −32768 = 8000 and 1 to 5 low byte first, CHK EB (vector A3); a byte follows. -/
theorem test_decode_raw_imu :
    decode Config.default
        [0b00100100, 0b01001101, 0b00111110, 0b00001100, 0b01100110, 0b00000000, 0b10000000, 0b00000001, 0b00000000,
          0b00000010, 0b00000000, 0b00000011, 0b00000000, 0b00000100, 0b00000000, 0b00000101, 0b00000000, 0b11101011,
          0b00000111]
      = .ok (.rawImu ⟨-32768, 1, 2, 3, 4, 5⟩, [0b00000111]) := by decide +kernel

/-- 24 4D 3E, LEN 6, OPC 108, 100 = 0064, −50 = FFCE, 270 = 010E low byte first, CHK 30 (vector A1). -/
theorem test_decode_attitude :
    decode Config.default
        [0b00100100, 0b01001101, 0b00111110, 0b00000110, 0b01101100, 0b01100100, 0b00000000, 0b11001110, 0b11111111,
          0b00001110, 0b00000001, 0b00110000]
      = .ok (.attitude ⟨100, -50, 270⟩, []) := by decide +kernel

/-- Vectors A4 (unknown opcode) and A6 (a known opcode at another length). -/
theorem test_decode_other_frames :
    decode Config.default [0x24, 0x4D, 0x3E, 0x02, 0x01, 0xAA, 0x55, 0xFC]
      = .ok (.otherFrame 0x01 [0xAA, 0x55], []) ∧
    decode Config.default [0x24, 0x4D, 0x3E, 0x00, 0x6C, 0x6C] = .ok (.otherFrame 0x6C [], []) := by decide +kernel

/-- R98 to R100, R103: what is no frame of the table is rejected by name. -/
theorem test_decode_rejects :
    decode Config.default [0x24, 0x4D, 0x3C, 0x00] = .error .truncated ∧
    decode Config.default [0x24, 0x4D, 0x3E, 0x01, 0x01, 0x00] = .error .truncated ∧
    decode Config.default [0x24, 0x4D, 0x3D, 0x00, 0x66, 0x66] = .error .noSync ∧
    decode Config.default [0x24, 0x4D, 0x3C, 0x01, 0x66, 0x00, 0x67] = .error .notOutbound ∧
    decode Config.default [0x24, 0x4D, 0x3E, 0x41, 0x01, 0x00] = .error .badLength ∧
    decode Config.default [0x24, 0x4D, 0x3E, 0x00, 0x6C, 0x24] = .error .badChecksum := by decide +kernel

/-- The `match` words of the table (40 bits, no operand bits) decode to their rows. -/
theorem test_table_words :
    decodeTableWord 40 0x244D3C08D6 = some (.setMotor ⟨0, 0, 0, 0⟩) ∧
    decodeTableWord 40 0x244D3C0066 = some .queryRawImu ∧
    decodeTableWord 40 0x244D3C006C = some .queryAttitude ∧
    decodeTableWord 40 0x244D3E0C66 = some (.rawImu ⟨0, 0, 0, 0, 0, 0⟩) ∧
    decodeTableWord 40 0x244D3E066C = some (.attitude ⟨0, 0, 0⟩) := by decide +kernel

/-- The first step after reset runs a placed word. -/
theorem test_fetch_word_runs :
    txOf (step (State.reset.withFetchWord 40 0x244D3C0066)) = some [0x24, 0x4D, 0x3C, 0x00, 0x66, 0x66] ∧
    portOf (step (State.reset.withFetchWord 40 0x244D3E066C)) = some (.done true) := by decide +kernel

/-! ### The instructions on the spec's vectors -/

/-- Section 2.1 row 9: saturated. -/
theorem test_mix_saturates :
    portOf (exec (.mix 1 1 1) State.reset) = some (.wheels ⟨2, 2 / 3, -(2 / 3), 2 / 3⟩) := by decide +kernel

/-- Section 2.1 row 15: both clamps, at the threshold nothing is divided. -/
theorem test_mix_clamps :
    portOf (exec (.mix (-7) 0 3) State.reset) = some (.wheels ⟨0, 0, 2, 2⟩) := by decide +kernel

/-- The same vector in every ordered field with a nearest integer, as one step of the machine over that domain (R8, D1). -/
theorem test_mix_saturates_in_every_domain (α : Type) [Field α] [LinearOrder α] [IsStrictOrderedRing α] [FloorRing α] :
    scheduledStep { State.powerOn (Config.default.inDomain α) with agenda := [.op (.mix 1 1 1)] }
      = .next { State.powerOn (Config.default.inDomain α) with out := .wheels ⟨2, 2 / 3, -(2 / 3), 2 / 3⟩ } := by
  have hq : mixLanes Config.default 1 1 1 = ⟨2, 2 / 3, -(2 / 3), 2 / 3⟩ := by decide +kernel
  have h := mixLanes_cast (α := α) Config.default 1 1 1
  rw [hq] at h
  simp only [Rat.cast_one] at h
  simp [scheduledStep, State.powerOn, workerStep, moveExists, runMove, perform, execMix, unlessHalted, answer, h, Lanes.map]

/-- Section 2.2 row 18: the ties 1500.5 and 1499.5. -/
theorem test_encode_ties :
    portOf (exec (.encode ⟨1 / 100, 1 / 100, -(1 / 100), -(1 / 100)⟩) State.reset)
      = some (.motor ⟨1501, 1501, 1500, 1500⟩) := by decide +kernel

/-- Section 2.2, ENCODE used alone: 1600.5 rounds to 1601 and is clamped; −0.5 rounds to −1 and is clamped. -/
theorem test_encode_clamps :
    portOf (exec (.encode ⟨201 / 100, -(203 / 100), -(3001 / 100), 1000000⟩) State.reset)
      = some (.motor ⟨1600, 1400, 1400, 1600⟩) := by decide +kernel

/-- Section 2.2, TX_SET_MOTOR used alone: [1572,1500,1500,1500]. -/
theorem test_tx_set_motor_bytes :
    txOf (exec (.txSetMotor ⟨1572, 1500, 1500, 1500⟩) State.reset)
      = some [0x24, 0x4D, 0x3C, 0x08, 0xD6, 0x24, 0x06, 0xDC, 0x05, 0xDC, 0x05, 0xDC, 0x05, 0x25] := by decide +kernel

/-- Program 4: lane 1 is the first offender; nothing is appended. -/
theorem test_tx_set_motor_fault :
    nextOf (exec (.txSetMotor ⟨1500, 1601, 1500, 1399⟩) State.reset)
      = some { State.reset with
          halted := true, faultInfo := some (1, 1601), out := .fault (.envelopeViolation 1 1601) } := by
  decide +kernel

/-- Program 4 under `FAULT_MODE = skip`: FAULT_INFO is set, HALTED stays 0. -/
theorem test_set_motor_fault_skip :
    nextOf (exec (.setMotor ⟨1500, 1601, 1500, 1399⟩) (narrow .skip))
      = some { narrow .skip with faultInfo := some (1, 1601), out := .fault (.envelopeViolation 1 1601) } := by
  decide +kernel

/-- Section 2.2 row 8. -/
theorem test_set_motor_bytes :
    txOf (exec (.setMotor ⟨1600, 1500, 1400, 1500⟩) State.reset)
      = some [0x24, 0x4D, 0x3C, 0x08, 0xD6, 0x40, 0x06, 0xDC, 0x05, 0x78, 0x05, 0xDC, 0x05, 0xE5] := by decide +kernel

/-- Section 2.3. -/
theorem test_tx_query_raw_imu :
    txOf (exec .txQueryRawImu State.reset) = some [0x24, 0x4D, 0x3C, 0x00, 0x66, 0x66] ∧
    txOf (exec .queryRawImu State.reset) = some [0x24, 0x4D, 0x3C, 0x00, 0x66, 0x66] := by decide +kernel

/-- Section 2.3. -/
theorem test_tx_query_attitude :
    txOf (exec .txQueryAttitude State.reset) = some [0x24, 0x4D, 0x3C, 0x00, 0x6C, 0x6C] ∧
    txOf (exec .queryAttitude State.reset) = some [0x24, 0x4D, 0x3C, 0x00, 0x6C, 0x6C] := by decide +kernel

/-- R182: a repeated first sync byte. R184: 64 is accepted. -/
theorem test_feed_resynchronises :
    (nextOf (exec (.feed 0x24) { State.reset with rxPhase := .sync1 })).map State.rxPhase = some .sync1 ∧
    (nextOf (exec (.feed 0x40) { State.reset with rxPhase := .len })).map State.rxLen = some 64 := by decide +kernel

/-- Program 2: the byte 30 against the running checksum 31. -/
theorem test_feed_drops :
    (nextOf (exec (.feed 0x30)
        { latchedAttitude with rxPhase := .chk, rxIdx := 6, rxChk := 0x31, rxValid := false })).map
      (fun t => (t.rxPhase, t.rxIdx, t.rxChk, t.rxValid, t.out))
      = some (.sync0, 0, 0, false, .done false) := by decide +kernel

/-- Vector A1, as the frame row: the receiver's end state of program 2. -/
theorem test_attitude_frame :
    nextOf (exec (.attitude ⟨100, -50, 270⟩) State.reset) = some { latchedAttitude with out := .done true } := by
  decide +kernel

/-- Vector A3, as the frame row. -/
theorem test_raw_imu_frame :
    (nextOf (exec (.rawImu ⟨-32768, 1, 2, 3, 4, 5⟩) State.reset)).map (fun t => (t.rxBuf, t.rxValid, t.rxOpc))
      = some (latchedImu.rxBuf, true, 0x66) := by decide +kernel

/-- Vector A4, as the frame row. -/
theorem test_other_frame :
    (nextOf (exec (.otherFrame 0x01 [0xAA, 0x55]) State.reset)).map
      (fun t => (t.rxBuf, t.rxValid, t.rxOpc, t.rxLen)) = some ([(0, 0xAA), (1, 0x55)], true, 0x01, 2) := by
  decide +kernel

/-- Vector A1: MATCH. -/
theorem test_match :
    portOf (exec (.matchFrame .attitude) latchedAttitude) = some (.hit true) ∧
    portOf (exec (.matchFrame .rawImu) latchedAttitude) = some (.hit false) := by decide +kernel

/-- Vector A6: the right opcode at another length does not match. -/
theorem test_match_wrong_length :
    portOf (exec (.matchFrame .attitude) { latchedAttitude with rxLen := 0 }) = some (.hit false) := by decide +kernel

/-- Vector A3: sign extension of 8000; vector A1: none. -/
theorem test_get_raw_imu :
    portOf (exec .getRawImu latchedImu) = some (.imu (some ⟨-32768, 1, 2, 3, 4, 5⟩)) ∧
    portOf (exec .getRawImu latchedAttitude) = some (.imu none) := by decide +kernel

/-- Vectors A1 and A14. -/
theorem test_get_attitude :
    portOf (exec .getAttitude latchedAttitude) = some (.att (some ⟨100, -50, 270⟩)) ∧
    portOf (exec .getAttitude { latchedAttitude with rxValid := false }) = some (.att none) := by decide +kernel

/-- Vector A4. -/
theorem test_get_frame :
    portOf (exec .getFrame { midPayload with rxPhase := .sync0, rxLen := 2, rxValid := true })
      = some (.frame (some ⟨0x01, 2, [0xAA, 0x55]⟩)) := by decide +kernel

/-- Program 4: the second RESET, and the refusals before it. -/
theorem test_reset :
    nextOf (exec .reset { haltedState with tx := [0x24], rxPhase := .len, rxValid := true })
      = some { State.reset with out := .completed } ∧
    nextOf (exec (.feed 0x24) haltedState) = some { haltedState with out := .refused .halted } := by decide +kernel

/-! ### The host: what is assumed never to happen has no move (R236) -/

/-- A tick and a drain before startup completes do nothing; a release with no neutral command before it does nothing;
the hold is passed over when neutral was sent before the flush and not after it. -/
theorem test_moves_out_of_place :
    nextOf (step { State.reset with agenda := [.tick] }) = some State.reset ∧
    nextOf (step { State.reset with agenda := [.drain], transport := [0x24] })
      = some { State.reset with transport := [0x24] } ∧
    nextOf (step { State.reset with agenda := [.release], hostPhase := .ticking, tx := [0x24, 0x4D, 0x3C, 0, 0x66, 0x66] })
      = some { State.reset with hostPhase := .ticking, tx := [0x24, 0x4D, 0x3C, 0, 0x66, 0x66] } ∧
    nextOf (step { latchedImu with agenda := [.wait .hold], hostPhase := .flushed 14 })
      = some { latchedImu with hostPhase := .flushed 14 } := by decide +kernel

/-- After the neutral frame of R234 the hold passes, and the host ticks. -/
theorem test_moves_in_place :
    (nextOf (step { latchedImu with agenda := [.wait .hold], hostPhase := .flushed 0 })).map State.hostPhase
      = some (.held 14) ∧
    (nextOf (step { State.reset with agenda := [.tick], hostPhase := .ticking })).map State.agenda
      = some [.drain, .consume, .poll] := by decide +kernel

/-! ### Witnesses: the hypotheses of each obligation can be met together -/

theorem default_legal : Config.default.legal = true := by decide +kernel

theorem witness_DecodingAnEncodedFrameGivesItBack :
    Config.default.legal = true ∧ Instr.wf Config.default (.rawImu ⟨-32768, 32767, 0, -1, 1, 0⟩) = true ∧
    encode Config.default (.rawImu ⟨-32768, 32767, 0, -1, 1, 0⟩)
      = some [0x24, 0x4D, 0x3E, 0x0C, 0x66, 0x00, 0x80, 0xFF, 0x7F, 0x00, 0x00, 0xFF, 0xFF, 0x01, 0x00, 0x00, 0x00,
          0x6B] := by decide +kernel

theorem witness_ADecodedFrameIsWellFormedAndReencodes :
    Config.default.legal = true ∧
    decode Config.default [0x24, 0x4D, 0x3E, 0x00, 0x01, 0x01, 0x55] = .ok (.otherFrame 1 [], [0x55]) := by
  decide +kernel

/-- One witness per clause; 65 is the least malformed length, 64 payload bytes the longest. -/
theorem witness_MalformedFramesAreRejectedByName :
    Config.default.legal = true ∧
    ((⟨0x24, 0x4D, 0x3F⟩ : Sync) ≠ Config.default.syncTx ∧ (⟨0x24, 0x4D, 0x3F⟩ : Sync) ≠ Config.default.syncRx) ∧
    Config.default.maxPayload < (0x41 : Byte).toNat ∧
    ((List.replicate 64 (0 : Byte)).length ≤ Config.default.maxPayload ∧
      (0 : Byte) ≠ checksum (lenByte (List.replicate 64 0)) 1 (List.replicate 64 0)) := by decide +kernel

theorem witness_PayloadCodersInvertEachOther :
    Lanes.all isU16 ⟨0, 65535, 1400, 1600⟩ = true ∧
    RawInertialSample.inRange ⟨-32768, 32767, 0, -1, 1, 0⟩ = true ∧ AttitudeSample.inRange ⟨-32768, 32767, 0⟩ = true ∧
    (List.replicate 8 (0xFF : Byte)).length = 8 ∧ (List.replicate 12 (0x80 : Byte)).length = 12 ∧
    (List.replicate 6 (0x80 : Byte)).length = 6 := by decide +kernel

theorem witness_ChecksumDetectsOneChangedByteAndMissesEqualPairs :
    (0 < [(1 : Byte)].length ∧ (2 : Byte) ≠ [(1 : Byte)].getD 0 0) ∧
    (0 < [(1 : Byte), 2].length ∧ 1 < [(1 : Byte), 2].length ∧ (0 : Nat) ≠ 1) := by decide +kernel

/-- Both clauses; the same two states serve the other statements about MIX and ENCODE. -/
theorem witness_MixAnswersTheSaturatedDotProducts :
    (State.reset.cfg.legal = true ∧ State.reset.halted = false) ∧
    (haltedState.cfg.legal = true ∧ haltedState.halted = true) := by decide +kernel

theorem witness_MixResultsStayInRangeAndAreNeverClamped :
    State.reset.cfg.legal = true ∧ State.reset.halted = false := by decide +kernel

/-- Both clauses: a positive amplitude and amplitude zero. -/
theorem witness_MixKeepsTheMixingRatios :
    State.reset.cfg.legal = true ∧ State.reset.halted = false ∧
    0 < amplitude (rawSpeeds State.reset.cfg (1 : Num) 1 1) ∧ amplitude (rawSpeeds State.reset.cfg (0 : Num) 0 0) = 0 := by
  decide +kernel

/-- Both clauses: above the threshold, and exactly at it. -/
theorem witness_MixSaturatesStrictlyToAPeakOfTwo :
    State.reset.cfg.legal = true ∧ State.reset.halted = false ∧
    1 < amplitude (rawSpeeds State.reset.cfg (1 : Num) (1 / 2) 1) / 2 ∧
    amplitude (rawSpeeds State.reset.cfg (1 : Num) 0 1) / 2 = 1 := by decide +kernel

/-- In the default number domain, and both sides of the saturation clause. -/
theorem witness_AmplitudeIsTheSumOfTheClampedInputs :
    Config.default.legal = true ∧
    mixLanes Config.default (1 : Num) 1 1 ≠ rawSpeeds Config.default 1 1 1 ∧
    mixLanes Config.default (1 : Num) 0 1 = rawSpeeds Config.default 1 0 1 := by decide +kernel

/-- The clauses at the ends of their ranges: r = −1 and 1, and linearity at amplitude 2 with k = 1. -/
theorem witness_MixIsZeroAtRestEqualInRotationLinearAndOdd :
    (State.reset.cfg.legal = true ∧ State.reset.halted = false) ∧
    ((-1 : Rat) ≤ -1 ∧ (-1 : Rat) ≤ 1 ∧ (1 : Rat) ≤ 1) ∧
    amplitude (rawSpeeds State.reset.cfg (1 : Num) 0 1) = 2 ∧ ((0 : Rat) < 1 ∧ (0 : Rat) < 1 / 2) := by decide +kernel

theorem witness_RoundTakesTheNearestInteger : |((1500 : ℤ) : ℚ) - 1500.4| < 1 / 2 := by norm_num [abs_lt]

/-- The tie clause too: 1500 + 50 · (1/100) is 1500 and a half. -/
theorem witness_EncodeAnswersTheRoundedClampedCommand :
    State.reset.cfg.legal = true ∧ State.reset.halted = false ∧ State.reset.cfg.tie = .awayFromZero ∧
    (1500 : Rat) + 50 * (1 / 100) = ((1500 : Int) : Rat) + 1 / 2 := by decide +kernel

/-- Lane 0 inside, lane 1 the first outside; both fault modes. -/
theorem witness_EncodeFaultsAtTheFirstLaneOutsideTheEnvelope :
    (narrow .halt).halted = false ∧ (narrow .skip).halted = false ∧
    (∀ j : Fin 4, j < 1 → (narrow .halt).cfg.envLo ≤ encodeLane (narrow .halt).cfg (Lanes.get (⟨1, 2, 0, 0⟩ : Lanes Num) j) ∧
      encodeLane (narrow .halt).cfg (Lanes.get (⟨1, 2, 0, 0⟩ : Lanes Num) j) ≤ (narrow .halt).cfg.envHi) ∧
    (narrow .halt).cfg.envHi < encodeLane (narrow .halt).cfg (Lanes.get (⟨1, 2, 0, 0⟩ : Lanes Num) 1) ∧
    (narrow .halt).cfg.faultMode = .halt ∧ (narrow .skip).cfg.faultMode = .skip := by decide +kernel

/-- The clauses at their boundary values 2 and −2. -/
theorem witness_EncodeIsMonotonicPerLaneAndBounded :
    State.reset.cfg.legal = true ∧ State.reset.halted = false ∧
    Lanes.get (⟨2, -2, 0, 0⟩ : Lanes ℚ) 1 ≤ Lanes.get (⟨2, -2, 0, 0⟩ : Lanes ℚ) 0 ∧
    (2 : Rat) ≤ Lanes.get ⟨2, -2, 0, 0⟩ 0 ∧ Lanes.get ⟨2, -2, 0, 0⟩ 1 ≤ (-2 : Rat) := by decide +kernel

/-- A maximal lane exactly at the raw peak 2. -/
theorem witness_SaturatedCommandsReachTheEnvelopeExtremes :
    State.reset.cfg.legal = true ∧ State.reset.halted = false ∧
    2 ≤ amplitude (rawSpeeds State.reset.cfg (1 : Num) 0 1) ∧
    absNum ((rawSpeeds State.reset.cfg (1 : Num) 0 1).get 0) = amplitude (rawSpeeds State.reset.cfg (1 : Num) 0 1) := by
  decide +kernel

/-- Each clause: the ends of the envelope, just outside it, halted. -/
theorem witness_TxSetMotorAppendsItsFourteenBytes :
    (State.reset.halted = false ∧
      ∀ k, State.reset.cfg.envLo ≤ Lanes.get ⟨1400, 1600, 1500, 1400⟩ k ∧
        Lanes.get ⟨1400, 1600, 1500, 1400⟩ k ≤ State.reset.cfg.envHi) ∧
    ((∀ j : Fin 4, j < 1 → State.reset.cfg.envLo ≤ Lanes.get ⟨1400, 1601, 0, 0⟩ j ∧
        Lanes.get ⟨1400, 1601, 0, 0⟩ j ≤ State.reset.cfg.envHi) ∧
      State.reset.cfg.envHi < Lanes.get ⟨1400, 1601, 0, 0⟩ 1) ∧
    haltedState.halted = true := by decide +kernel

/-- Just outside either end, under both fault modes. -/
theorem witness_TxSetMotorOutsideTheEnvelopeAppendsNothing :
    State.reset.halted = false ∧ (narrow .skip).halted = false ∧
    (∀ j : Fin 4, j < 1 → State.reset.cfg.envLo ≤ Lanes.get ⟨1400, 1601, 0, 0⟩ j ∧
      Lanes.get ⟨1400, 1601, 0, 0⟩ j ≤ State.reset.cfg.envHi) ∧
    State.reset.cfg.envHi < Lanes.get ⟨1400, 1601, 0, 0⟩ 1 ∧
    Lanes.get ⟨1399, 1500, 1500, 1500⟩ 0 < (narrow .skip).cfg.envLo ∧
    State.reset.cfg.faultMode = .halt ∧ (narrow .skip).cfg.faultMode = .skip := by decide +kernel

theorem witness_TxQueryRawImuAppendsItsSixBytes : State.reset.halted = false ∧ haltedState.halted = true := by
  decide +kernel

theorem witness_TxQueryAttitudeAppendsItsSixBytes : State.reset.halted = false ∧ haltedState.halted = true := by
  decide +kernel

theorem witness_OutboundFrameRowsAppendTheirEncoding :
    State.reset.halted = false ∧
    ∃ cmd : Lanes Int, (Instr.setMotor ⟨1400, 1600, 1500, 1500⟩ : Instr) = .setMotor cmd ∧
      ∀ k, State.reset.cfg.envLo ≤ cmd.get k ∧ cmd.get k ≤ State.reset.cfg.envHi :=
  ⟨rfl, ⟨1400, 1600, 1500, 1500⟩, rfl, by decide +kernel⟩

theorem witness_HaltedBlockRefusesEverythingButReset :
    haltedState.halted = true ∧ (Instr.feed 0x24 : Instr) ≠ .reset := by decide +kernel

/-- Both outcomes: RESET is next, and an operation that is refused is next. -/
theorem witness_OnlyResetLeavesTheHaltedState :
    haltedState.halted = true ∧
    (nextOf (step { haltedState with agenda := [.op .reset] })).map State.halted = some false ∧
    (nextOf (step { haltedState with agenda := [.op .txQueryRawImu] })).map State.halted = some true := by
  decide +kernel

/-- One state per clause. -/
theorem witness_FeedWhileSeekingFollowsTheSyncBytes :
    State.reset.halted = false ∧ State.reset.rxPhase = .sync0 ∧
    ({ State.reset with rxPhase := .sync1 } : State).rxPhase = .sync1 ∧
    ({ State.reset with rxPhase := .sync2 } : State).rxPhase = .sync2 := by decide +kernel

/-- Both clauses at their boundary: 65 and 64. -/
theorem witness_FeedOfTheLengthByteStoresItOrDrops :
    ({ State.reset with rxPhase := .len } : State).halted = false ∧
    ({ State.reset with rxPhase := .len } : State).rxPhase = .len ∧
    State.reset.cfg.maxPayload < (65 : Byte).toNat ∧ (64 : Byte).toNat ≤ State.reset.cfg.maxPayload := by
  decide +kernel

theorem witness_FeedOfTheOpcodeByteStoresAndFoldsIt :
    ({ State.reset with rxPhase := .opc } : State).halted = false ∧
    ({ State.reset with rxPhase := .opc } : State).rxPhase = .opc := by decide +kernel

/-- The last index that exists. -/
theorem witness_FeedOfAPayloadByteStoresAndFoldsIt :
    midPayload.halted = false ∧ midPayload.rxPhase = .payload ∧
    ({ midPayload with rxIdx := 63, rxLen := 64 } : State).rxIdx < midPayload.cfg.maxPayload ∧
    Memory.wf midPayload.rxBuf = true := by decide +kernel

/-- Both clauses: phase CHK, and another phase in which FEED answers. -/
theorem witness_FeedOfTheChecksumByteCompletesOrDrops :
    ({ State.reset with rxPhase := .chk, rxChk := 0x30 } : State).halted = false ∧
    ({ State.reset with rxPhase := .chk, rxChk := 0x30 } : State).rxPhase = .chk ∧
    midPayload.halted = false ∧ midPayload.rxPhase ≠ .chk ∧
    portOf (exec (.feed 0x24) midPayload) = some (.done false) := by decide +kernel

/-- One state per clause, each just outside the buffer. -/
theorem witness_AccessOutsideTheReceiveBufferFaults :
    (midPayload.halted = false ∧ midPayload.rxPhase = .payload ∧
      midPayload.cfg.maxPayload ≤ ({ midPayload with rxIdx := 64 } : State).rxIdx) ∧
    (latchedImu.rxValid = true ∧ latchedImu.cfg.maxPayload < ({ latchedImu with rxLen := 65 } : State).rxLen) ∧
    (latchedImu.rxOpc = latchedImu.cfg.opcRawImu ∧ latchedImu.rxLen = 12 ∧
      ({ Config.default with maxPayload := 11 } : Config).maxPayload < 12) ∧
    (latchedAttitude.rxValid = true ∧ latchedAttitude.rxOpc = latchedAttitude.cfg.opcAttitude ∧
      latchedAttitude.rxLen = 6 ∧ ({ Config.default with maxPayload := 5 } : Config).maxPayload < 6) := by
  decide +kernel

/-- A bounded check that the first `n` bytes of RX_BUF have been written. -/
theorem writtenBelow_of_all {n : Nat} {s : State}
    (h : (List.range n).all (fun i => (Memory.read s.rxBuf i).isSome) = true) : writtenBelow n s := by
  intro i hi
  exact List.all_eq_true.1 h i (List.mem_range.2 hi)

/-- The receiver's invariant holds inside a frame. -/
theorem receiverInv_midPayload : ReceiverInv midPayload where
  bufCanonical := by decide +kernel
  bufBounded := by decide +kernel
  lenBound := by decide +kernel
  cursor := ⟨by decide +kernel, by decide +kernel, writtenBelow_of_all (by decide +kernel)⟩
  latched := fun h => by cases h

/-- The receiver's invariant holds where a frame is latched. -/
theorem receiverInv_latchedImu : ReceiverInv latchedImu where
  bufCanonical := by decide +kernel
  bufBounded := by decide +kernel
  lenBound := by decide +kernel
  cursor := ⟨rfl, rfl⟩
  latched := fun _ => ⟨rfl, writtenBelow_of_all (by decide +kernel)⟩

theorem witness_FeedIsTotalAndTouchesOnlyTheReceiver :
    midPayload.cfg.legal = true ∧ ReceiverInv midPayload ∧ midPayload.halted = false :=
  ⟨default_legal, receiverInv_midPayload, rfl⟩

/-- The sync bytes themselves: before the last of them the parser seeks. -/
theorem witness_ParserReachesLenExactlyAfterTheSyncBytes :
    State.reset.cfg.legal = true ∧ State.reset.halted = false ∧ State.reset.rxPhase = .sync0 ∧
    ∀ p q ds u, [(0x24 : Byte), 0x4D, 0x3E] = p ++ q → q ≠ [] → feedRun p State.reset = some (ds, u) →
      u.rxPhase.seeking = true := by
  refine ⟨default_legal, rfl, rfl, ?_⟩
  have seeks : ∀ p : List Byte, (feedRun p State.reset).map (fun r => r.2.rxPhase.seeking) = some true →
      ∀ ds u, feedRun p State.reset = some (ds, u) → u.rxPhase.seeking = true := by
    intro p h ds u hr
    rw [hr] at h
    simpa using h
  intro p q ds u h hq hr
  match p, h with
  | [], _ => exact seeks [] (by decide +kernel) ds u hr
  | [a], h =>
    obtain ⟨rfl, -⟩ : (0x24 : Byte) = a ∧ _ := by simpa using h
    exact seeks [0x24] (by decide +kernel) ds u hr
  | [a, b], h =>
    obtain ⟨rfl, rfl, -⟩ : (0x24 : Byte) = a ∧ (0x4D : Byte) = b ∧ _ := by simpa using h
    exact seeks [0x24, 0x4D] (by decide +kernel) ds u hr
  | a :: b :: c :: p', h =>
    have : p' ++ q = [] := by simpa using (List.cons.inj (List.cons.inj (List.cons.inj h).2).2).2.symm
    exact absurd (List.append_eq_nil_iff.1 this).2 hq

/-- The longest payload, and the typed clauses. -/
theorem witness_FedFramesAreReconstructed :
    State.reset.cfg.legal = true ∧ State.reset.halted = false ∧ State.reset.rxPhase.seeking = true ∧
    (List.replicate 64 (0x24 : Byte)).length ≤ State.reset.cfg.maxPayload ∧
    RawInertialSample.inRange ⟨12, -34, 512, -1, 0, 32767⟩ = true ∧ AttitudeSample.inRange ⟨100, -50, 270⟩ = true ∧
    Lanes.all isU16 ⟨1550, 1550, 1450, 1450⟩ = true := by decide +kernel

/-- The first byte that may change, the opcode at 4, and the last, the checksum at length + 5. -/
theorem witness_ACorruptedFrameIsDroppedAndTheNextOneRecovered :
    State.reset.cfg.legal = true ∧ State.reset.halted = false ∧ State.reset.rxPhase.seeking = true ∧
    [(0xAA : Byte), 0x55].length ≤ State.reset.cfg.maxPayload ∧
    (4 ≤ 4 ∧ 4 < [(0xAA : Byte), 0x55].length + 6 ∧
      (0x02 : Byte) ≠ (frameBytes State.reset.cfg.syncRx 0x01 [0xAA, 0x55]).getD 4 0) ∧
    (4 ≤ 7 ∧ 7 < [(0xAA : Byte), 0x55].length + 6 ∧
      (0xFD : Byte) ≠ (frameBytes State.reset.cfg.syncRx 0x01 [0xAA, 0x55]).getD 7 0) := by decide +kernel

/-- Both clauses: inside a frame, and five bytes from SYNC0. -/
theorem witness_APartialFrameIsFinishedByBoundedlyManyBytes :
    (midPayload.cfg.legal = true ∧ ReceiverInv midPayload ∧ midPayload.halted = false ∧
      midPayload.rxPhase.inFrame = true ∧ [(1 : Byte), 2, 3].length = midPayload.rxLen - midPayload.rxIdx + 2) ∧
    (latchedImu.cfg.legal = true ∧ ReceiverInv latchedImu ∧ latchedImu.halted = false ∧
      latchedImu.rxPhase = .sync0 ∧ [(1 : Byte), 2, 3, 4, 5].length < 6) :=
  ⟨⟨default_legal, receiverInv_midPayload, rfl, rfl, rfl⟩,
    ⟨default_legal, receiverInv_latchedImu, rfl, rfl, by decide⟩⟩

/-- A step that feeds nothing, a step that feeds a byte, and two runs that cut the same two bytes differently, one of them
with an event between the bytes. -/
theorem witness_FeedingDoesNotDependOnTheCut :
    (runsReset latchedImu = false ∧ fedBytes latchedImu = [] ∧ nextOf (step latchedImu) = some latchedImu) ∧
    (let s : State := { midPayload with agenda := [.op (.feed 0x11)] }
     runsReset s = false ∧ fedBytes s = [0x11] ∧ portOf (step s) = some (.done false)) ∧
    (let s : State := { midPayload with agenda := [.feeds [0x11, 0xEC]] }
     let s' : State := { midPayload with
       agenda := [.op (.feed 0x11), .drain], transport := [0xEC], hostPhase := .ticking
       inputs := [none, some (.intake ⟨1, 0, 0⟩)] }
     s'.cfg = s.cfg ∧ s'.rxBuf = s.rxBuf ∧
     (runFed 2 s).map (fun r => (r.1, r.2.rxValid)) = some ([0x11, 0xEC], true) ∧
     (runFed 3 s').map (fun r => (r.1, r.2.rxValid)) = some ([0x11, 0xEC], true)) := by decide +kernel

/-- One disjunct per row. -/
theorem witness_InboundFrameRowsLatchTheirContent :
    (State.reset.cfg.legal = true ∧ State.reset.halted = false ∧ State.reset.rxPhase.seeking = true) ∧
    (∃ r, (Instr.rawImu ⟨1, 2, 3, 4, 5, 6⟩ : Instr) = .rawImu r) ∧ (∃ a, (Instr.attitude ⟨1, 2, 3⟩ : Instr) = .attitude a) ∧
    (List.replicate 64 (0 : Byte)).length ≤ State.reset.cfg.maxPayload :=
  ⟨⟨default_legal, rfl, rfl⟩, ⟨_, rfl⟩, ⟨_, rfl⟩, by decide +kernel⟩

theorem witness_MatchComparesOpcodeAndLength :
    latchedImu.cfg.legal = true ∧ latchedImu.halted = false ∧ haltedState.halted = true := by decide +kernel

/-- Each clause: a match, none, halted; and the invariant. -/
theorem witness_GetRawImuCopiesTheSixFields :
    (latchedImu.cfg.legal = true ∧ ReceiverInv latchedImu) ∧
    (latchedImu.halted = false ∧ latchedImu.rxValid = true ∧ latchedImu.rxOpc = latchedImu.cfg.opcRawImu ∧
      latchedImu.rxLen = 12) ∧
    (latchedAttitude.halted = false ∧ latchedAttitude.rxLen ≠ 12) ∧ haltedState.halted = true :=
  ⟨⟨default_legal, receiverInv_latchedImu⟩, by decide +kernel, by decide +kernel, rfl⟩

/-- Each clause: a match, none, halted. -/
theorem witness_GetAttitudeCopiesTheThreeFields :
    latchedAttitude.cfg.legal = true ∧
    (latchedAttitude.halted = false ∧ latchedAttitude.rxValid = true ∧
      latchedAttitude.rxOpc = latchedAttitude.cfg.opcAttitude ∧ latchedAttitude.rxLen = 6) ∧
    (latchedImu.halted = false ∧ latchedImu.rxLen ≠ 6) ∧ haltedState.halted = true := by decide +kernel

/-- Each clause: a frame, none, halted; and the longest frame. -/
theorem witness_GetFrameAnswersTheRawFrame :
    (latchedImu.rxLen ≤ latchedImu.cfg.maxPayload ∧ latchedImu.halted = false ∧ latchedImu.rxValid = true) ∧
    ({ latchedImu with rxLen := 64 } : State).rxLen ≤ latchedImu.cfg.maxPayload ∧
    (midPayload.halted = false ∧ midPayload.rxValid = false) ∧ haltedState.halted = true := by decide +kernel

theorem witness_PureOperationsAreIdempotent :
    nextOf (exec .getAttitude latchedAttitude)
      = some { latchedAttitude with out := .att (some ⟨100, -50, 270⟩) } := by decide +kernel

/-- The machine's invariant holds with a frame latched and a motor frame on TX. -/
theorem inv_latchedImu : Inv latchedImu where
  cfgLegal := default_legal
  chosenLegal := default_legal
  receiver := receiverInv_latchedImu
  txSafe := ⟨[.motor ⟨1500, 1500, 1500, 1500⟩], by decide +kernel, by
    intro f hf
    obtain rfl : f = .motor ⟨1500, 1500, 1500, 1500⟩ := by simpa using hf
    show ∀ k, latchedImu.cfg.envLo ≤ Lanes.get ⟨1500, 1500, 1500, 1500⟩ k ∧
      Lanes.get ⟨1500, 1500, 1500, 1500⟩ k ≤ latchedImu.cfg.envHi
    decide +kernel⟩
  haltRecorded := fun h => by cases h

/-- The same state with a motor command outside the envelope to be transmitted. -/
def aboutToFault : State := { latchedImu with agenda := [.op (.txSetMotor ⟨1500, 1601, 1500, 1399⟩)] }

theorem inv_aboutToFault : Inv aboutToFault where
  cfgLegal := default_legal
  chosenLegal := default_legal
  receiver :=
    ⟨receiverInv_latchedImu.bufCanonical, receiverInv_latchedImu.bufBounded, receiverInv_latchedImu.lenBound,
      receiverInv_latchedImu.cursor, receiverInv_latchedImu.latched⟩
  txSafe := inv_latchedImu.txSafe
  haltRecorded := inv_latchedImu.haltRecorded

theorem witness_EveryStepKeepsTheInvariant : Inv aboutToFault ∧ ∃ t, step aboutToFault = .next t :=
  ⟨inv_aboutToFault, _, rfl⟩

/-- The refusing clause: an illegal configuration is offered. -/
theorem witness_NoReachableStepFaults :
    Inv aboutToFault ∧ ({ Config.default with maxPayload := 11 } : Config).legal = false :=
  ⟨inv_aboutToFault, by decide +kernel⟩

theorem witness_EveryTransmittedMotorFrameIsInsideTheEnvelope : TxSafe latchedImu ∧ step latchedImu = .next latchedImu :=
  ⟨inv_latchedImu.txSafe, rfl⟩

theorem witness_OnlyAnOfferedMotorCommandCanHaltTheBlock :
    Inv aboutToFault ∧ aboutToFault.halted = false ∧ (nextOf (step aboutToFault)).map State.halted = some true :=
  ⟨inv_aboutToFault, rfl, by decide +kernel⟩

/-- The configuration in force changes at RESET; steps of startup, the first tick's phase, the wait of shutdown, and release. -/
theorem witness_WhatTheHostIsAssumedNeverToDoHasNoMove :
    (nextOf (step { State.reset with
        agenda := [.op .reset], chosenCfg := { Config.default with maxPayload := 32 } })).map
      (fun t => t.cfg.maxPayload) = some 32 ∧
    (nextOf (step { State.reset with agenda := [.openTransport true] })).map State.hostPhase = some .opened ∧
    (nextOf (step { State.reset with agenda := [.flush], hostPhase := .settled, transport := [0x24] })).map
      (fun t => (t.hostPhase, t.transport)) = some (.flushed 0, []) ∧
    (nextOf (step { latchedImu with agenda := [.wait .hold], hostPhase := .flushed 0 })).map State.hostPhase
      = some (.held 14) ∧
    (nextOf (step { latchedImu with agenda := [.begin], hostPhase := .held 14 })).map State.hostPhase = some .ticking ∧
    (nextOf (step { latchedImu with agenda := [.wait .shutdown], hostPhase := .ticking })).map State.hostPhase
      = some (.parked 14) ∧
    (nextOf (step { latchedImu with agenda := [.release], hostPhase := .parked 14 })).map State.hostPhase
      = some .stopped := by decide +kernel

/-- A step that appends. -/
theorem witness_TxIsAppendOnly :
    txOf (step { State.reset with tx := [0x01], agenda := [.op .txQueryRawImu] })
      = some [0x01, 0x24, 0x4D, 0x3C, 0x00, 0x66, 0x66] := by decide +kernel

/-- Two states that differ in the receiver alone. -/
theorem witness_TransmissionDoesNotDependOnTheReceiver :
    midPayload.cfg = latchedAttitude.cfg ∧ midPayload.halted = latchedAttitude.halted ∧
    midPayload.tx = latchedAttitude.tx ∧ midPayload.rxLen ≠ latchedAttitude.rxLen ∧
    txOf (exec .txQueryRawImu midPayload) = txOf (exec .txQueryRawImu latchedAttitude) := by decide +kernel

/-- Each clause: one frame, a frame with bytes after it, bytes that are no frame, a table word. -/
theorem witness_StepRunsTheDecodedFrame :
    State.reset.inputs = [] ∧
    decode State.reset.cfg [0x24, 0x4D, 0x3C, 0x00, 0x66, 0x66] = .ok (.queryRawImu, []) ∧
    decode State.reset.cfg [0x24, 0x4D, 0x3C, 0x00, 0x66, 0x66, 0x01] = .ok (.queryRawImu, [0x01]) ∧
    decode State.reset.cfg [0x24, 0x4D, 0x3C, 0x00, 0x66, 0x67] = .error .badChecksum ∧
    decode State.reset.cfg (tableWordBytes State.reset.cfg 40 0x244D3C006C) = .ok (.queryAttitude, []) := by
  decide +kernel

/-- Each clause; a tick before startup completes, a hold with neutral before the flush only, and a start of ticking and a
release with no neutral command before them. -/
theorem witness_StepPerformsTheNextOperationOrIdles :
    (aboutToFault.inputs = [] ∧ aboutToFault.agenda = .op (.txSetMotor ⟨1500, 1601, 1500, 1399⟩) :: []) ∧
    (State.reset.inputs = [] ∧ State.reset.agenda = []) ∧
    (let s : State := { State.reset with agenda := [.tick] }
     s.inputs = [] ∧ s.agenda = .tick :: [] ∧ s.hostPhase ≠ .ticking) ∧
    (let s : State := { State.reset with agenda := [.release], hostPhase := .parked 14 }
     s.inputs = [] ∧ s.agenda = .release :: [] ∧ neutralJustSent s = false) := by decide +kernel

/-- Each clause: an intake, a full slot, an empty slot, the worker's turn given by the schedule. -/
theorem witness_PendingIsOverwrittenAndSwappedWhole :
    (let s : State := { State.reset with inputs := [some (.intake ⟨0, 0, 1 / 2⟩)], pending := some ⟨1, 0, 0⟩ }
     s.inputs = some (.intake ⟨0, 0, 1 / 2⟩) :: []) ∧
    (let s : State := { State.reset with agenda := [.consume], hostPhase := .ticking, pending := some ⟨1, 0, 0⟩ }
     s.inputs = [] ∧ s.halted = false ∧ s.hostPhase = .ticking ∧ s.agenda = .consume :: [] ∧
       s.pending = some ⟨1, 0, 0⟩) ∧
    (let s : State := { State.reset with agenda := [.consume], hostPhase := .ticking, inputs := [none] }
     s.inputs = none :: [] ∧ s.halted = false ∧ s.hostPhase = .ticking ∧ s.agenda = .consume :: [] ∧
       s.pending = none) := by decide +kernel

/-- Both clauses: an empty and a full slot. -/
theorem witness_ATickSendsTwelveOrTwentySixBytes :
    (let s : State := { State.reset with agenda := [.tick], hostPhase := .ticking }
     s.inputs = [] ∧ s.agenda = [.tick] ∧ s.hostPhase = .ticking ∧ s.transport = [] ∧ s.halted = false ∧
       s.pending = none) ∧
    (let s : State := { State.reset with agenda := [.tick], hostPhase := .ticking, pending := some ⟨1, 1, 1⟩ }
     s.inputs = [] ∧ s.agenda = [.tick] ∧ s.hostPhase = .ticking ∧ s.transport = [] ∧ s.halted = false ∧
       s.cfg.legal = true ∧ s.pending = some ⟨1, 1, 1⟩ ∧ s.busFailing = false) := by decide +kernel

/-- Each clause: startup with stale bytes waiting, a failing open, shutdown. -/
theorem witness_StartupAndShutdownRunToTheirEnd :
    (let s : State := { State.reset with agenda := [.startup true], transport := [0x24, 0x4D] }
     s.inputs = [] ∧ s.chosenCfg.legal = true ∧ s.agenda = [.startup true]) ∧
    (let s : State := { State.reset with agenda := [.startup false] }
     s.inputs = [] ∧ s.agenda = [.startup false]) ∧
    (let s : State := { State.reset with agenda := [.shutdown], hostPhase := .ticking }
     s.inputs = [] ∧ s.cfg.legal = true ∧ s.halted = false ∧ s.hostPhase ≠ .stopped ∧
       s.agenda = [.shutdown]) := by decide +kernel

/-- Both clauses: vectors A1 and A3 waiting in the transport. -/
theorem witness_ADrainedTelemetryFrameIsPublished :
    (let s : State := { State.reset with
       agenda := [.drain], hostPhase := .ticking
       transport := [0x24, 0x4D, 0x3E, 0x06, 0x6C, 0x64, 0x00, 0xCE, 0xFF, 0x0E, 0x01, 0x30] }
     s.cfg.legal = true ∧ s.inputs = [] ∧ s.agenda = [.drain] ∧ s.hostPhase = .ticking ∧
       s.rxPhase.seeking = true ∧ s.halted = false ∧ s.busFailing = false ∧
       AttitudeSample.inRange ⟨100, -50, 270⟩ = true ∧
       s.transport = frameBytes s.cfg.syncRx s.cfg.opcAttitude (encAtt ⟨100, -50, 270⟩)) ∧
    (RawInertialSample.inRange ⟨-32768, 1, 2, 3, 4, 5⟩ = true ∧
      [(0x24 : Byte), 0x4D, 0x3E, 0x0C, 0x66, 0x00, 0x80, 0x01, 0x00, 0x02, 0x00, 0x03, 0x00, 0x04, 0x00, 0x05, 0x00,
        0xEB] = frameBytes Config.default.syncRx Config.default.opcRawImu (encImu ⟨-32768, 1, 2, 3, 4, 5⟩)) := by
  decide +kernel

/-- Each clause: the bus failing, and each of the three messages. -/
theorem witness_AFailedPublishLosesOnlyItsMessage :
    (let s : State := { State.reset with
       agenda := [.publish], out := .imu (some ⟨1, 2, 3, 4, 5, 6⟩), busFailing := true }
     s.inputs = [] ∧ s.agenda = .publish :: [] ∧ s.out = .imu (some ⟨1, 2, 3, 4, 5, 6⟩) ∧ s.busFailing = true) ∧
    (let s : State := { State.reset with agenda := [.publish], out := .imu (some ⟨1, 2, 3, 4, 5, 6⟩) }
     s.inputs = [] ∧ s.agenda = .publish :: [] ∧ s.out = .imu (some ⟨1, 2, 3, 4, 5, 6⟩) ∧ s.busFailing = false) ∧
    (let s : State := { State.reset with agenda := [.publish], out := .att (some ⟨1, 2, 3⟩) }
     s.inputs = [] ∧ s.agenda = .publish :: [] ∧ s.out = .att (some ⟨1, 2, 3⟩) ∧ s.busFailing = false) ∧
    (let s : State := { State.reset with agenda := [.echo ⟨1, 1, 1⟩], out := .completed }
     s.inputs = [] ∧ s.agenda = .echo ⟨1, 1, 1⟩ :: [] ∧ s.out = .completed ∧ s.busFailing = false) := by
  decide +kernel

end Sys2Proof.Tests
end

section
/-! The Velocity Mixer: what MIX answers and how the saturation bounds its lanes (40_mixer.md R120, R123, R124). -/

namespace Sys2Proof.Machine

/-! ### The instruction -/

theorem exec_mix {s : State} (h : s.halted = false) (vx vy vr : ℚ) :
    exec (.mix vx vy vr) s = .next { s with out := .wheels (mixLanes s.cfg vx vy vr) } :=
  unlessHalted_of_running h

theorem exec_mix_of_halted {s : State} (h : s.halted = true) (vx vy vr : ℚ) :
    exec (.mix vx vy vr) s = .next { s with out := .refused .halted } :=
  unlessHalted_of_halted h

/-! ### The amplitude is the largest magnitude of a lane -/

variable {α : Type} [Field α] [LinearOrder α] [IsStrictOrderedRing α]

theorem amplitude_eq_max_get (r : Lanes α) :
    amplitude r = max (max |r.get 0| |r.get 1|) (max |r.get 2| |r.get 3|) :=
  amplitude_eq_max r

theorem abs_get_le_amplitude (r : Lanes α) (k : Fin 4) : |r.get k| ≤ amplitude r := by
  rw [amplitude_eq_max_get]
  fin_cases k <;> simp

theorem exists_abs_get_eq_amplitude (r : Lanes α) : ∃ k, |r.get k| = amplitude r := by
  rw [amplitude_eq_max_get]
  obtain h | h := max_choice (max |r.get 0| |r.get 1|) (max |r.get 2| |r.get 3|)
  · rw [h]
    obtain h' | h' := max_choice |r.get 0| |r.get 1|
    · exact ⟨0, h'.symm⟩
    · exact ⟨1, h'.symm⟩
  · rw [h]
    obtain h' | h' := max_choice |r.get 2| |r.get 3|
    · exact ⟨2, h'.symm⟩
    · exact ⟨3, h'.symm⟩

/-! ### Both sides of the threshold `s = 1` -/

section Saturation

variable {c : Config α} {vx vy vr : α}

omit [IsStrictOrderedRing α] in
theorem mixLanes_get_of_saturated (hc : c.legal = true) (hs : 1 < amplitude (rawSpeeds c vx vy vr) / 2) (k : Fin 4) :
    (mixLanes c vx vy vr).get k = (rawSpeeds c vx vy vr).get k / (amplitude (rawSpeeds c vx vy vr) / 2) := by
  rw [mixLanes_get hc, if_pos hs]

omit [IsStrictOrderedRing α] in
theorem mixLanes_eq_rawSpeeds (hc : c.legal = true) (hs : amplitude (rawSpeeds c vx vy vr) / 2 ≤ 1) :
    mixLanes c vx vy vr = rawSpeeds c vx vy vr :=
  Lanes.ext_get fun k => by rw [mixLanes_get hc, if_neg hs.not_gt]

theorem abs_mixLanes_get_of_saturated (hc : c.legal = true) (hs : 1 < amplitude (rawSpeeds c vx vy vr) / 2)
    (k : Fin 4) :
    |(mixLanes c vx vy vr).get k| = |(rawSpeeds c vx vy vr).get k| / (amplitude (rawSpeeds c vx vy vr) / 2) := by
  rw [mixLanes_get_of_saturated hc hs, abs_div, abs_of_pos (zero_lt_one.trans hs)]

/-- No lane exceeds COMB_LIMIT, since none exceeds the amplitude before the division. -/
theorem abs_mixLanes_get_le_two_of_saturated (hc : c.legal = true)
    (hs : 1 < amplitude (rawSpeeds c vx vy vr) / 2) (k : Fin 4) : |(mixLanes c vx vy vr).get k| ≤ 2 := by
  rw [abs_mixLanes_get_of_saturated hc hs, div_le_iff₀ (zero_lt_one.trans hs), mul_div_cancel₀ _ two_ne_zero]
  exact abs_get_le_amplitude _ k

/-- The lane that had the amplitude has COMB_LIMIT after the division. -/
theorem exists_abs_mixLanes_get_eq_two (hc : c.legal = true) (hs : 1 < amplitude (rawSpeeds c vx vy vr) / 2) :
    ∃ k, |(mixLanes c vx vy vr).get k| = 2 := by
  obtain ⟨k, hk⟩ := exists_abs_get_eq_amplitude (rawSpeeds c vx vy vr)
  refine ⟨k, ?_⟩
  rw [abs_mixLanes_get_of_saturated hc hs, hk, div_eq_iff (zero_lt_one.trans hs).ne', mul_div_cancel₀ _ two_ne_zero]

end Saturation

/-! ### The statements -/

/-- Settles O7: the answer is `mixLanes`, whose lanes and amplitude are those of the clamped inputs' dot products. -/
theorem mixAnswersTheSaturatedDotProducts : Obligations.MixAnswersTheSaturatedDotProducts := by
  intro s vx vy vr hc
  refine ⟨fun hrun => ⟨mixLanes s.cfg vx vy vr, exec_mix hrun vx vy vr, ?_⟩, fun hh => exec_mix_of_halted hh vx vy vr⟩
  intro clamped r amp k
  have hr : ∀ j, (rawSpeeds s.cfg vx vy vr).get j = r j := rawSpeeds_get hc vx vy vr
  have hamp : amplitude (rawSpeeds s.cfg vx vy vr) = amp := by simp only [amplitude_eq_max_get, hr, amp]
  rw [mixLanes_get hc, hamp, hr]

/-- Settles O10: above the threshold the lane that has the amplitude comes out at exactly 2; otherwise the raw speeds
are the answer. -/
theorem mixSaturatesStrictlyToAPeakOfTwo : Obligations.MixSaturatesStrictlyToAPeakOfTwo := by
  intro s vx vy vr hc hrun
  refine ⟨mixLanes s.cfg vx vy vr, exec_mix hrun vx vy vr, fun hs => ⟨?_, ?_, ?_⟩, mixLanes_eq_rawSpeeds hc⟩
  · exact mixLanes_get_of_saturated hc hs
  · exact abs_mixLanes_get_le_two_of_saturated hc hs
  · exact exists_abs_mixLanes_get_eq_two hc hs

end Sys2Proof.Machine
end

section
/-! The Command Encoder: `round` is a nearest integer, exactly determined at a tie, and ENCODE answers the rounded and
clamped lanes (41_encoder.md R140 to R144). -/

namespace Sys2Proof.Machine

variable {α : Type} [Field α] [LinearOrder α] [IsStrictOrderedRing α] [FloorRing α]

/-! ### Rounding -/

theorem abs_roundNum_sub_le_half (t : TieRule) (x : α) : |(roundNum t x : α) - x| ≤ 1 / 2 := by
  have hle : (⌊x⌋ : α) ≤ x := Int.floor_le x
  have hlt : x < (⌊x⌋ : α) + 1 := Int.lt_floor_add_one x
  rw [abs_le]
  rcases roundNum_eq_floor_or_succ t x with ⟨hn, hd⟩ | ⟨hn, hd⟩
  · rw [hn]
    constructor <;> linarith
  · rw [hn, Int.cast_add, Int.cast_one]
    constructor <;> linarith

/-- An integer nearer than a half is the only nearest one: it is less than 1 away from the rounded value. -/
theorem roundNum_eq_of_abs_sub_lt_half (t : TieRule) {x : α} {n : ℤ} (h : |(n : α) - x| < 1 / 2) :
    roundNum t x = n := by
  have hdist : |(roundNum t x : α) - n| < 1 := by
    calc |(roundNum t x : α) - n| ≤ |(roundNum t x : α) - x| + |x - n| := abs_sub_le _ _ _
      _ = |(roundNum t x : α) - x| + |(n : α) - x| := by rw [abs_sub_comm x]
      _ < 1 / 2 + 1 / 2 := add_lt_add_of_le_of_lt (abs_roundNum_sub_le_half t x) h
      _ = 1 := add_halves 1
  have hint : |roundNum t x - n| < 1 := by exact_mod_cast hdist
  exact sub_eq_zero.1 (Int.abs_lt_one_iff.1 hint)

/-- At a tie the rule alone decides. -/
theorem roundNum_add_half (t : TieRule) (n : ℤ) :
    roundNum t ((n : α) + 1 / 2) = if tieGoesUp t n then n + 1 else n := by
  have hfloor : ⌊(n : α) + 1 / 2⌋ = n := by
    rw [Int.floor_intCast_add, Int.floor_eq_zero_iff.2 ⟨one_half_pos.le, one_half_lt_one⟩, add_zero]
  simp only [roundNum, hfloor, add_sub_cancel_left, lt_irrefl, if_false]

theorem roundNum_awayFromZero_add_half (n : ℤ) :
    roundNum .awayFromZero ((n : α) + 1 / 2) = if 0 ≤ n then n + 1 else n := by
  rw [roundNum_add_half]
  simp [tieGoesUp]

theorem roundNum_toEven_add_half (n : ℤ) :
    roundNum .toEven ((n : α) + 1 / 2) = if n % 2 = 1 then n + 1 else n := by
  rw [roundNum_add_half]
  simp [tieGoesUp]

omit [FloorRing α] in
/-- The sign of the tie after `n` is the sign of `n`, with 0 counted as positive. -/
theorem add_half_pos_iff {n : ℤ} : 0 < (n : α) + 1 / 2 ↔ 0 ≤ n := by
  constructor
  · intro h
    have hn : ((-1 : ℤ) : α) < n := by push_cast; linarith
    have : -1 < n := Int.cast_lt.1 hn
    omega
  · intro h
    exact add_pos_of_nonneg_of_pos (Int.cast_nonneg h) one_half_pos

/-- Settles O13: the rounded value is within a half, so an integer nearer than a half is it; a tie is decided by the
rule alone. -/
theorem roundTakesTheNearestInteger : Obligations.RoundTakesTheNearestInteger := by
  intro α _ _ _ _
  refine ⟨fun t x n => roundNum_eq_of_abs_sub_lt_half t, fun n => ?_, fun n => ?_, abs_roundNum_sub_le_half⟩
  · simp only [roundNum_awayFromZero_add_half, add_half_pos_iff]
  · rw [roundNum_toEven_add_half]
    split <;> omega

/-! ### The lanes of ENCODE and the instruction -/

omit [IsStrictOrderedRing α] in
/-- One lane of ENCODE, under a configuration of this hardware. -/
theorem encodeLane_of_legal {c : Config α} (hc : c.legal = true) (w : α) :
    encodeLane c w = max 1400 (min (roundNum c.tie (1500 + 50 * w)) 1600) := by
  obtain ⟨-, -, hcomb, hvel, hneutral, -, -⟩ := constants_of_legal hc
  have hlo : c.clampLo = 1400 := by simp [Config.clampLo, hcomb, hvel, hneutral]
  have hhi : c.clampHi = 1600 := by simp [Config.clampHi, hcomb, hvel, hneutral]
  have haff : affine c w = 1500 + 50 * w := by simp [affine, hvel, hneutral]
  rw [encodeLane, haff, hlo, hhi, clampInt_eq_max_min (by decide)]

omit [IsStrictOrderedRing α] in
theorem encodeLane_mem_envelope {c : Config α} (hc : c.legal = true) (w : α) :
    1400 ≤ encodeLane c w ∧ encodeLane c w ≤ 1600 := by
  rw [encodeLane_of_legal hc]
  omega

omit [IsStrictOrderedRing α] in
/-- Under a configuration of this hardware the clamp bounds are the envelope, so the check of ENCODE passes (R146). -/
theorem firstViolation_encodeLanes {c : Config α} (hc : c.legal = true) (w : Lanes α) :
    firstViolation c (encodeLanes c w) = none := by
  obtain ⟨-, -, -, -, -, hlo, hhi⟩ := constants_of_legal hc
  refine firstViolation_eq_none.2 fun k => ?_
  rw [outsideEnvelope_eq_false, hlo, hhi, encodeLanes, Lanes.get_map]
  exact encodeLane_mem_envelope hc (w.get k)

theorem exec_encode (s : State) (w : Lanes ℚ) : exec (.encode w) s = execEncode w s := rfl

theorem exec_encode_of_running {s : State} (h : s.halted = false) (w : Lanes ℚ) :
    exec (.encode w) s =
      checkEnvelope (encodeLanes s.cfg w) s fun s => answer (.motor (encodeLanes s.cfg w)) s := by
  rw [exec_encode, execEncode, unlessHalted_of_running h]

theorem exec_encode_of_legal {s : State} (hc : s.cfg.legal = true) (hrun : s.halted = false) (w : Lanes ℚ) :
    exec (.encode w) s = .next { s with out := .motor (encodeLanes s.cfg w) } := by
  rw [exec_encode_of_running hrun, checkEnvelope_of_inside (firstViolation_encodeLanes hc w)]
  rfl

/-- Settles O14: the answer is `encodeLanes`, and the integer that is clamped is the lane's `roundNum`. -/
theorem encodeAnswersTheRoundedClampedCommand : Obligations.EncodeAnswersTheRoundedClampedCommand := by
  intro s w hc hrun
  refine ⟨encodeLanes s.cfg w, exec_encode_of_legal hc hrun w, fun k => ?_⟩
  rw [encodeLanes, Lanes.get_map]
  obtain ⟨hlo, hhi⟩ := encodeLane_mem_envelope hc (w.get k)
  refine ⟨hlo, hhi, roundNum s.cfg.tie (1500 + 50 * w.get k), abs_roundNum_sub_le_half _ _, ?_,
    encodeLane_of_legal hc (w.get k)⟩
  intro htie m hm
  rw [htie, hm, roundNum_awayFromZero_add_half]

end Sys2Proof.Machine
end

section
/-! The outbound framer: what the framer's three operations put on TX, and that TX stays a sequence of whole frames inside
the envelope (42_framer.md R162 to R165). -/

namespace Sys2Proof

/-! ### The bytes of the outbound frames -/

theorem lo8_eq_ofInt (v : Int) : lo8 v = BitVec.ofInt 8 v := by
  apply BitVec.eq_of_toNat_eq
  simp only [lo8, BitVec.toNat_ofInt]
  omega

theorem hi8_eq_ofInt (v : Int) : hi8 v = BitVec.ofInt 8 (v / 256) := lo8_eq_ofInt (v / 256)

/-- A frame without payload is six bytes, the opcode being its own checksum under LEN 0. -/
theorem frameBytes_nil (y : Sync) (opc : Byte) : frameBytes y opc [] = [y.s0, y.s1, y.s2, 0x00, opc, opc] := by
  simp [frameBytes_eq, checksum_eq, lenByte]

/-- The motor frame, byte by byte (R91, R162). -/
theorem frameBytes_encMotor (y : Sync) (opc : Byte) (cmd : Lanes Int) :
    frameBytes y opc (encMotor cmd) =
      [y.s0, y.s1, y.s2, 0x08, opc, lo8 cmd.l0, hi8 cmd.l0, lo8 cmd.l1, hi8 cmd.l1, lo8 cmd.l2, hi8 cmd.l2,
        lo8 cmd.l3, hi8 cmd.l3,
        0x08 ^^^ opc ^^^ lo8 cmd.l0 ^^^ hi8 cmd.l0 ^^^ lo8 cmd.l1 ^^^ hi8 cmd.l1 ^^^ lo8 cmd.l2 ^^^ hi8 cmd.l2
          ^^^ lo8 cmd.l3 ^^^ hi8 cmd.l3] := by
  simp [frameBytes_eq, lenByte, encMotor, u16Bytes, checksum, xorAll]

end Sys2Proof

namespace Sys2Proof.Machine

/-! ### The motor operation: sent, faulted, refused -/

section Motor

variable {s : State} {cmd : Lanes Int}

theorem exec_txSetMotor (s : State) (cmd : Lanes Int) : exec (.txSetMotor cmd) s = sendMotor cmd s := rfl

theorem sendMotor_of_halted (h : s.halted = true) : sendMotor cmd s = .next { s with out := .refused .halted } :=
  unlessHalted_of_halted h

theorem sendMotor_of_inside (hrun : s.halted = false) (hin : (OutFrame.motor cmd).safe s.cfg) :
    sendMotor cmd s =
      .next { s with tx := s.tx ++ frameBytes s.cfg.syncTx s.cfg.opcSetMotor (encMotor cmd), out := .completed } := by
  have hv : firstViolation s.cfg cmd = none := firstViolation_eq_none.2 fun k => outsideEnvelope_eq_false.2 (hin k)
  rw [sendMotor, unlessHalted_of_running hrun, checkEnvelope_of_inside hv]
  rfl

theorem firstViolation_of_first_outside {c : Config} {k : Fin 4}
    (hin : ∀ j, j < k → c.envLo ≤ cmd.get j ∧ cmd.get j ≤ c.envHi)
    (hout : cmd.get k < c.envLo ∨ c.envHi < cmd.get k) : firstViolation c cmd = some (k, cmd.get k) :=
  firstViolation_eq_some.2
    ⟨rfl, outsideEnvelope_eq_true.2 hout, fun j hj => outsideEnvelope_eq_false.2 (hin j hj)⟩

theorem sendMotor_of_violation {k : Fin 4} {v : Int} (hrun : s.halted = false)
    (hv : firstViolation s.cfg cmd = some (k, v)) : sendMotor cmd s = raiseEnvelope k v s := by
  rw [sendMotor, unlessHalted_of_running hrun, checkEnvelope_of_violation hv]

/-- In both fault modes the fault is answered on the port, and only the fault's own record changes beside it (R253). -/
theorem raiseEnvelope_answers (k : Fin 4) (v : Int) (s : State) :
    ∃ t, raiseEnvelope k v s = .next t ∧ t.out = .fault (.envelopeViolation k v) ∧
      t = { s with halted := t.halted, faultInfo := t.faultInfo, out := t.out } := by
  cases hm : s.cfg.faultMode with
  | halt => exact ⟨_, raiseEnvelope_eq_next.2 (.inl ⟨hm, rfl⟩), rfl, rfl⟩
  | skip => exact ⟨_, raiseEnvelope_eq_next.2 (.inr ⟨hm, rfl⟩), rfl, rfl⟩

end Motor

/-! ### The query operations -/

theorem exec_txQueryRawImu_of_running {s : State} (h : s.halted = false) :
    exec .txQueryRawImu s =
      .next { s with tx := s.tx ++ frameBytes s.cfg.syncTx s.cfg.opcQueryRawImu [], out := .completed } :=
  unlessHalted_of_running h

theorem exec_txQueryAttitude_of_running {s : State} (h : s.halted = false) :
    exec .txQueryAttitude s =
      .next { s with tx := s.tx ++ frameBytes s.cfg.syncTx s.cfg.opcQueryAttitude [], out := .completed } :=
  unlessHalted_of_running h

/-! ### What an instruction does to TX -/

/-- TX is emptied by RESET alone; every other instruction leaves it, or appends one whole frame inside the envelope. -/
theorem exec_tx_cases {i : Instr} {s t : State} (h : exec i s = .next t) :
    (i = .reset ∧ t.tx = []) ∨
      (t.cfg = s.cfg ∧ (t.tx = s.tx ∨ ∃ f : OutFrame, f.safe s.cfg ∧ t.tx = s.tx ++ f.bytes s.cfg)) := by
  cases exec_effect h with
  | reset hi => exact .inl ⟨hi, rfl⟩
  | port p => exact .inr ⟨rfl, .inl rfl⟩
  | sent f hs _ => exact .inr ⟨rfl, .inr ⟨f, hs, rfl⟩⟩
  | halted k v => exact .inr ⟨rfl, .inl rfl⟩
  | skipped k v => exact .inr ⟨rfl, .inl rfl⟩
  | fed bs t _ hfed =>
    rw [feedAll_effect hfed]
    exact .inr ⟨rfl, .inl rfl⟩

/-! ### TX stays a sequence of safe frames -/

theorem txSafe_of_tx_nil {s : State} (h : s.tx = []) : TxSafe s := ⟨[], h, by simp⟩

theorem TxSafe.congr {s t : State} (hs : TxSafe s) (hc : t.cfg = s.cfg) (ht : t.tx = s.tx) : TxSafe t := by
  rw [TxSafe, hc, ht]
  exact hs

theorem TxSafe.append {s t : State} {f : OutFrame} (hs : TxSafe s) (hf : f.safe s.cfg) (hc : t.cfg = s.cfg)
    (ht : t.tx = s.tx ++ f.bytes s.cfg) : TxSafe t := by
  obtain ⟨fs, htx, hfs⟩ := hs
  rw [TxSafe, hc, ht, htx]
  refine ⟨fs ++ [f], by simp, fun g hg => ?_⟩
  rcases List.mem_append.1 hg with hg | hg
  · exact hfs g hg
  · rw [List.mem_singleton.1 hg]
    exact hf

theorem exec_keeps_txSafe {i : Instr} {s t : State} (hs : TxSafe s) (h : exec i s = .next t) : TxSafe t := by
  rcases exec_tx_cases h with ⟨-, htx⟩ | ⟨hc, htx | ⟨f, hf, htx⟩⟩
  · exact txSafe_of_tx_nil htx
  · exact hs.congr hc htx
  · exact hs.append hf hc htx

/-! ### The statements -/

/-- Settles O49: a step invokes one instruction, which keeps TX safe, or leaves the configuration and TX as they are. -/
theorem everyTransmittedMotorFrameIsInsideTheEnvelope :
    Obligations.EveryTransmittedMotorFrameIsInsideTheEnvelope := by
  intro s t hs h
  rcases step_effect h with ⟨m, rest, i, s', -, -, -, hb, -, hexec⟩ | ⟨u, hu, hb, -⟩ | ⟨c, more, -, -, hu⟩
  · exact exec_keeps_txSafe (hs.congr hb.cfg hb.tx) hexec
  · cases hu
    exact hs.congr hb.cfg hb.tx
  · cases hu

/-- Settles O18: the check passes, and the frame is the fourteen bytes; or it fails at the first lane outside, and the
fault touches its own record alone; or the block is halted. -/
theorem txSetMotorAppendsItsFourteenBytes : Obligations.TxSetMotorAppendsItsFourteenBytes := by
  intro s cmd
  rw [exec_txSetMotor]
  refine ⟨fun hrun hin => ?_, fun k hrun hbefore hout => ?_, sendMotor_of_halted⟩
  · simp only [sendMotor_of_inside hrun hin, frameBytes_encMotor, lo8_eq_ofInt, hi8_eq_ofInt]
  · rw [sendMotor_of_violation hrun (firstViolation_of_first_outside hbefore hout)]
    exact raiseEnvelope_answers k (cmd.get k) s

/-- Settles O20: the frame sent has no payload, so it is the six bytes. -/
theorem txQueryRawImuAppendsItsSixBytes : Obligations.TxQueryRawImuAppendsItsSixBytes := by
  intro s
  refine ⟨fun hrun => ?_, unlessHalted_of_halted⟩
  rw [exec_txQueryRawImu_of_running hrun, frameBytes_nil]

/-- Settles O21: the frame sent has no payload, so it is the six bytes. -/
theorem txQueryAttitudeAppendsItsSixBytes : Obligations.TxQueryAttitudeAppendsItsSixBytes := by
  intro s
  refine ⟨fun hrun => ?_, unlessHalted_of_halted⟩
  rw [exec_txQueryAttitude_of_running hrun, frameBytes_nil]

end Sys2Proof.Machine
end

section
/-! The inbound parser and the frame queries: what one FEED does in each phase, and what MATCH, GET_RAW_IMU,
GET_ATTITUDE and GET_FRAME answer (43_parser.md R181 to R198). -/

namespace Sys2Proof.Machine

/-! ### FEED -/

/-- In phase CHK alone may FEED return true: every other row of the table that answers returns false (R188, R192). -/
theorem feedByte_out_of_phase_ne_chk {α : Type} {s t : State α} {b : Byte} (hp : s.rxPhase ≠ .chk)
    (h : feedByte b s = .next t) : t.out = .done false := by
  cases hphase : s.rxPhase with
  | sync0 => rw [feedByte_sync0 hphase] at h; cases h; rfl
  | sync1 => rw [feedByte_sync1 hphase] at h; cases h; rfl
  | sync2 => rw [feedByte_sync2 hphase] at h; cases h; rfl
  | len =>
    rcases Nat.lt_or_ge s.cfg.maxPayload b.toNat with hb | hb
    · rw [feedByte_len_drop hphase hb] at h; cases h; rfl
    · rw [feedByte_len_ok hphase hb] at h; cases h; rfl
  | opc => rw [feedByte_opc hphase] at h; cases h; rfl
  | payload =>
    rcases Nat.lt_or_ge s.rxIdx s.cfg.maxPayload with hi | hi
    · rw [feedByte_payload hphase hi] at h; cases h; rfl
    · rw [feedByte_payload_outside hphase hi] at h; cases h
  | chk => exact absurd hphase hp

/-- Settles O25: the three seeking rows of the transition table. -/
theorem feedWhileSeekingFollowsTheSyncBytes : Obligations.FeedWhileSeekingFollowsTheSyncBytes := by
  intro s b hrun
  rw [exec_feed hrun]
  exact ⟨feedByte_sync0, feedByte_sync1, feedByte_sync2⟩

/-- Settles O26: the two rows of phase LEN. -/
theorem feedOfTheLengthByteStoresItOrDrops : Obligations.FeedOfTheLengthByteStoresItOrDrops := by
  intro s b hrun hp
  rw [exec_feed hrun]
  exact ⟨feedByte_len_drop hp, feedByte_len_ok hp⟩

/-- Settles O27: the row of phase OPC. -/
theorem feedOfTheOpcodeByteStoresAndFoldsIt : Obligations.FeedOfTheOpcodeByteStoresAndFoldsIt := by
  intro s b hrun hp
  rw [exec_feed hrun, feedByte_opc hp]

/-- Settles O28: the new buffer is the old one with the byte written at RX_IDX. -/
theorem feedOfAPayloadByteStoresAndFoldsIt : Obligations.FeedOfAPayloadByteStoresAndFoldsIt := by
  intro s b hrun hp hi
  refine ⟨Memory.write s.rxBuf s.rxIdx b, ?_, fun k => bufByte_write s s.rxIdx k b, Memory.wf_write⟩
  rw [exec_feed hrun, feedByte_payload hp hi]

/-- Settles O29: the row of phase CHK; in the other phases `feedByte_out_of_phase_ne_chk`. -/
theorem feedOfTheChecksumByteCompletesOrDrops : Obligations.FeedOfTheChecksumByteCompletesOrDrops := by
  intro s b hrun
  rw [exec_feed hrun]
  exact ⟨feedByte_chk, fun hp t ht => feedByte_out_of_phase_ne_chk hp ht⟩

/-! ### MATCH -/

theorem exec_matchFrame {s : State} (h : s.halted = false) (n : InboundName) :
    exec (.matchFrame n) s = .next { s with out := .hit (isHit s n) } :=
  unlessHalted_of_running h

theorem isHit_eq {α : Type} (s : State α) (n : InboundName) :
    isHit s n = (s.rxValid && s.rxOpc == typedOpc s.cfg n && s.rxLen == typedLen n) := rfl

/-- The two typed frames differ in length, so one latched frame is not both (R194). -/
theorem not_isHit_both {α : Type} (s : State α) : ¬(isHit s .rawImu = true ∧ isHit s .attitude = true) := by
  rintro ⟨himu, hatt⟩
  obtain ⟨-, -, h12⟩ := isHit_iff.1 himu
  obtain ⟨-, -, h6⟩ := isHit_iff.1 hatt
  exact absurd (h12.symm.trans h6) (by decide)

/-- Settles O38: the answer is `isHit`, which compares opcode and length. -/
theorem matchComparesOpcodeAndLength : Obligations.MatchComparesOpcodeAndLength := by
  intro s _
  refine ⟨fun hrun => ⟨?_, ?_⟩, fun hh n => unlessHalted_of_halted hh, not_isHit_both s⟩
  · rw [exec_matchFrame hrun, isHit_eq, typedOpc, typedLen]
  · rw [exec_matchFrame hrun, isHit_eq, typedOpc, typedLen]

/-! ### The bytes of RX_BUF as a payload -/

theorem getD_map_range_bufByte {α : Type} (s : State α) {n k : Nat} (h : k < n) :
    ((List.range n).map (bufByte s)).getD k 0 = bufByte s k := by
  simp [List.getD_eq_getElem?_getD, h]

/-- A signed field of a slice of RX_BUF is made of the two stored bytes at its offset (R54, R90). -/
theorem i16At_map_range_bufByte {α : Type} (s : State α) {n k : Nat} (h : k + 1 < n) :
    i16At ((List.range n).map (bufByte s)) k = sext16 (le16 (bufByte s k) (bufByte s (k + 1))) := by
  rw [i16At, u16At, getD_map_range_bufByte s (Nat.lt_of_succ_lt h), getD_map_range_bufByte s h]

/-! ### GET_RAW_IMU, GET_ATTITUDE and GET_FRAME -/

section Queries

variable {s : State}

theorem exec_getRawImu_of_halted (hh : s.halted = true) :
    exec .getRawImu s = .next { s with out := .refused .halted } := by
  rw [exec, execGetRawImu, unlessHalted_of_halted hh]

theorem exec_getRawImu_of_hit (hrun : s.halted = false) (hit : isHit s .rawImu = true)
    (hmax : 12 ≤ s.cfg.maxPayload) :
    exec .getRawImu s = .next { s with out := .imu (some (decImu ((List.range 12).map (bufByte s)))) } := by
  rw [exec, execGetRawImu, unlessHalted_of_running hrun, if_pos hit, withSlice_of_le hmax, answer]

theorem exec_getRawImu_of_not_hit (hrun : s.halted = false) (hmiss : ¬isHit s .rawImu = true) :
    exec .getRawImu s = .next { s with out := .imu none } := by
  rw [exec, execGetRawImu, unlessHalted_of_running hrun, if_neg hmiss, answer]

theorem exec_getAttitude_of_halted (hh : s.halted = true) :
    exec .getAttitude s = .next { s with out := .refused .halted } := by
  rw [exec, execGetAttitude, unlessHalted_of_halted hh]

theorem exec_getAttitude_of_hit (hrun : s.halted = false) (hit : isHit s .attitude = true)
    (hmax : 6 ≤ s.cfg.maxPayload) :
    exec .getAttitude s = .next { s with out := .att (some (decAtt ((List.range 6).map (bufByte s)))) } := by
  rw [exec, execGetAttitude, unlessHalted_of_running hrun, if_pos hit, withSlice_of_le hmax, answer]

theorem exec_getAttitude_of_not_hit (hrun : s.halted = false) (hmiss : ¬isHit s .attitude = true) :
    exec .getAttitude s = .next { s with out := .att none } := by
  rw [exec, execGetAttitude, unlessHalted_of_running hrun, if_neg hmiss, answer]

theorem exec_getFrame_of_halted (hh : s.halted = true) :
    exec .getFrame s = .next { s with out := .refused .halted } := by
  rw [exec, execGetFrame, unlessHalted_of_halted hh]

theorem exec_getFrame_of_valid (hrun : s.halted = false) (hv : s.rxValid = true) (hle : s.rxLen ≤ s.cfg.maxPayload) :
    exec .getFrame s =
      .next { s with out := .frame (some ⟨s.rxOpc, s.rxLen, (List.range s.rxLen).map (bufByte s)⟩) } := by
  rw [exec, execGetFrame, unlessHalted_of_running hrun, if_pos hv, withSlice_of_le hle, answer]

theorem exec_getFrame_of_not_valid (hrun : s.halted = false) (hv : s.rxValid = false) :
    exec .getFrame s = .next { s with out := .frame none } := by
  rw [exec, execGetFrame, unlessHalted_of_running hrun, if_neg (Bool.eq_false_iff.1 hv), answer]

end Queries

theorem decImu_map_range_bufByte {α : Type} (s : State α) :
    decImu ((List.range 12).map (bufByte s)) =
      ⟨sext16 (le16 (bufByte s 0) (bufByte s 1)), sext16 (le16 (bufByte s 2) (bufByte s 3)),
        sext16 (le16 (bufByte s 4) (bufByte s 5)), sext16 (le16 (bufByte s 6) (bufByte s 7)),
        sext16 (le16 (bufByte s 8) (bufByte s 9)), sext16 (le16 (bufByte s 10) (bufByte s 11))⟩ := by
  simp only [decImu, i16At_map_range_bufByte s, Nat.reduceAdd, Nat.reduceLT]

theorem decAtt_map_range_bufByte {α : Type} (s : State α) :
    decAtt ((List.range 6).map (bufByte s)) =
      ⟨sext16 (le16 (bufByte s 0) (bufByte s 1)), sext16 (le16 (bufByte s 2) (bufByte s 3)),
        sext16 (le16 (bufByte s 4) (bufByte s 5))⟩ := by
  simp only [decAtt, i16At_map_range_bufByte s, Nat.reduceAdd, Nat.reduceLT]

/-- Settles O39: the fields are `decImu` of RX_BUF[0..11], the statement's `field` being `sext16` of `le16` written out;
the bytes of a latched frame have all been written. -/
theorem getRawImuCopiesTheSixFields : Obligations.GetRawImuCopiesTheSixFields := by
  intro s hc field
  obtain ⟨-, -, -, -, -, -, hmax, -⟩ := wire_of_legal hc
  refine ⟨fun hrun hv ho hl => ?_, fun hrun hno => ?_, exec_getRawImu_of_halted, fun hinv hv _ hl => ?_⟩
  · rw [exec_getRawImu_of_hit hrun (isHit_iff.2 ⟨hv, ho, hl⟩) hmax, decImu_map_range_bufByte]
    rfl
  · exact exec_getRawImu_of_not_hit hrun (mt isHit_iff.1 hno)
  · obtain ⟨-, hwritten⟩ := hinv.latched hv
    rwa [hl] at hwritten

/-- Settles O40: the fields are `decAtt` of RX_BUF[0..5], the statement's `field` being `sext16` of `le16` written
out. -/
theorem getAttitudeCopiesTheThreeFields : Obligations.GetAttitudeCopiesTheThreeFields := by
  intro s hc field
  obtain ⟨-, -, -, -, -, -, hmax, -⟩ := wire_of_legal hc
  refine ⟨fun hrun hv ho hl => ?_, fun hrun hno => ?_, exec_getAttitude_of_halted⟩
  · rw [exec_getAttitude_of_hit hrun (isHit_iff.2 ⟨hv, ho, hl⟩) (by omega), decAtt_map_range_bufByte]
    rfl
  · exact exec_getAttitude_of_not_hit hrun (mt isHit_iff.1 hno)

/-- Settles O41: the payload is the list of the first RX_LEN bytes of RX_BUF. -/
theorem getFrameAnswersTheRawFrame : Obligations.GetFrameAnswersTheRawFrame := by
  intro s hle
  refine ⟨fun hrun hv => ?_, exec_getFrame_of_not_valid, exec_getFrame_of_halted⟩
  exact ⟨_, exec_getFrame_of_valid hrun hv hle, by simp, fun k hk => getD_map_range_bufByte s hk⟩

end Sys2Proof.Machine
end

section
/-! The host's publishes: a failing publish loses its message and nothing else (44_host_sequences.md R227, R230, R233). -/

namespace Sys2Proof.Machine

/-! ### The worker's turn -/

/-- Where the schedule has no event, the worker runs the next move of its agenda, if the host has that move where it
stands. -/
theorem step_of_worker_turn {s : State} {m : Move} {rest : List Move} {later : List (Option Event)}
    (hi : (s.inputs = [] ∧ later = []) ∨ s.inputs = none :: later) (ha : s.agenda = m :: rest)
    (hm : moveExists m s = true) : step s = runMove m { s with agenda := rest, inputs := later } := by
  obtain ⟨hnil, rfl⟩ | hnone := hi
  · rw [step_of_agenda hnil ha hm, hnil]
  · simp only [step, scheduledStep, hnone, workerStep, ha]
    exact if_pos ((moveExists_congr rfl rfl rfl).trans hm)

/-! ### One publish -/

theorem publishWith_of_failing {α : Type} {s : State α} (hb : s.busFailing = true) (deliver : State α → State α) :
    publishWith deliver s = { s with busFailing := false } :=
  if_pos hb

theorem publishWith_of_working {α : Type} {s : State α} (hb : s.busFailing = false) (deliver : State α → State α) :
    publishWith deliver s = deliver s :=
  if_neg (Bool.eq_false_iff.1 hb)

/-- With `out` on the result port, the move `m` publishes the message that `deliver` delivers. -/
def Publishes (m : Move) (out : Port) (deliver : State → State) : Prop :=
  ∀ s : State, s.out = out → runMove m s = .next (publishWith deliver s)

theorem publishes_imu (r : RawInertialSample) :
    Publishes .publish (.imu (some r)) fun s => { s with inertialOut := s.inertialOut ++ [inertialRecord r] } := by
  intro s ho
  rw [runMove, runPublish, ho]

theorem publishes_att (a : AttitudeSample) :
    Publishes .publish (.att (some a)) fun s => { s with attitudeOut := s.attitudeOut ++ [attitudeRecord a] } := by
  intro s ho
  rw [runMove, runPublish, ho]

theorem publishes_echo (v : Velocity) :
    Publishes (.echo v) .completed fun s => { s with echoOut := s.echoOut ++ [v] } := by
  intro s ho
  rw [runMove, runEcho, ho, publishEcho]

/-! ### A step that publishes -/

section Step

variable {s : State} {m : Move} {rest : List Move} {later : List (Option Event)} {out : Port}
  {deliver : State → State}

theorem step_of_failing_publish (hp : Publishes m out deliver)
    (hi : (s.inputs = [] ∧ later = []) ∨ s.inputs = none :: later) (ha : s.agenda = m :: rest)
    (hm : moveExists m s = true) (ho : s.out = out) (hb : s.busFailing = true) :
    step s = .next { s with agenda := rest, inputs := later, busFailing := false } := by
  rw [step_of_worker_turn hi ha hm, hp, publishWith_of_failing]
  · exact hb
  · exact ho

theorem step_of_working_publish (hp : Publishes m out deliver)
    (hi : (s.inputs = [] ∧ later = []) ∨ s.inputs = none :: later) (ha : s.agenda = m :: rest)
    (hm : moveExists m s = true) (ho : s.out = out) (hb : s.busFailing = false) :
    step s = .next (deliver { s with agenda := rest, inputs := later }) := by
  rw [step_of_worker_turn hi ha hm, hp, publishWith_of_working]
  · exact hb
  · exact ho

end Step

/-- Settles O60: each of the three publishes is `publishWith` of its own delivery, which a failing bus skips. -/
theorem aFailedPublishLosesOnlyItsMessage : Obligations.AFailedPublishLosesOnlyItsMessage := by
  intro s rest m later hi ha
  refine ⟨fun hm hb => ?_, fun r hm ho hb => ?_, fun a hm ho hb => ?_, fun v hm ho hb => ?_⟩
  · obtain ⟨rfl, r, ho⟩ | ⟨rfl, a, ho⟩ | ⟨ho, v, rfl⟩ := hm
    · exact step_of_failing_publish (publishes_imu r) hi ha rfl ho hb
    · exact step_of_failing_publish (publishes_att a) hi ha rfl ho hb
    · exact step_of_failing_publish (publishes_echo v) hi ha rfl ho hb
  · subst hm
    exact step_of_working_publish (publishes_imu r) hi ha rfl ho hb
  · subst hm
    exact step_of_working_publish (publishes_att a) hi ha rfl ho hb
  · subst hm
    exact step_of_working_publish (publishes_echo v) hi ha rfl ho hb

end Sys2Proof.Machine
end

section
/-! The wire: the payload coders, the decoder and the encoder invert each other, what is malformed is rejected by name, and
what the checksum detects (30_encoding.md R81 to R100; 42_framer.md R167). -/

namespace Sys2Proof

/-! ### Fields -/

theorem le16_lo8_hi8_of_isU16 {v : Int} (h : isU16 v = true) : le16 (lo8 v) (hi8 v) = v := by
  simp only [isU16, Bool.and_eq_true, decide_eq_true_eq] at h
  exact le16_lo8_hi8 h.1 h.2

theorem sext16_le16_encI16 {v : Int} (h : isI16 v = true) : sext16 (le16 (lo8 (encI16 v)) (hi8 (encI16 v))) = v := by
  rw [le16_lo8_hi8 (encI16_range v).1 (encI16_range v).2, sext16_encI16 h]

theorem isU16_le16 (a b : Byte) : isU16 (le16 a b) = true := by
  simpa [isU16] using le16_range a b

theorem isI16_sext16_le16 (a b : Byte) : isI16 (sext16 (le16 a b)) = true :=
  isI16_sext16 (le16_range a b).1 (le16_range a b).2

theorem u16Bytes_le16 (a b : Byte) : u16Bytes (le16 a b) = [a, b] := by
  rw [u16Bytes, lo8_le16, hi8_le16]

theorem i16Bytes_sext16_le16 (a b : Byte) : i16Bytes (sext16 (le16 a b)) = [a, b] := by
  rw [i16Bytes, encI16_sext16 (le16_range a b).1 (le16_range a b).2, lo8_le16, hi8_le16]

/-! ### Payloads -/

theorem decMotor_encMotor {cmd : Lanes Int} (h : cmd.all isU16 = true) : decMotor (encMotor cmd) = cmd := by
  simp only [Lanes.all, Bool.and_eq_true] at h
  obtain ⟨⟨⟨h0, h1⟩, h2⟩, h3⟩ := h
  simp [decMotor, encMotor, u16Bytes, u16At, le16_lo8_hi8_of_isU16, *]

theorem decImu_encImu {r : RawInertialSample} (h : r.inRange = true) : decImu (encImu r) = r := by
  simp only [RawInertialSample.inRange, Bool.and_eq_true] at h
  obtain ⟨⟨⟨⟨⟨h0, h1⟩, h2⟩, h3⟩, h4⟩, h5⟩ := h
  simp [decImu, encImu, i16Bytes, i16At, u16At, sext16_le16_encI16, *]

theorem decAtt_encAtt {a : AttitudeSample} (h : a.inRange = true) : decAtt (encAtt a) = a := by
  simp only [AttitudeSample.inRange, Bool.and_eq_true] at h
  obtain ⟨⟨h0, h1⟩, h2⟩ := h
  simp [decAtt, encAtt, i16Bytes, i16At, u16At, sext16_le16_encI16, *]

theorem encMotor_decMotor {p : List Byte} (h : p.length = 8) : encMotor (decMotor p) = p := by
  match p, h with
  | [_, _, _, _, _, _, _, _], _ => simp [encMotor, decMotor, u16At, u16Bytes_le16]

theorem encImu_decImu {p : List Byte} (h : p.length = 12) : encImu (decImu p) = p := by
  match p, h with
  | [_, _, _, _, _, _, _, _, _, _, _, _], _ => simp [encImu, decImu, i16At, u16At, i16Bytes_sext16_le16]

theorem encAtt_decAtt {p : List Byte} (h : p.length = 6) : encAtt (decAtt p) = p := by
  match p, h with
  | [_, _, _, _, _, _], _ => simp [encAtt, decAtt, i16At, u16At, i16Bytes_sext16_le16]

theorem decMotor_all_isU16 (p : List Byte) : (decMotor p).all isU16 = true := by
  simp [decMotor, Lanes.all, u16At, isU16_le16]

theorem decImu_inRange (p : List Byte) : (decImu p).inRange = true := by
  simp [decImu, RawInertialSample.inRange, i16At, u16At, isI16_sext16_le16]

theorem decAtt_inRange (p : List Byte) : (decAtt p).inRange = true := by
  simp [decAtt, AttitudeSample.inRange, i16At, u16At, isI16_sext16_le16]

/-- Settles O5: each coder is the other's inverse field by field, and a decoded field is always in range. -/
theorem payloadCodersInvertEachOther : Obligations.PayloadCodersInvertEachOther :=
  ⟨fun _ => decMotor_encMotor, fun _ => decImu_encImu, fun _ => decAtt_encAtt,
    fun p hp => ⟨encMotor_decMotor hp, decMotor_all_isU16 p⟩, fun p hp => ⟨encImu_decImu hp, decImu_inRange p⟩,
    fun p hp => ⟨encAtt_decAtt hp, decAtt_inRange p⟩⟩

/-! ### The decoder of a frame -/

section Decoder

variable {α : Type} {c : Config α}

theorem decodeBody_append {row : Row} {len opc chk : Byte} {p rest : List Byte} :
    (decodeBody row p.length len opc (p ++ chk :: rest) : Except Reject (Instr α × List Byte)) =
      if chk = checksum len opc p then .ok (row.build opc p, rest) else .error .badChecksum := by
  simp only [decodeBody, List.drop_left, List.take_left]

/-- With a header that belongs to a row, the payload its LEN announces and a CHK, the decoder's answer turns on CHK. -/
theorem decode_of_headerRow {y : Sync} {opc chk : Byte} {p rest : List Byte} {row : Row} (hp : p.length < 256)
    (hrow : headerRow c y p.length opc = .ok row) :
    decode c (y.bytes ++ lenByte p :: opc :: (p ++ chk :: rest)) =
      if chk = checksum (lenByte p) opc p then .ok (row.build opc p, rest) else .error .badChecksum := by
  simp only [decode, Sync.bytes, List.cons_append, List.nil_append, lenByte_toNat hp, hrow, decodeBody_append]

theorem decode_of_headerRow_error {y : Sync} {len opc : Byte} {rest : List Byte} {e : Reject}
    (h : headerRow c y len.toNat opc = .error e) : decode c (y.bytes ++ len :: opc :: rest) = .error e := by
  simp only [decode, Sync.bytes, List.cons_append, List.nil_append, h]

theorem decode_frameBytes {y : Sync} {opc : Byte} {p : List Byte} {row : Row} (hp : p.length < 256)
    (hrow : headerRow c y p.length opc = .ok row) (rest : List Byte) :
    decode c (frameBytes y opc p ++ rest) = .ok (row.build opc p, rest) := by
  have happ : frameBytes y opc p ++ rest =
      y.bytes ++ lenByte p :: opc :: (p ++ checksum (lenByte p) opc p :: rest) := by
    simp [frameBytes]
  rw [happ, decode_of_headerRow hp hrow, if_pos rfl]

theorem decodeBody_eq_ok {row : Row} {n : Nat} {len opc : Byte} {bs rest : List Byte} {i : Instr α}
    (h : decodeBody row n len opc bs = .ok (i, rest)) :
    ∃ p, p.length = n ∧ i = row.build opc p ∧ bs = p ++ checksum len opc p :: rest := by
  unfold decodeBody at h
  split at h
  · cases h
  · rename_i chk after hdrop
    split at h
    · rename_i hchk
      cases h
      have hlen : (bs.take n).length = n := by
        have := congrArg List.length hdrop
        simp only [List.length_drop, List.length_cons] at this
        rw [List.length_take]
        omega
      exact ⟨bs.take n, hlen, rfl, by rw [← hchk, ← hdrop, List.take_append_drop]⟩
    · cases h

/-- Whatever the decoder reads is a whole frame with a header of the table. -/
theorem decode_eq_ok {bs rest : List Byte} {i : Instr α} (h : decode c bs = .ok (i, rest)) :
    ∃ y opc p row, headerRow c y p.length opc = .ok row ∧ i = row.build opc p ∧ bs = frameBytes y opc p ++ rest := by
  unfold decode at h
  split at h
  · rename_i s0 s1 s2 len opc bs
    split at h
    · cases h
    · rename_i row hrow
      obtain ⟨p, hp, rfl, rfl⟩ := decodeBody_eq_ok h
      have hlen : lenByte p = len := by
        rw [lenByte, hp, BitVec.ofNat_toNat, BitVec.setWidth_eq]
      refine ⟨⟨s0, s1, s2⟩, opc, p, row, by rwa [hp], rfl, ?_⟩
      simp [frameBytes_eq, hlen]
  · cases h

/-! ### The rows of the table -/

theorem headerRow_setMotor : headerRow c c.syncTx 8 c.opcSetMotor = .ok .setMotor := by
  simp [headerRow]

theorem headerRow_queryRawImu : headerRow c c.syncTx 0 c.opcQueryRawImu = .ok .queryRawImu := by
  simp [headerRow]

theorem headerRow_queryAttitude (h : c.opcQueryRawImu ≠ c.opcQueryAttitude) :
    headerRow c c.syncTx 0 c.opcQueryAttitude = .ok .queryAttitude := by
  simp [headerRow, h.symm]

theorem headerRow_rawImu : headerRow c c.syncRx 12 c.opcRawImu = .ok .rawImu := by
  simp [headerRow]

theorem headerRow_attitude : headerRow c c.syncRx 6 c.opcAttitude = .ok .attitude := by
  simp [headerRow]

theorem isOtherFrame_iff {n : Nat} {opc : Byte} :
    isOtherFrame c n opc = true ↔ n ≤ c.maxPayload ∧ ¬(n = 12 ∧ opc = c.opcRawImu) ∧ ¬(n = 6 ∧ opc = c.opcAttitude) ∧
      ¬(c.syncRx = c.syncTx ∧ n = 8 ∧ opc = c.opcSetMotor) ∧
      ¬(c.syncRx = c.syncTx ∧ n = 0 ∧ opc = c.opcQueryRawImu) ∧
      ¬(c.syncRx = c.syncTx ∧ n = 0 ∧ opc = c.opcQueryAttitude) := by
  simp only [isOtherFrame, isTypedInboundHeader, isOutboundHeader, Bool.and_eq_true, Bool.not_eq_true',
    Bool.or_eq_false_iff, Bool.and_eq_false_iff, decide_eq_true_eq, beq_eq_false_iff_ne]
  rw [eq_comm (a := c.syncRx)]
  tauto

theorem headerRow_other {n : Nat} {opc : Byte} (h : isOtherFrame c n opc = true) :
    headerRow c c.syncRx n opc = .ok .other := by
  obtain ⟨hle, himu, hatt, hmotor, hqImu, hqAtt⟩ := isOtherFrame_iff.1 h
  simp only [headerRow, true_and, hmotor, hqImu, hqAtt, himu, hatt, if_false, if_true, if_pos hle]

/-- A header of the inbound direction whose LEN is not malformed belongs to some row. -/
theorem headerRow_syncRx_ok {n : Nat} (hn : n ≤ c.maxPayload) (opc : Byte) :
    ∃ row, headerRow c c.syncRx n opc = .ok row := by
  simp only [headerRow, true_and, if_true, if_pos hn]
  split_ifs <;> exact ⟨_, rfl⟩

theorem headerRow_badLength (hmax : 12 ≤ c.maxPayload) {n : Nat} (hn : c.maxPayload < n) (opc : Byte) :
    headerRow c c.syncRx n opc = .error .badLength := by
  have h0 : n ≠ 0 := by omega
  have h6 : n ≠ 6 := by omega
  have h8 : n ≠ 8 := by omega
  have h12 : n ≠ 12 := by omega
  simp [headerRow, h0, h6, h8, h12, hn]

theorem headerRow_noSync {y : Sync} (htx : y ≠ c.syncTx) (hrx : y ≠ c.syncRx) (n : Nat) (opc : Byte) :
    headerRow c y n opc = .error .noSync := by
  simp [headerRow, htx, hrx]

/-- The instruction built from a header of the table and a payload of its length is well formed, and its encoding is the
frame of that header and that payload. -/
theorem wf_encode_build {y : Sync} {opc : Byte} {p : List Byte} {row : Row}
    (h : headerRow c y p.length opc = .ok row) :
    (row.build opc p : Instr α).wf c = true ∧ encode c (row.build opc p) = some (frameBytes y opc p) := by
  unfold headerRow at h
  split_ifs at h with hmotor hqImu hqAtt himu hatt hrx hle htx <;> cases h
  · obtain ⟨rfl, hn, rfl⟩ := hmotor
    exact ⟨decMotor_all_isU16 p, by rw [Row.build, encode, encMotor_decMotor hn]⟩
  · obtain ⟨rfl, hn, rfl⟩ := hqImu
    rw [List.length_eq_zero_iff] at hn
    exact ⟨rfl, by rw [Row.build, encode, hn]⟩
  · obtain ⟨rfl, hn, rfl⟩ := hqAtt
    rw [List.length_eq_zero_iff] at hn
    exact ⟨rfl, by rw [Row.build, encode, hn]⟩
  · obtain ⟨rfl, hn, rfl⟩ := himu
    exact ⟨decImu_inRange p, by rw [Row.build, encode, encImu_decImu hn]⟩
  · obtain ⟨rfl, hn, rfl⟩ := hatt
    exact ⟨decAtt_inRange p, by rw [Row.build, encode, encAtt_decAtt hn]⟩
  · subst hrx
    rw [eq_self, true_and] at himu hatt
    exact ⟨isOtherFrame_iff.2 ⟨hle, himu, hatt, hmotor, hqImu, hqAtt⟩, rfl⟩

/-- The encoding of a well-formed frame is a frame with a header of its own row, from which it is built again. -/
theorem encode_eq_some (hquery : c.opcQueryRawImu ≠ c.opcQueryAttitude) {i : Instr α} {f : List Byte}
    (hwf : i.wf c = true) (he : encode c i = some f) (hmax : c.maxPayload ≤ 255) :
    ∃ y opc p row, p.length < 256 ∧ headerRow c y p.length opc = .ok row ∧ f = frameBytes y opc p ∧
      row.build opc p = i := by
  cases i with
  | setMotor cmd =>
    cases he
    exact ⟨_, _, _, .setMotor, by simp, headerRow_setMotor, rfl, congrArg Instr.setMotor (decMotor_encMotor hwf)⟩
  | queryRawImu => cases he; exact ⟨_, _, _, _, by simp, headerRow_queryRawImu, rfl, rfl⟩
  | queryAttitude => cases he; exact ⟨_, _, _, _, by simp, headerRow_queryAttitude hquery, rfl, rfl⟩
  | rawImu r =>
    cases he
    exact ⟨_, _, _, .rawImu, by simp, headerRow_rawImu, rfl, congrArg Instr.rawImu (decImu_encImu hwf)⟩
  | attitude a =>
    cases he
    exact ⟨_, _, _, .attitude, by simp, headerRow_attitude, rfl, congrArg Instr.attitude (decAtt_encAtt hwf)⟩
  | otherFrame opc p =>
    cases he
    obtain ⟨hle, -⟩ := isOtherFrame_iff.1 hwf
    exact ⟨_, _, _, _, by omega, headerRow_other hwf, rfl, rfl⟩
  | _ => cases he

end Decoder

/-! ### The statements about the decoder -/

/-- Settles O2: the frame's header belongs to the frame's own row, and the decoder reads the payload it announces. -/
theorem decodingAnEncodedFrameGivesItBack : Obligations.DecodingAnEncodedFrameGivesItBack := by
  intro c i f rest hc hwf he
  obtain ⟨-, -, -, -, hquery, -, -, hmax⟩ := Machine.wire_of_legal hc
  obtain ⟨y, opc, p, row, hp, hrow, rfl, rfl⟩ := encode_eq_some hquery hwf he hmax
  exact decode_frameBytes hp hrow rest

/-- Settles O3: what was read is a frame of the table (`decode_eq_ok`), and such a frame is the encoding of what is built
from it (`wf_encode_build`). -/
theorem aDecodedFrameIsWellFormedAndReencodes : Obligations.ADecodedFrameIsWellFormedAndReencodes := by
  intro c bs rest i _ h
  obtain ⟨y, opc, p, row, hrow, rfl, rfl⟩ := decode_eq_ok h
  obtain ⟨hwf, henc⟩ := wf_encode_build hrow
  exact ⟨hwf, _, henc, rfl⟩

/-- Settles O4: the first two headers belong to no row; the third belongs to one, and its CHK decides. -/
theorem malformedFramesAreRejectedByName : Obligations.MalformedFramesAreRejectedByName := by
  intro c y len opc chk p rest hc
  obtain ⟨-, -, -, -, -, -, hlo, hhi⟩ := Machine.wire_of_legal hc
  refine ⟨fun htx hrx => ?_, fun hlen => ?_, fun hp hchk => ?_⟩
  · exact decode_of_headerRow_error (headerRow_noSync htx hrx _ _)
  · exact decode_of_headerRow_error (headerRow_badLength hlo hlen _)
  · obtain ⟨row, hrow⟩ := headerRow_syncRx_ok hp opc
    rw [decode_of_headerRow (by omega) hrow, if_neg hchk]

/-- A well-formed frame of the default configuration, alone on the wire. -/
theorem decode_default_of_encode {i : Instr} {f : List Byte} (hwf : i.wf Config.default = true)
    (he : encode Config.default i = some f) : decode Config.default f = .ok (i, []) := by
  have h := decodingAnEncodedFrameGivesItBack Config.default i f [] (by decide +kernel) hwf he
  rwa [List.append_nil] at h

/-- Settles O1: each example is the encoding of its row's instruction. -/
theorem exampleFramesDecodeToTheirRows : Obligations.ExampleFramesDecodeToTheirRows := by
  refine ⟨?_, ?_, ?_, ?_, ?_, ?_⟩
  all_goals exact decode_default_of_encode (by decide +kernel) (by decide +kernel)

/-! ### The checksum -/

theorem xorAll_set {bs : List Byte} {i : Nat} (h : i < bs.length) (b : Byte) :
    xorAll (bs.set i b) = xorAll bs ^^^ (bs.getD i 0 ^^^ b) := by
  induction bs generalizing i with
  | nil => cases h
  | cons a bs ih =>
    cases i with
    | zero =>
      rw [List.set_cons_zero, List.getD_cons_zero, xorAll_cons, xorAll_cons]
      calc b ^^^ xorAll bs = xorAll bs ^^^ (a ^^^ a) ^^^ b := by simp [BitVec.xor_comm]
        _ = a ^^^ xorAll bs ^^^ (a ^^^ b) := by ac_rfl
    | succ i =>
      rw [List.set_cons_succ, List.getD_cons_succ, xorAll_cons, xorAll_cons, ih (Nat.lt_of_succ_lt_succ h),
        BitVec.xor_assoc]

/-- One changed byte changes the checksum. -/
theorem xorAll_set_ne {bs : List Byte} {i : Nat} {b : Byte} (h : i < bs.length) (hb : b ≠ bs.getD i 0) :
    xorAll (bs.set i b) ≠ xorAll bs := by
  rw [xorAll_set h]
  intro hx
  have hzero : bs.getD i 0 ^^^ b = 0 := by
    simpa [← BitVec.xor_assoc] using congrArg (xorAll bs ^^^ ·) hx
  exact hb (BitVec.xor_eq_zero_iff.1 hzero).symm

/-- The same pattern folded into two bytes cancels. -/
theorem xorAll_set_set {bs : List Byte} {i j : Nat} (d : Byte) (hi : i < bs.length) (hj : j < bs.length) (hij : i ≠ j) :
    xorAll ((bs.set i (bs.getD i 0 ^^^ d)).set j (bs.getD j 0 ^^^ d)) = xorAll bs := by
  have hgetD : (bs.set i (bs.getD i 0 ^^^ d)).getD j 0 = bs.getD j 0 := by
    simp only [List.getD_eq_getElem?_getD, List.getElem?_set_ne hij]
  have hpattern : ∀ x : Byte, x ^^^ (x ^^^ d) = d := fun x => by simp
  rw [xorAll_set (by simpa using hj), hgetD, xorAll_set hi, hpattern, hpattern, BitVec.xor_assoc, BitVec.xor_self,
    BitVec.xor_zero]

theorem xorAll_encMotor (cmd : Lanes Int) :
    xorAll (encMotor cmd) =
      xorAll (u16Bytes cmd.l0) ^^^ xorAll (u16Bytes cmd.l1) ^^^ xorAll (u16Bytes cmd.l2) ^^^ xorAll (u16Bytes cmd.l3) := by
  simp only [encMotor, xorAll_append]

/-- Two pairs of equal lanes cancel in the motor frame's checksum, wherever they stand. -/
theorem checksum_encMotor_of_pairs {cmd : Lanes Int} (h : xorAll (encMotor cmd) = 0) :
    checksum 0x08 0xD6 (encMotor cmd) = 0xDE := by
  rw [checksum_eq, h]
  decide

/-- Settles O6: changing a byte folds the difference of the two bytes into the exclusive-or (`xorAll_set`), and equal
lanes cancel in it. -/
theorem checksumDetectsOneChangedByteAndMissesEqualPairs :
    Obligations.ChecksumDetectsOneChangedByteAndMissesEqualPairs := by
  refine ⟨fun bs i b => xorAll_set_ne, fun bs i j d => xorAll_set_set d, fun a b => ⟨?_, ?_, ?_⟩⟩
  all_goals
    apply checksum_encMotor_of_pairs
    rw [xorAll_encMotor]
  · simp
  · have hcomm : ∀ x y : Byte, x ^^^ y ^^^ x ^^^ y = (x ^^^ x) ^^^ (y ^^^ y) := fun x y => by ac_rfl
    rw [hcomm]
    simp
  · have hcomm : ∀ x y : Byte, x ^^^ y ^^^ y ^^^ x = (x ^^^ x) ^^^ (y ^^^ y) := fun x y => by ac_rfl
    rw [hcomm]
    simp

end Sys2Proof
end

section
/-! The receiver: one FEED keeps the receiver's invariant and always answers, and what feeding a byte sequence can do
(43_parser.md R180 to R201). -/

namespace Sys2Proof.Machine

/-! ### The bytes of RX_BUF -/

theorem bufByte_congr {α : Type} {s t : State α} (h : t.rxBuf = s.rxBuf) : bufByte t = bufByte s := by
  funext i
  rw [bufByte, bufByte, h]

theorem bufByte_of_write {α : Type} {s t : State α} {i : Nat} {b : Byte} (h : t.rxBuf = Memory.write s.rxBuf i b)
    (k : Nat) : bufByte t k = if k = i then b else bufByte s k := by
  rw [← bufByte_write, bufByte, bufByte, h]

theorem writtenBelow_congr {n : Nat} {s t : State} (h : t.rxBuf = s.rxBuf) : writtenBelow n t ↔ writtenBelow n s := by
  rw [writtenBelow, writtenBelow, h]

theorem writtenBelow_succ_of_write {s t : State} {i : Nat} {b : Byte} (h : t.rxBuf = Memory.write s.rxBuf i b)
    (hw : writtenBelow i s) : writtenBelow (i + 1) t := by
  intro k hk
  rw [h]
  rcases Nat.lt_succ_iff_lt_or_eq.1 hk with hlt | rfl
  · rw [Memory.read_write_other (Nat.ne_of_lt hlt)]
    exact hw k hlt
  · rw [Memory.read_write_same]
    rfl

/-! ### The running checksum -/

theorem runningChecksum_congr {s t : State} (hl : t.rxLen = s.rxLen) (ho : t.rxOpc = s.rxOpc) (hi : t.rxIdx = s.rxIdx)
    (hb : t.rxBuf = s.rxBuf) : runningChecksum t = runningChecksum s := by
  rw [runningChecksum, runningChecksum, hl, ho, hi, bufByte_congr hb]

/-- Before the first payload byte the checksum covers LEN and OPC alone. -/
theorem runningChecksum_of_idx_zero {s : State} (hi : s.rxIdx = 0) :
    runningChecksum s = BitVec.ofNat 8 s.rxLen ^^^ s.rxOpc := by
  simp [runningChecksum, hi, checksum_eq]

/-- A payload byte stored at RX_IDX is folded into the checksum. -/
theorem runningChecksum_of_store {s t : State} {b : Byte} (hl : t.rxLen = s.rxLen) (ho : t.rxOpc = s.rxOpc)
    (hi : t.rxIdx = s.rxIdx + 1) (hb : t.rxBuf = Memory.write s.rxBuf s.rxIdx b) :
    runningChecksum t = runningChecksum s ^^^ b := by
  have hold : (List.range s.rxIdx).map (bufByte t) = (List.range s.rxIdx).map (bufByte s) := by
    refine List.map_congr_left fun k hk => ?_
    rw [bufByte_of_write hb, if_neg (Nat.ne_of_lt (List.mem_range.1 hk))]
  have hnew : bufByte t s.rxIdx = b := by rw [bufByte_of_write hb, if_pos rfl]
  rw [runningChecksum, runningChecksum, hl, ho, hi, List.range_succ, List.map_append, hold, checksum_eq, checksum_eq,
    xorAll_append]
  simp [hnew, xorAll_cons, BitVec.xor_assoc]

/-! ### The invariant -/

/-- Outside a frame the cursor is at rest. -/
theorem cursorInv_of_not_inFrame {s : State} (h : s.rxPhase.inFrame = false) :
    cursorInv s ↔ s.rxIdx = 0 ∧ s.rxChk = 0 := by
  rw [cursorInv]
  cases hp : s.rxPhase <;> simp_all [Phase.inFrame]

section Cursor

variable {s : State}

theorem cursorInv_opc (hp : s.rxPhase = .opc) : cursorInv s ↔ s.rxIdx = 0 ∧ s.rxChk = BitVec.ofNat 8 s.rxLen := by
  rw [cursorInv, hp]

theorem cursorInv_payload (hp : s.rxPhase = .payload) :
    cursorInv s ↔ s.rxIdx < s.rxLen ∧ s.rxChk = runningChecksum s ∧ writtenBelow s.rxIdx s := by
  rw [cursorInv, hp]

theorem cursorInv_chk (hp : s.rxPhase = .chk) :
    cursorInv s ↔ s.rxIdx = s.rxLen ∧ s.rxChk = runningChecksum s ∧ writtenBelow s.rxIdx s := by
  rw [cursorInv, hp]

/-- With RX_IDX payload bytes received, the phase tells whether they are all of them. -/
theorem cursorInv_of_received (hp : s.rxPhase = if s.rxIdx = s.rxLen then .chk else .payload) (hle : s.rxIdx ≤ s.rxLen)
    (hk : s.rxChk = runningChecksum s) (hw : writtenBelow s.rxIdx s) : cursorInv s := by
  by_cases hi : s.rxIdx = s.rxLen
  · exact (cursorInv_chk (hp.trans (if_pos hi))).2 ⟨hi, hk, hw⟩
  · exact (cursorInv_payload (hp.trans (if_neg hi))).2 ⟨Nat.lt_of_le_of_ne hle hi, hk, hw⟩

end Cursor

/-- The invariant reads the receiver and MAX_PAYLOAD alone. -/
theorem ReceiverInv.congr {s t : State} (h : ReceiverInv s) (hr : SameReceiver s t) (hc : t.cfg = s.cfg) :
    ReceiverInv t := by
  obtain ⟨hcan, hbound, hlen, hcur, hlat⟩ := h
  obtain ⟨hp, hl, ho, hi, hk, hb, hv⟩ := hr
  refine ⟨by rwa [hb], by rwa [hb, hc], by rwa [hl, hc], ?_, ?_⟩
  · rw [cursorInv] at hcur ⊢
    rwa [hp, hi, hk, hl, runningChecksum_congr hl ho hi hb, writtenBelow_congr hb]
  · rwa [hv, hp, hl, writtenBelow_congr hb]

/-- A receiver whose cursor is at rest and that has latched nothing meets the invariant. -/
theorem ReceiverInv.of_cleared {s t : State} (h : ReceiverInv s) (hc : t.cfg = s.cfg) (hb : t.rxBuf = s.rxBuf)
    (hl : t.rxLen = s.rxLen) (hp : t.rxPhase.inFrame = false) (hi : t.rxIdx = 0) (hk : t.rxChk = 0)
    (hv : t.rxValid = false) : ReceiverInv t where
  bufCanonical := by rw [hb]; exact h.bufCanonical
  bufBounded := by rw [hb, hc]; exact h.bufBounded
  lenBound := by rw [hl, hc]; exact h.lenBound
  cursor := (cursorInv_of_not_inFrame hp).2 ⟨hi, hk⟩
  latched := fun h => by rw [hv] at h; cases h

theorem ReceiverInv.idx_lt_maxPayload {s : State} (h : ReceiverInv s) (hp : s.rxPhase = .payload) :
    s.rxIdx < s.cfg.maxPayload :=
  ((cursorInv_payload hp).1 h.cursor).1.trans_le h.lenBound

/-! ### One FEED -/

/-- FEED answers unless it would store a byte at an index that does not exist. -/
theorem feedByte_total {s : State} (h : ReceiverInv s) (b : Byte) : ∃ t, feedByte b s = .next t := by
  cases hp : s.rxPhase with
  | sync0 => exact ⟨_, feedByte_sync0 hp⟩
  | sync1 => exact ⟨_, feedByte_sync1 hp⟩
  | sync2 => exact ⟨_, feedByte_sync2 hp⟩
  | len =>
    rcases Nat.lt_or_ge s.cfg.maxPayload b.toNat with hb | hb
    · exact ⟨_, feedByte_len_drop hp hb⟩
    · exact ⟨_, feedByte_len_ok hp hb⟩
  | opc => exact ⟨_, feedByte_opc hp⟩
  | payload => exact ⟨_, feedByte_payload hp (h.idx_lt_maxPayload hp)⟩
  | chk => exact ⟨_, feedByte_chk hp⟩

theorem feedByte_keeps_receiverInv {s t : State} {b : Byte} (h : ReceiverInv s) (hf : feedByte b s = .next t) :
    ReceiverInv t := by
  have rest : s.rxPhase.inFrame = false → s.rxIdx = 0 ∧ s.rxChk = 0 := fun hp =>
    (cursorInv_of_not_inFrame hp).1 h.cursor
  cases hp : s.rxPhase with
  | sync0 =>
    obtain ⟨hi, hk⟩ := rest (by rw [hp]; rfl)
    rw [feedByte_sync0 hp] at hf
    cases hf
    exact h.of_cleared rfl rfl rfl (by dsimp only; split <;> rfl) hi hk rfl
  | sync1 =>
    obtain ⟨hi, hk⟩ := rest (by rw [hp]; rfl)
    rw [feedByte_sync1 hp] at hf
    cases hf
    exact h.of_cleared rfl rfl rfl (by dsimp only; split_ifs <;> rfl) hi hk rfl
  | sync2 =>
    obtain ⟨hi, hk⟩ := rest (by rw [hp]; rfl)
    rw [feedByte_sync2 hp] at hf
    cases hf
    exact h.of_cleared rfl rfl rfl (by dsimp only; split_ifs <;> rfl) hi hk rfl
  | len =>
    rcases Nat.lt_or_ge s.cfg.maxPayload b.toNat with hb | hb
    · rw [feedByte_len_drop hp hb] at hf
      cases hf
      exact h.of_cleared rfl rfl rfl rfl rfl rfl rfl
    · rw [feedByte_len_ok hp hb] at hf
      cases hf
      exact ⟨h.bufCanonical, h.bufBounded, hb, (cursorInv_opc rfl).2 ⟨rfl, by simp⟩, fun hv => by cases hv⟩
  | opc =>
    obtain ⟨hi, hk⟩ := (cursorInv_opc hp).1 h.cursor
    rw [feedByte_opc hp] at hf
    cases hf
    refine ⟨h.bufCanonical, h.bufBounded, h.lenBound, ?_, fun hv => by cases hv⟩
    refine cursorInv_of_received (by simp [hi, eq_comm]) (by simp [hi]) ?_ fun k hlt => absurd hlt (by simp [hi])
    rw [runningChecksum_of_idx_zero (by exact hi), hk]
  | payload =>
    obtain ⟨hlt, hk, hwritten⟩ := (cursorInv_payload hp).1 h.cursor
    have hmax := h.idx_lt_maxPayload hp
    rw [feedByte_payload hp hmax] at hf
    cases hf
    refine ⟨Memory.wf_write h.bufCanonical, Memory.below_write h.bufBounded hmax, h.lenBound, ?_, fun hv => by cases hv⟩
    have hsum : s.rxChk ^^^ b = runningChecksum s ^^^ b := by rw [hk]
    refine cursorInv_of_received rfl hlt (hsum.trans (Eq.symm ?_)) (writtenBelow_succ_of_write rfl hwritten)
    exact runningChecksum_of_store rfl rfl rfl rfl
  | chk =>
    obtain ⟨hlen, -, hwritten⟩ := (cursorInv_chk hp).1 h.cursor
    rw [feedByte_chk hp] at hf
    cases hf
    exact ⟨h.bufCanonical, h.bufBounded, h.lenBound, (cursorInv_of_not_inFrame rfl).2 ⟨rfl, rfl⟩,
      fun _ => ⟨rfl, by rwa [hlen] at hwritten⟩⟩

theorem feedByte_halted {s t : State} {b : Byte} (h : feedByte b s = .next t) : t.halted = s.halted := by
  rw [(feedByte_effect h).1]
  rfl

theorem feedByte_cfg {s t : State} {b : Byte} (h : feedByte b s = .next t) : t.cfg = s.cfg := by
  rw [(feedByte_effect h).1]
  rfl

/-- A FEED changes RX_BUF at RX_IDX alone. -/
theorem feedByte_bufByte {s t : State} {b : Byte} (h : feedByte b s = .next t) {k : Nat} (hk : k ≠ s.rxIdx) :
    bufByte t k = bufByte s k := by
  obtain ⟨-, -, hb | ⟨hb, -⟩⟩ := feedByte_effect h
  · rw [bufByte_congr hb]
  · rw [bufByte_of_write hb, if_neg hk]

/-- Settles O31: `feedByte_total`, `feedByte_keeps_receiverInv`, and `feedByte_effect` for what is touched. -/
theorem feedIsTotalAndTouchesOnlyTheReceiver : Obligations.FeedIsTotalAndTouchesOnlyTheReceiver := by
  intro s b _ hinv hrun
  obtain ⟨t, ht⟩ := feedByte_total hinv b
  obtain ⟨htouch, hout, -⟩ := feedByte_effect ht
  exact ⟨t, t.rxValid, (exec_feed hrun b).trans ht, hout, rfl, feedByte_keeps_receiverInv hinv ht, htouch,
    fun k hk => feedByte_bufByte ht hk⟩

/-! ### Feeding a sequence -/

theorem feedAll_cons_eq_next {b : Byte} {bs : List Byte} {s u : State} :
    feedAll (b :: bs) s = .next u ↔ ∃ t, feedByte b s = .next t ∧ feedAll bs t = .next u :=
  thenDo_eq_next

theorem feedAll_total {bs : List Byte} {s : State} (h : ReceiverInv s) : ∃ t, feedAll bs s = .next t := by
  induction bs generalizing s with
  | nil => exact ⟨s, rfl⟩
  | cons b bs ih =>
    obtain ⟨t, ht⟩ := feedByte_total h b
    obtain ⟨u, hu⟩ := ih (feedByte_keeps_receiverInv h ht)
    exact ⟨u, feedAll_cons_eq_next.2 ⟨t, ht, hu⟩⟩

theorem feedAll_keeps_receiverInv {bs : List Byte} {s t : State} (h : ReceiverInv s) (hf : feedAll bs s = .next t) :
    ReceiverInv t := by
  induction bs generalizing s with
  | nil => cases hf; exact h
  | cons b bs ih =>
    obtain ⟨u, hu, ht⟩ := feedAll_cons_eq_next.1 hf
    exact ih (feedByte_keeps_receiverInv h hu) ht

/-- Feeding operation by operation in a running block: one FEED, then the rest. -/
theorem feedRun_cons_of_feedByte {b : Byte} {bs : List Byte} {s t : State} (hrun : s.halted = false)
    (h : feedByte b s = .next t) : feedRun (b :: bs) s = (feedRun bs t).map fun r => (t.rxValid :: r.1, r.2) :=
  feedRun_cons ((exec_feed hrun b).trans h) (feedByte_effect h).2.1

/-- In a running block, feeding operation by operation is FEEDS. -/
theorem exists_feedRun_iff_feedAll {bs : List Byte} {s t : State} (hrun : s.halted = false) :
    (∃ ds, feedRun bs s = some (ds, t)) ↔ feedAll bs s = .next t := by
  induction bs generalizing s with
  | nil => simp [feedRun, feedAll]
  | cons b bs ih =>
    cases hb : feedByte b s with
    | next u =>
      rw [feedRun_cons_of_feedByte hrun hb, feedAll, hb, thenDo_next, ← ih (by rw [feedByte_halted hb, hrun])]
      simp
    | fault r => simp [feedRun, exec_feed hrun, feedAll, hb, thenDo]
    | refused r => simp [feedRun, exec_feed hrun, feedAll, hb, thenDo]

end Sys2Proof.Machine
end

section
/-! Feeding frames: the sync bytes are found wherever they stand, a whole frame is reconstructed, a corrupted one dropped,
and a partial one ends soon (43_parser.md R183, R201 to R203). -/

namespace Sys2Proof.Machine

/-! ### Stored payloads -/

/-- RX_BUF after the bytes of `p` have been stored from index `i` on. -/
def Memory.writeFrom : Memory → Nat → List Byte → Memory
  | m, _, [] => m
  | m, i, b :: p => Memory.writeFrom (Memory.write m i b) (i + 1) p

theorem Memory.read_writeFrom (m : Memory) (i : Nat) (p : List Byte) (k : Nat) :
    Memory.read (Memory.writeFrom m i p) k =
      if i ≤ k ∧ k < i + p.length then some (p.getD (k - i) 0) else Memory.read m k := by
  induction p generalizing m i with
  | nil =>
    rw [Memory.writeFrom, if_neg (by simp)]
  | cons b p ih =>
    rw [Memory.writeFrom, ih, List.length_cons]
    rcases Nat.lt_trichotomy k i with hlt | rfl | hgt
    · rw [if_neg (by omega), if_neg (by omega), Memory.read_write_other (Nat.ne_of_lt hlt)]
    · rw [if_neg (by omega), if_pos (by omega), Memory.read_write_same, Nat.sub_self, List.getD_cons_zero]
    · by_cases hk : k < i + (p.length + 1)
      · rw [if_pos (by omega), if_pos (by omega), show k - i = k - (i + 1) + 1 by omega, List.getD_cons_succ]
      · rw [if_neg (by omega), if_neg (by omega), Memory.read_write_other (Nat.ne_of_gt hgt)]

/-- RX_BUF with a payload stored from index 0: its bytes there, and every other index as it was. -/
theorem bufByte_writeFrom {s t : State} {p : List Byte} (h : t.rxBuf = Memory.writeFrom s.rxBuf 0 p) (k : Nat) :
    bufByte t k = if k < p.length then p.getD k 0 else bufByte s k := by
  rw [bufByte, bufByte, h, Memory.read_writeFrom]
  by_cases hk : k < p.length <;> simp [hk]

theorem map_range_bufByte_writeFrom {s t : State} {p : List Byte} (h : t.rxBuf = Memory.writeFrom s.rxBuf 0 p) :
    (List.range p.length).map (bufByte t) = p := by
  refine List.ext_getElem (by simp) fun k _ hk => ?_
  simp [bufByte_writeFrom h, hk]

/-! ### One frame, byte by byte -/

/-- The receiver of `s` when it has received a header and `i` payload bytes of a frame. -/
def receiving (s : State) (n : Nat) (opc : Byte) (m : Memory) (i : Nat) (chk : Byte) : State :=
  { s with
    rxPhase := if i = n then .chk else .payload, rxLen := n, rxOpc := opc, rxIdx := i, rxChk := chk, rxBuf := m
    rxValid := false, out := .done false }

/-- The receiver of `s` when a frame has been completed, or dropped at its checksum. -/
def frameEnd (s : State) (n : Nat) (opc : Byte) (m : Memory) (d : Bool) : State :=
  { s with
    rxPhase := .sync0, rxLen := n, rxOpc := opc, rxIdx := 0, rxChk := 0, rxBuf := m, rxValid := d, out := .done d }

/-- The first sync byte leads to SYNC1 from every seeking phase, since it differs from the other two (R8, R182, R183). -/
theorem feedByte_first_sync {s : State} (hc : s.cfg.legal = true) (hp : s.rxPhase.seeking = true) :
    feedByte s.cfg.syncRx.s0 s = .next { s with rxValid := false, out := .done false, rxPhase := .sync1 } := by
  obtain ⟨h1, h2, -⟩ := wire_of_legal hc
  cases hphase : s.rxPhase with
  | sync0 => rw [feedByte_sync0 hphase, if_pos rfl]
  | sync1 => rw [feedByte_sync1 hphase, if_neg h1, if_pos rfl]
  | sync2 => rw [feedByte_sync2 hphase, if_neg h2, if_pos rfl]
  | _ => rw [hphase] at hp; cases hp

theorem feedRun_sync {s : State} (hc : s.cfg.legal = true) (hrun : s.halted = false) (hp : s.rxPhase.seeking = true) :
    feedRun s.cfg.syncRx.bytes s =
      some (List.replicate 3 false, { s with rxValid := false, out := .done false, rxPhase := .len }) := by
  rw [Sync.bytes, feedRun_cons_of_feedByte hrun (feedByte_first_sync hc hp),
    feedRun_cons_of_feedByte (by exact hrun) (feedByte_sync1 rfl),
    feedRun_cons_of_feedByte (by exact hrun) (feedByte_sync2 (by simp))]
  simp [feedRun]

/-- LEN and OPC, in phase LEN. -/
theorem feedRun_header {s : State} {len : Byte} (hrun : s.halted = false) (hp : s.rxPhase = .len)
    (hlen : len.toNat ≤ s.cfg.maxPayload) (opc : Byte) :
    feedRun [len, opc] s = some (List.replicate 2 false, receiving s len.toNat opc s.rxBuf 0 (len ^^^ opc)) := by
  rw [feedRun_cons_of_feedByte hrun (feedByte_len_ok hp hlen), feedRun_cons_of_feedByte (by exact hrun) (feedByte_opc rfl)]
  simp [feedRun, receiving, eq_comm]

theorem feedRun_payload {s : State} {n i : Nat} {p : List Byte} (hrun : s.halted = false) (hn : n ≤ s.cfg.maxPayload)
    (hi : i + p.length = n) (opc : Byte) (m : Memory) (chk : Byte) :
    feedRun p (receiving s n opc m i chk) =
      some (List.replicate p.length false, receiving s n opc (Memory.writeFrom m i p) n (chk ^^^ xorAll p)) := by
  induction p generalizing i m chk with
  | nil =>
    obtain rfl : i = n := hi
    simp [feedRun, Memory.writeFrom]
  | cons b p ih =>
    rw [List.length_cons] at hi
    have hb : feedByte b (receiving s n opc m i chk) =
        .next (receiving s n opc (Memory.write m i b) (i + 1) (chk ^^^ b)) :=
      feedByte_payload (if_neg (by omega)) (by dsimp only [receiving]; omega)
    rw [feedRun_cons_of_feedByte (by exact hrun) hb, ih (by omega)]
    simp [receiving, Memory.writeFrom, xorAll_cons, List.replicate_succ, BitVec.xor_assoc]

theorem feedRun_chk {s : State} (hrun : s.halted = false) (n : Nat) (opc : Byte) (m : Memory) (chk b : Byte) :
    feedRun [b] (receiving s n opc m n chk) =
      some ([decide (b = chk)], frameEnd s n opc m (decide (b = chk))) := by
  rw [feedRun_cons_of_feedByte (by exact hrun) (feedByte_chk (if_pos rfl))]
  simp [feedRun, receiving, frameEnd]

/-- The bytes of a frame with any checksum byte, fed in a seeking phase: false for all but the last, and the last tells
whether the checksum byte is the right one (R187 to R189, R202). -/
theorem feedRun_frame {s : State} {p : List Byte} (hc : s.cfg.legal = true) (hrun : s.halted = false)
    (hp : s.rxPhase.seeking = true) (hlen : p.length ≤ s.cfg.maxPayload) (opc chk : Byte) :
    feedRun (s.cfg.syncRx.bytes ++ ([lenByte p, opc] ++ (p ++ [chk]))) s =
      some (List.replicate (p.length + 5) false ++ [decide (chk = checksum (lenByte p) opc p)],
        frameEnd s p.length opc (Memory.writeFrom s.rxBuf 0 p) (decide (chk = checksum (lenByte p) opc p))) := by
  obtain ⟨-, -, -, -, -, -, -, hmax⟩ := wire_of_legal hc
  have hn : (lenByte p).toNat = p.length := lenByte_toNat (by omega)
  rw [feedRun_append (feedRun_sync hc hrun hp),
    feedRun_append (feedRun_header (by exact hrun) rfl (by rw [hn]; exact hlen) opc), hn,
    feedRun_append (feedRun_payload (by exact hrun) (by exact hlen) (Nat.zero_add _) opc _ _),
    feedRun_chk (by exact hrun), checksum_eq]
  simp only [Option.map_some, frameEnd, Nat.add_comm p.length 5, List.replicate_add, List.append_assoc]
  rfl

theorem feedRun_frameBytes {s : State} {p : List Byte} (hc : s.cfg.legal = true) (hrun : s.halted = false)
    (hp : s.rxPhase.seeking = true) (hlen : p.length ≤ s.cfg.maxPayload) (opc : Byte) :
    feedRun (frameBytes s.cfg.syncRx opc p) s =
      some (List.replicate (p.length + 5) false ++ [true],
        frameEnd s p.length opc (Memory.writeFrom s.rxBuf 0 p) true) := by
  simpa [frameBytes] using feedRun_frame hc hrun hp hlen opc (checksum (lenByte p) opc p)

/-! ### What the queries answer of a completed frame -/

section FrameEnd

variable {s : State} {p : List Byte} {opc : Byte}

theorem exec_getFrame_frameEnd (hrun : s.halted = false) (hlen : p.length ≤ s.cfg.maxPayload) :
    exec .getFrame (frameEnd s p.length opc (Memory.writeFrom s.rxBuf 0 p) true) =
      .next { frameEnd s p.length opc (Memory.writeFrom s.rxBuf 0 p) true with
        out := .frame (some ⟨opc, p.length, p⟩) } := by
  rw [exec_getFrame_of_valid (by exact hrun) rfl (by exact hlen)]
  simp only [frameEnd]
  rw [map_range_bufByte_writeFrom (s := s) rfl]

theorem exec_getRawImu_frameEnd {r : RawInertialSample} (hc : s.cfg.legal = true) (hrun : s.halted = false)
    (hr : r.inRange = true) (hp : p = encImu r) (ho : opc = s.cfg.opcRawImu) :
    exec .getRawImu (frameEnd s p.length opc (Memory.writeFrom s.rxBuf 0 p) true) =
      .next { frameEnd s p.length opc (Memory.writeFrom s.rxBuf 0 p) true with out := .imu (some r) } := by
  obtain ⟨-, -, -, -, -, -, hmax, -⟩ := wire_of_legal hc
  have hlen : p.length = 12 := by rw [hp, encImu_length]
  rw [exec_getRawImu_of_hit (by exact hrun) (isHit_iff.2 ⟨rfl, ho, hlen⟩) (by exact hmax), ← hlen,
    map_range_bufByte_writeFrom (s := s) rfl, hp, decImu_encImu hr]

theorem exec_getAttitude_frameEnd {a : AttitudeSample} (hc : s.cfg.legal = true) (hrun : s.halted = false)
    (ha : a.inRange = true) (hp : p = encAtt a) (ho : opc = s.cfg.opcAttitude) :
    exec .getAttitude (frameEnd s p.length opc (Memory.writeFrom s.rxBuf 0 p) true) =
      .next { frameEnd s p.length opc (Memory.writeFrom s.rxBuf 0 p) true with out := .att (some a) } := by
  obtain ⟨-, -, -, -, -, -, hmax, -⟩ := wire_of_legal hc
  have hlen : p.length = 6 := by rw [hp, encAtt_length]
  rw [exec_getAttitude_of_hit (by exact hrun) (isHit_iff.2 ⟨rfl, ho, hlen⟩) (by show 6 ≤ s.cfg.maxPayload; omega),
    ← hlen, map_range_bufByte_writeFrom (s := s) rfl, hp, decAtt_encAtt ha]

end FrameEnd

/-- Settles O33: the frame ends in `frameEnd` with its payload stored, and the queries read it back. -/
theorem fedFramesAreReconstructed : Obligations.FedFramesAreReconstructed := by
  intro s opc p hc hrun hp hlen
  refine ⟨_, feedRun_frameBytes hc hrun hp hlen opc, exec_getFrame_frameEnd hrun hlen, fun r hr ho hpay => ?_,
    fun a ha ho hpay => ?_, fun cmd hcmd _ hpay => ?_⟩
  · exact exec_getRawImu_frameEnd hc hrun hr hpay ho
  · exact exec_getAttitude_frameEnd hc hrun ha hpay ho
  · rw [hpay, decMotor_encMotor hcmd]

/-! ### A corrupted frame -/

/-- CHK is the checksum exactly when everything after the sync bytes cancels (R84). -/
theorem eq_checksum_iff (len opc chk : Byte) (p : List Byte) :
    chk = checksum len opc p ↔ xorAll (len :: opc :: (p ++ [chk])) = 0 := by
  rw [checksum_eq, xorAll_cons, xorAll_cons, xorAll_append, xorAll_cons, xorAll_nil, eq_comm, ← BitVec.xor_eq_zero_iff]
  simp [BitVec.xor_assoc]

/-- A list of at least two bytes is an opcode, a payload and a checksum byte. -/
theorem exists_body_of_length {l : List Byte} {n : Nat} (h : l.length = n + 2) :
    ∃ opc p chk, l = opc :: (p ++ [chk]) ∧ p.length = n := by
  cases l with
  | nil => cases h
  | cons opc l =>
    have hne : l ≠ [] := by rintro rfl; cases h
    refine ⟨opc, l.dropLast, l.getLast hne, by rw [List.dropLast_append_getLast], ?_⟩
    rw [List.length_dropLast]
    rw [List.length_cons] at h
    omega

/-- A frame with one byte after LEN replaced is a frame of the same length with a wrong checksum byte. -/
theorem frameBytes_set {y : Sync} {opc b : Byte} {p : List Byte} {k : Nat} (hlo : 4 ≤ k) (hhi : k < p.length + 6)
    (hb : b ≠ (frameBytes y opc p).getD k 0) :
    ∃ opc' p' chk, (frameBytes y opc p).set k b = y.bytes ++ ([lenByte p', opc'] ++ (p' ++ [chk])) ∧
      p'.length = p.length ∧ chk ≠ checksum (lenByte p') opc' p' := by
  obtain ⟨j, rfl⟩ : ∃ j, k = j + 4 := ⟨k - 4, by omega⟩
  have hj : j + 1 < (lenByte p :: opc :: (p ++ [checksum (lenByte p) opc p])).length := by simp; omega
  rw [frameBytes_eq] at hb ⊢
  simp only [List.getD_cons_succ] at hb
  obtain ⟨opc', p', chk, hbody, hlen⟩ :=
    exists_body_of_length (l := (opc :: (p ++ [checksum (lenByte p) opc p])).set j b) (n := p.length) (by simp)
  have hleneq : lenByte p' = lenByte p := by rw [lenByte, lenByte, hlen]
  refine ⟨opc', p', chk, ?_, hlen, ?_⟩
  · simp only [List.set_cons_succ, hbody, hleneq, Sync.bytes, List.cons_append, List.nil_append]
  · have hset : lenByte p' :: opc' :: (p' ++ [chk]) =
        (lenByte p :: opc :: (p ++ [checksum (lenByte p) opc p])).set (j + 1) b := by
      rw [List.set_cons_succ, hbody, hleneq]
    rw [Ne, eq_checksum_iff, hset, ← (eq_checksum_iff (lenByte p) opc _ p).1 rfl]
    exact xorAll_set_ne hj (by rwa [List.getD_cons_succ])

/-- Settles O34: the corrupted frame ends with a wrong checksum byte, so it is dropped at its last byte, in SYNC0; the
next one is a frame fed in a seeking phase. -/
theorem aCorruptedFrameIsDroppedAndTheNextOneRecovered :
    Obligations.ACorruptedFrameIsDroppedAndTheNextOneRecovered := by
  intro s opc opc' p p' hc hrun hp hlen hlen' k b hlo hhi good hb
  obtain ⟨o, q, chk, hset, hq, hchk⟩ := frameBytes_set hlo hhi hb
  have hfirst : feedRun (good.set k b) s =
      some (List.replicate (p.length + 6) false, frameEnd s p.length o (Memory.writeFrom s.rxBuf 0 q) false) := by
    rw [hset, feedRun_frame hc hrun hp (hq ▸ hlen) o chk, decide_eq_false hchk, hq, ← List.replicate_succ']
  have hnext := feedRun_frameBytes (s := frameEnd s p.length o (Memory.writeFrom s.rxBuf 0 q) false) hc hrun rfl hlen' opc'
  exact ⟨_, _, hfirst, rfl, hnext, exec_getFrame_frameEnd (by exact hrun) (by exact hlen')⟩

/-! ### An inbound frame row -/

theorem receiveFrame_of_seeking {s : State} {opc : Byte} {p : List Byte} (hc : s.cfg.legal = true)
    (hrun : s.halted = false) (hp : s.rxPhase.seeking = true) (hlen : p.length ≤ s.cfg.maxPayload) :
    receiveFrame opc p s = .next (frameEnd s p.length opc (Memory.writeFrom s.rxBuf 0 p) true) := by
  rw [receiveFrame, unlessHalted_of_running hrun]
  exact (exists_feedRun_iff_feedAll hrun).1 ⟨_, feedRun_frameBytes hc hrun hp hlen opc⟩

/-- Settles O37: each of the three rows is `receiveFrame` of its opcode and payload. -/
theorem inboundFrameRowsLatchTheirContent : Obligations.InboundFrameRowsLatchTheirContent := by
  intro s i opc p hc hrun hp hi
  obtain ⟨-, -, -, -, -, -, hmax, -⟩ := wire_of_legal hc
  have hrow : exec i s = receiveFrame opc p s ∧ p.length ≤ s.cfg.maxPayload := by
    obtain ⟨r, rfl, rfl, rfl⟩ | ⟨a, rfl, rfl, rfl⟩ | ⟨rfl, hlen⟩ := hi
    · exact ⟨rfl, hmax⟩
    · exact ⟨rfl, le_trans (by simp) hmax⟩
    · exact ⟨rfl, hlen⟩
  obtain ⟨hexec, hlen⟩ := hrow
  exact ⟨Memory.writeFrom s.rxBuf 0 p, hexec.trans (receiveFrame_of_seeking hc hrun hp hlen),
    bufByte_writeFrom rfl⟩

/-! ### Seeking -/

theorem append_singleton_suffix_iff {l p : List Byte} {a b : Byte} :
    l ++ [a] <:+ p ++ [b] ↔ b = a ∧ l <:+ p := by
  constructor
  · rintro ⟨t, ht⟩
    rw [← List.append_assoc] at ht
    obtain ⟨hl, hab⟩ := List.append_inj' ht rfl
    exact ⟨(List.singleton_inj.1 hab).symm, t, hl⟩
  · rintro ⟨rfl, t, rfl⟩
    exact ⟨t, List.append_assoc _ _ _ |>.symm⟩

/-- Where a parser that seeks stands, by the sync bytes that what it was fed ends with. -/
def seekPhase (y : Sync) (p : List Byte) : Phase :=
  if [y.s0, y.s1, y.s2] <:+ p then .len
  else if [y.s0, y.s1] <:+ p then .sync2
  else if [y.s0] <:+ p then .sync1
  else .sync0

section Seek

variable {y : Sync} {p : List Byte} {b : Byte}

theorem seekPhase_eq_len_iff : seekPhase y p = .len ↔ [y.s0, y.s1, y.s2] <:+ p := by
  unfold seekPhase
  split_ifs <;> simp_all

theorem seekPhase_append :
    seekPhase y (p ++ [b]) =
      if b = y.s2 ∧ [y.s0, y.s1] <:+ p then .len
      else if b = y.s1 ∧ [y.s0] <:+ p then .sync2
      else if b = y.s0 then .sync1
      else .sync0 := by
  have h3 : [y.s0, y.s1, y.s2] <:+ p ++ [b] ↔ b = y.s2 ∧ [y.s0, y.s1] <:+ p :=
    append_singleton_suffix_iff (l := [y.s0, y.s1])
  have h2 : [y.s0, y.s1] <:+ p ++ [b] ↔ b = y.s1 ∧ [y.s0] <:+ p := append_singleton_suffix_iff (l := [y.s0])
  have h1 : [y.s0] <:+ p ++ [b] ↔ b = y.s0 := by
    simpa using append_singleton_suffix_iff (l := []) (p := p) (a := y.s0) (b := b)
  simp only [seekPhase, h1, h2, h3]

/-- What ends with the first two sync bytes does not end with the first. -/
theorem not_suffix_of_suffix_two (h : y.s0 ≠ y.s1) (hp : [y.s0, y.s1] <:+ p) : ¬[y.s0] <:+ p := by
  obtain ⟨t, rfl⟩ := hp
  intro hs
  have hsplit : t ++ [y.s0, y.s1] = (t ++ [y.s0]) ++ [y.s1] := by simp
  rw [hsplit] at hs
  exact h (append_singleton_suffix_iff (l := []).1 hs).1.symm

end Seek

/-- One FEED while seeking follows `seekPhase`. -/
theorem feedByte_of_seekPhase {s : State} {p : List Byte} (hc : s.cfg.legal = true)
    (hp : s.rxPhase = seekPhase s.cfg.syncRx p) (hseek : s.rxPhase.seeking = true) (b : Byte) :
    feedByte b s = .next { s with
      rxValid := false, out := .done false, rxPhase := seekPhase s.cfg.syncRx (p ++ [b]) } := by
  obtain ⟨h01, -⟩ := wire_of_legal hc
  rw [seekPhase_append]
  unfold seekPhase at hp
  split_ifs at hp with h3 h2 h1
  · rw [hp] at hseek
    cases hseek
  · rw [feedByte_sync2 hp]
    simp only [h2, not_suffix_of_suffix_two h01 h2, and_true, and_false, if_false]
  · rw [feedByte_sync1 hp]
    simp only [h2, h1, and_true, and_false, if_false]
  · rw [feedByte_sync0 hp]
    simp only [h2, h1, and_false, if_false]

theorem feedRun_of_seeking {s : State} (hc : s.cfg.legal = true) (hrun : s.halted = false) (hp : s.rxPhase = .sync0)
    {bs : List Byte}
    (hseek : ∀ p q ds u, bs = p ++ q → q ≠ [] → feedRun p s = some (ds, u) → u.rxPhase.seeking = true) :
    ∃ ds t, feedRun bs s = some (ds, t) ∧ t.rxPhase = seekPhase s.cfg.syncRx bs ∧ t.cfg = s.cfg ∧ t.halted = false := by
  induction bs using List.reverseRecOn with
  | nil => exact ⟨[], s, rfl, by rw [hp, seekPhase]; simp, rfl, hrun⟩
  | append_singleton bs b ih =>
    obtain ⟨ds, t, hfed, hphase, hcfg, hrun'⟩ :=
      ih fun p q ds u hpq hq hu => hseek p (q ++ [b]) ds u (by rw [hpq, List.append_assoc]) (by simp) hu
    have hb := feedByte_of_seekPhase (s := t) (by rw [hcfg, hc]) (by rw [hcfg, hphase])
      (hseek bs [b] ds t rfl (by simp) hfed) b
    have hfed' : feedRun (bs ++ [b]) s = some (ds ++ [false], { t with
        rxValid := false, out := .done false, rxPhase := seekPhase t.cfg.syncRx (bs ++ [b]) }) := by
      rw [feedRun_append hfed, feedRun_cons_of_feedByte hrun' hb]
      rfl
    exact ⟨_, _, hfed', by rw [hcfg], hcfg, hrun'⟩

/-- Settles O32: while the parser seeks its phase is `seekPhase` of what it was fed. -/
theorem parserReachesLenExactlyAfterTheSyncBytes : Obligations.ParserReachesLenExactlyAfterTheSyncBytes := by
  intro s bs hc hrun hp hseek
  obtain ⟨ds, t, hfed, hphase, -, -⟩ := feedRun_of_seeking hc hrun hp hseek
  refine ⟨ds, t, hfed, ?_⟩
  rw [hphase, seekPhase_eq_len_iff]
  exact ⟨fun ⟨q, hq⟩ => ⟨q, hq.symm⟩, fun ⟨q, hq⟩ => ⟨q, hq.symm⟩⟩

/-! ### Counting -/

/-- The number of bytes after which a frame whose length is known is over. -/
def bytesLeft (s : State) : Nat :=
  match s.rxPhase with
  | .opc => s.rxLen - s.rxIdx + 2
  | .payload => s.rxLen - s.rxIdx + 1
  | .chk => 1
  | _ => 0

/-- Inside a frame each byte counts down, and the last leads to SYNC0. -/
theorem feedByte_bytesLeft {s t : State} {b : Byte} (hinv : ReceiverInv s) (hp : s.rxPhase.inFrame = true)
    (h : feedByte b s = .next t) :
    t.rxPhase = .sync0 ∨ (t.rxPhase.inFrame = true ∧ bytesLeft t + 1 = bytesLeft s) := by
  cases hphase : s.rxPhase with
  | opc =>
    obtain ⟨hi, -⟩ := (cursorInv_opc hphase).1 hinv.cursor
    rw [feedByte_opc hphase] at h
    cases h
    right
    by_cases hz : s.rxLen = 0 <;> simp [bytesLeft, Phase.inFrame, hphase, hz, hi]
  | payload =>
    obtain ⟨hlt, -⟩ := (cursorInv_payload hphase).1 hinv.cursor
    rw [feedByte_payload hphase (hinv.idx_lt_maxPayload hphase)] at h
    cases h
    right
    by_cases hz : s.rxIdx + 1 = s.rxLen
    · simp [bytesLeft, Phase.inFrame, hphase, hz]
      omega
    · simp [bytesLeft, Phase.inFrame, hphase, hz]
      omega
  | chk =>
    rw [feedByte_chk hphase] at h
    cases h
    exact .inl rfl
  | _ => rw [hphase] at hp; cases hp

theorem exists_feedRun_sync0 {s : State} {bs : List Byte} (hinv : ReceiverInv s) (hrun : s.halted = false)
    (hp : s.rxPhase.inFrame = true) (hlen : bytesLeft s ≤ bs.length) :
    ∃ p q ds t, bs = p ++ q ∧ p ≠ [] ∧ feedRun p s = some (ds, t) ∧ t.rxPhase = .sync0 := by
  induction bs generalizing s with
  | nil =>
    have hpos : 0 < bytesLeft s := by
      rw [bytesLeft]
      cases hphase : s.rxPhase <;> simp_all [Phase.inFrame]
    simp only [List.length_nil] at hlen
    omega
  | cons b bs ih =>
    obtain ⟨t, ht⟩ := feedByte_total hinv b
    have hcons := fun l => feedRun_cons_of_feedByte (bs := l) hrun ht
    rcases feedByte_bytesLeft hinv hp ht with hsync | ⟨hin, hleft⟩
    · exact ⟨[b], bs, [t.rxValid], t, rfl, by simp, hcons [], hsync⟩
    · obtain ⟨p, q, ds, u, rfl, -, hfed, hu⟩ := ih (feedByte_keeps_receiverInv hinv ht)
        (by rw [feedByte_halted ht, hrun]) hin (by rw [List.length_cons] at hlen; omega)
      exact ⟨b :: p, q, t.rxValid :: ds, u, rfl, by simp, by rw [hcons, hfed]; rfl, hu⟩

/-- A number of bytes before the last of which no frame is complete. -/
def bytesNeeded (s : State) : Nat :=
  match s.rxPhase with
  | .sync0 => 6
  | .sync1 => 5
  | .sync2 => 4
  | .len => 3
  | .opc => 2
  | .payload => 2
  | .chk => 1

/-- Where more than one byte is needed, a FEED returns false and needs at most one byte less. -/
theorem feedByte_bytesNeeded {s t : State} {b : Byte} (hp : s.rxPhase ≠ .chk) (h : feedByte b s = .next t) :
    t.rxValid = false ∧ bytesNeeded s ≤ bytesNeeded t + 1 := by
  have hout := (feedByte_effect h).2.1
  rw [feedByte_out_of_phase_ne_chk hp h] at hout
  refine ⟨(Port.done.inj hout).symm, ?_⟩
  cases hphase : s.rxPhase with
  | sync0 =>
    rw [feedByte_sync0 hphase] at h
    cases h
    by_cases h0 : b = s.cfg.syncRx.s0 <;> simp [bytesNeeded, hphase, h0]
  | sync1 =>
    rw [feedByte_sync1 hphase] at h
    cases h
    simp only [bytesNeeded, hphase]
    split_ifs <;> decide
  | sync2 =>
    rw [feedByte_sync2 hphase] at h
    cases h
    simp only [bytesNeeded, hphase]
    split_ifs <;> decide
  | len =>
    rcases Nat.lt_or_ge s.cfg.maxPayload b.toNat with hb | hb
    · rw [feedByte_len_drop hphase hb] at h
      cases h
      simp [bytesNeeded, hphase]
    · rw [feedByte_len_ok hphase hb] at h
      cases h
      simp [bytesNeeded, hphase]
  | opc =>
    rw [feedByte_opc hphase] at h
    cases h
    by_cases hz : s.rxLen = 0 <;> simp [bytesNeeded, hphase, hz]
  | payload =>
    rcases Nat.lt_or_ge s.rxIdx s.cfg.maxPayload with hi | hi
    · rw [feedByte_payload hphase hi] at h
      cases h
      by_cases hz : s.rxIdx + 1 = s.rxLen <;> simp [bytesNeeded, hphase, hz]
    · rw [feedByte_payload_outside hphase hi] at h
      cases h
  | chk => exact absurd hphase hp

theorem feedRun_of_lt_bytesNeeded {s : State} {bs : List Byte} (hinv : ReceiverInv s) (hrun : s.halted = false)
    (hlen : bs.length < bytesNeeded s) : ∃ t, feedRun bs s = some (List.replicate bs.length false, t) := by
  induction bs generalizing s with
  | nil => exact ⟨s, rfl⟩
  | cons b bs ih =>
    rw [List.length_cons] at hlen
    have hp : s.rxPhase ≠ .chk := fun hp => by simp [bytesNeeded, hp] at hlen
    obtain ⟨t, ht⟩ := feedByte_total hinv b
    obtain ⟨hvalid, hneeded⟩ := feedByte_bytesNeeded hp ht
    obtain ⟨u, hu⟩ := ih (feedByte_keeps_receiverInv hinv ht) (by rw [feedByte_halted ht, hrun]) (by omega)
    exact ⟨u, by rw [feedRun_cons_of_feedByte hrun ht, hu, hvalid]; rfl⟩

/-- Settles O35: `bytesLeft` counts a frame's end down, and `bytesNeeded` is 6 in SYNC0. -/
theorem aPartialFrameIsFinishedByBoundedlyManyBytes : Obligations.APartialFrameIsFinishedByBoundedlyManyBytes := by
  intro s _ hinv hrun
  refine ⟨fun hp bs hlen => exists_feedRun_sync0 hinv hrun hp ?_, fun hp bs hlen =>
    feedRun_of_lt_bytesNeeded hinv hrun (by simpa [bytesNeeded, hp] using hlen)⟩
  rw [hlen, bytesLeft]
  cases hphase : s.rxPhase <;> simp

end Sys2Proof.Machine
end

section
/-! Instructions: what each does in a running block and that a halted one refuses it, what it leaves of TX, HALTED and the
receiver, and the statements about single instructions (20_memory.md R58, R63; 60_exceptions.md R253 to R256;
70_reset_and_hazards.md R280). -/

namespace Sys2Proof.Machine

/-! ### The body of an instruction -/

/-- The three queries of the latched frame: `f` of the first `n` bytes of RX_BUF on a hit, else `miss` (R196 to R198). -/
def query (hit : State → Bool) (n : State → Nat) (f : State → List Byte → Port) (miss : Port) (s : State) : Result :=
  if hit s then withSlice (n s) s fun p => answer (f s p) s else answer miss s

/-- What an instruction does in a running block. -/
def runningBody (i : Instr) (s : State) : Result :=
  match i with
  | .setMotor cmd => checkEnvelope cmd s fun s => sendFrame s.cfg.opcSetMotor (encMotor cmd) s
  | .txSetMotor cmd => checkEnvelope cmd s fun s => sendFrame s.cfg.opcSetMotor (encMotor cmd) s
  | .queryRawImu => sendFrame s.cfg.opcQueryRawImu [] s
  | .txQueryRawImu => sendFrame s.cfg.opcQueryRawImu [] s
  | .queryAttitude => sendFrame s.cfg.opcQueryAttitude [] s
  | .txQueryAttitude => sendFrame s.cfg.opcQueryAttitude [] s
  | .rawImu r => feedAll (frameBytes s.cfg.syncRx s.cfg.opcRawImu (encImu r)) s
  | .attitude a => feedAll (frameBytes s.cfg.syncRx s.cfg.opcAttitude (encAtt a)) s
  | .otherFrame opc p => feedAll (frameBytes s.cfg.syncRx opc p) s
  | .feed b => feedByte b s
  | .mix vx vy vr => answer (.wheels (mixLanes s.cfg vx vy vr)) s
  | .encode w => checkEnvelope (encodeLanes s.cfg w) s fun s => answer (.motor (encodeLanes s.cfg w)) s
  | .matchFrame n => answer (.hit (isHit s n)) s
  | .getRawImu => query (isHit · .rawImu) (fun _ => 12) (fun _ p => .imu (some (decImu p))) (.imu none) s
  | .getAttitude => query (isHit · .attitude) (fun _ => 6) (fun _ p => .att (some (decAtt p))) (.att none) s
  | .getFrame =>
    query State.rxValid State.rxLen (fun s p => .frame (some ⟨s.rxOpc, s.rxLen, p⟩)) (.frame none) s
  | .reset => execReset s

section Body

variable {i : Instr} {s t : State}

theorem exec_eq_unlessHalted (hi : i ≠ .reset) : exec i s = unlessHalted s (runningBody i) := by
  cases i with
  | reset => exact absurd rfl hi
  | rawImu r =>
    simp only [exec, execRawImu, receiveFrame, unlessHalted]
    rfl
  | attitude a =>
    simp only [exec, execAttitude, receiveFrame, unlessHalted]
    rfl
  | _ => rfl

/-- A halted block refuses every instruction but RESET (R256). -/
theorem exec_of_halted (hh : s.halted = true) (hi : i ≠ .reset) :
    exec i s = .next { s with out := .refused .halted } := by
  rw [exec_eq_unlessHalted hi, unlessHalted_of_halted hh]

theorem exec_of_running (hrun : s.halted = false) : exec i s = runningBody i s := by
  by_cases hi : i = .reset
  · rw [hi]
    rfl
  · rw [exec_eq_unlessHalted hi, unlessHalted_of_running hrun]

end Body

/-- Settles O23: `exec_of_halted`. -/
theorem haltedBlockRefusesEverythingButReset : Obligations.HaltedBlockRefusesEverythingButReset :=
  fun _ _ => exec_of_halted

/-! ### The shared operations -/

section Shared

variable {s t : State}

theorem query_eq_next {hit : State → Bool} {n : State → Nat} {f : State → List Byte → Port} {miss : Port}
    (h : query hit n f miss s = .next t) : t = { s with out := t.out } := by
  unfold query at h
  split at h
  · obtain ⟨-, h⟩ := withSlice_eq_next.1 h
    rw [answer_eq_next.1 h]
  · rw [answer_eq_next.1 h]

theorem query_total {hit : State → Bool} {n : State → Nat} {f : State → List Byte → Port} {miss : Port}
    (h : hit s = true → n s ≤ s.cfg.maxPayload) : ∃ t, query hit n f miss s = .next t := by
  unfold query
  split
  · rename_i hhit
    rw [withSlice_of_le (h hhit)]
    exact ⟨_, rfl⟩
  · exact ⟨_, rfl⟩

theorem query_of_outside {hit : State → Bool} {n : State → Nat} {f : State → List Byte → Port} {miss : Port}
    (hhit : hit s = true) (h : s.cfg.maxPayload < n s) :
    query hit n f miss s = .fault (.rxBufOutside s.cfg.maxPayload) := by
  rw [query, if_pos hhit, withSlice_of_lt h]

theorem raiseEnvelope_of_halt {k : Fin 4} {v : Int} (hm : s.cfg.faultMode = .halt) :
    raiseEnvelope k v s = .next { s with
      halted := true
      faultInfo := if s.faultInfo.isSome then s.faultInfo else some (k, v)
      out := .fault (.envelopeViolation k v) } :=
  raiseEnvelope_eq_next.2 (.inl ⟨hm, rfl⟩)

theorem raiseEnvelope_of_skip {k : Fin 4} {v : Int} (hm : s.cfg.faultMode = .skip) :
    raiseEnvelope k v s = .next { s with faultInfo := some (k, v), out := .fault (.envelopeViolation k v) } :=
  raiseEnvelope_eq_next.2 (.inr ⟨hm, rfl⟩)

/-- The envelope check goes on with the command, or records the fault and touches nothing else. -/
theorem checkEnvelope_eq_next {cmd : Lanes Int} {ok : State → Result} (h : checkEnvelope cmd s ok = .next t) :
    (firstViolation s.cfg cmd = none ∧ ok s = .next t) ∨
      ((firstViolation s.cfg cmd).isSome = true ∧ SameReceiver s t ∧ t.tx = s.tx ∧
        t.halted = (s.halted || decide (s.cfg.faultMode = .halt))) := by
  cases hv : firstViolation s.cfg cmd with
  | none =>
    rw [checkEnvelope_of_inside hv] at h
    exact .inl ⟨rfl, h⟩
  | some kv =>
    rw [checkEnvelope_of_violation hv] at h
    rcases raiseEnvelope_eq_next.1 h with ⟨hm, rfl⟩ | ⟨hm, rfl⟩
    · exact .inr ⟨rfl, ⟨rfl, rfl, rfl, rfl, rfl, rfl, rfl⟩, rfl, by simp [hm]⟩
    · exact .inr ⟨rfl, ⟨rfl, rfl, rfl, rfl, rfl, rfl, rfl⟩, rfl, by simp [hm]⟩

theorem checkEnvelope_total {cmd : Lanes Int} {ok : State → Result} (h : ∃ t, ok s = .next t) :
    ∃ t, checkEnvelope cmd s ok = .next t := by
  cases hv : firstViolation s.cfg cmd with
  | none => rwa [checkEnvelope_of_inside hv]
  | some kv =>
    obtain ⟨t, ht, -⟩ := raiseEnvelope_answers kv.1 kv.2 s
    exact ⟨t, (checkEnvelope_of_violation hv).trans ht⟩

end Shared

/-! ### The pure operations -/

/-- The operations without side effect (R58). -/
def isPure : Instr → Bool
  | .mix _ _ _ => true
  | .matchFrame _ => true
  | .getRawImu => true
  | .getAttitude => true
  | .getFrame => true
  | _ => false

theorem exec_of_isPure {i : Instr} {s t : State} (hi : isPure i = true) (h : exec i s = .next t) :
    t = { s with out := t.out } := by
  have hne : i ≠ .reset := by rintro rfl; cases hi
  rw [exec_eq_unlessHalted hne] at h
  rcases unlessHalted_eq_next.1 h with ⟨-, rfl⟩ | ⟨-, h⟩
  · rfl
  · cases i with
    | mix vx vy vr => rw [answer_eq_next.1 h]
    | matchFrame n => rw [answer_eq_next.1 h]
    | getRawImu => rw [runningBody] at h; exact query_eq_next h
    | getAttitude => rw [runningBody] at h; exact query_eq_next h
    | getFrame => rw [runningBody] at h; exact query_eq_next h
    | _ => cases hi

/-- No operation reads the result port; a pure one replaces it. -/
theorem exec_out_of_isPure {i : Instr} (hi : isPure i = true) (s : State) (p : Port) :
    exec i { s with out := p } = exec i s := by
  cases i with
  | mix vx vy vr => rfl
  | matchFrame n => rfl
  | getRawImu => rfl
  | getAttitude => rfl
  | getFrame => rfl
  | _ => cases hi

/-- Settles O42: a pure operation changes its result alone, which it does not read. -/
theorem pureOperationsAreIdempotent : Obligations.PureOperationsAreIdempotent := by
  intro s t i hi h
  have hpure : isPure i = true := by
    obtain ⟨vx, vy, vr, rfl⟩ | ⟨n, rfl⟩ | rfl | rfl | rfl := hi <;> rfl
  have ht := exec_of_isPure hpure h
  refine ⟨ht, ?_⟩
  rw [← h, ← exec_out_of_isPure hpure s t.out, ← ht]

/-! ### What an instruction transmits -/

/-- TX and HALTED after the envelope check of a running block, which then appends `sent`. -/
def txAfterCheck (c : Config) (cmd : Lanes Int) (tx sent : List Byte) : List Byte × Bool :=
  if (firstViolation c cmd).isSome then (tx, decide (c.faultMode = .halt)) else (tx ++ sent, false)

/-- TX and HALTED after an instruction of a running block, computed from the configuration and TX alone (R63). -/
def txAfterRunning (c : Config) (tx : List Byte) : Instr → List Byte × Bool
  | .setMotor cmd => txAfterCheck c cmd tx (frameBytes c.syncTx c.opcSetMotor (encMotor cmd))
  | .txSetMotor cmd => txAfterCheck c cmd tx (frameBytes c.syncTx c.opcSetMotor (encMotor cmd))
  | .encode w => txAfterCheck c (encodeLanes c w) tx []
  | .queryRawImu => (tx ++ frameBytes c.syncTx c.opcQueryRawImu [], false)
  | .txQueryRawImu => (tx ++ frameBytes c.syncTx c.opcQueryRawImu [], false)
  | .queryAttitude => (tx ++ frameBytes c.syncTx c.opcQueryAttitude [], false)
  | .txQueryAttitude => (tx ++ frameBytes c.syncTx c.opcQueryAttitude [], false)
  | .reset => ([], false)
  | _ => (tx, false)

section Transmission

variable {s t : State}

theorem txAfterCheck_eq {cmd : Lanes Int} {sent : List Byte} {ok : State → Result} (hrun : s.halted = false)
    (hok : ∀ t, ok s = .next t → t.tx = s.tx ++ sent ∧ t.halted = s.halted) (h : checkEnvelope cmd s ok = .next t) :
    (t.tx, t.halted) = txAfterCheck s.cfg cmd s.tx sent := by
  rw [txAfterCheck]
  rcases checkEnvelope_eq_next h with ⟨hv, h⟩ | ⟨hv, -, htx, hh⟩
  · obtain ⟨htx, hh⟩ := hok t h
    rw [hv, htx, hh, hrun]
    rfl
  · rw [if_pos hv, htx, hh, hrun, Bool.false_or]

theorem feedAll_tx {bs : List Byte} (h : feedAll bs s = .next t) : t.tx = s.tx ∧ t.halted = s.halted := by
  rw [feedAll_effect h]
  exact ⟨rfl, rfl⟩

theorem query_tx {hit : State → Bool} {n : State → Nat} {f : State → List Byte → Port} {miss : Port}
    (h : query hit n f miss s = .next t) : t.tx = s.tx ∧ t.halted = s.halted := by
  rw [query_eq_next h]
  exact ⟨rfl, rfl⟩

theorem runningBody_txAfter {i : Instr} (hrun : s.halted = false) (h : runningBody i s = .next t) :
    (t.tx, t.halted) = txAfterRunning s.cfg s.tx i := by
  have keeps : t.tx = s.tx ∧ t.halted = s.halted → (t.tx, t.halted) = (s.tx, false) := by
    rintro ⟨htx, hh⟩
    rw [htx, hh, hrun]
  cases i with
  | setMotor cmd | txSetMotor cmd => exact txAfterCheck_eq hrun (fun t ht => by cases ht; exact ⟨rfl, rfl⟩) h
  | encode w => exact txAfterCheck_eq hrun (fun t ht => by cases ht; exact ⟨(List.append_nil _).symm, rfl⟩) h
  | queryRawImu | txQueryRawImu | queryAttitude | txQueryAttitude =>
    cases h
    exact Prod.ext rfl hrun
  | rawImu r => exact keeps (feedAll_tx h)
  | attitude a => exact keeps (feedAll_tx h)
  | otherFrame opc p => exact keeps (feedAll_tx h)
  | feed b =>
    refine keeps ?_
    rw [(feedByte_effect h).1]
    exact ⟨rfl, rfl⟩
  | mix vx vy vr => cases h; exact keeps ⟨rfl, rfl⟩
  | matchFrame n => cases h; exact keeps ⟨rfl, rfl⟩
  | getRawImu | getAttitude | getFrame => rw [runningBody] at h; exact keeps (query_tx h)
  | reset => cases h; rfl

end Transmission


/-- Settles O53: halted, nothing is transmitted unless RESET empties TX; running, `txAfterRunning` computes what is
transmitted from the configuration and TX. -/
theorem transmissionDoesNotDependOnTheReceiver : Obligations.TransmissionDoesNotDependOnTheReceiver := by
  intro i s s' t t' hc hh htx h h'
  cases hs' : s'.halted with
  | true =>
    by_cases hi : i = .reset
    · subst hi
      cases h
      cases h'
      exact ⟨rfl, rfl⟩
    · rw [exec_of_halted (hh.trans hs') hi] at h
      rw [exec_of_halted hs' hi] at h'
      cases h
      cases h'
      exact ⟨htx, hh⟩
  | false =>
    rw [exec_of_running (hh.trans hs')] at h
    rw [exec_of_running hs'] at h'
    have heq : (t.tx, t.halted) = (t'.tx, t'.halted) := by
      rw [runningBody_txAfter (hh.trans hs') h, runningBody_txAfter hs' h', hc, htx]
    exact Prod.ext_iff.1 heq

/-! ### The envelope fault and the outbound rows -/

/-- Settles O15: the first lane outside is the one reported. -/
theorem encodeFaultsAtTheFirstLaneOutsideTheEnvelope : Obligations.EncodeFaultsAtTheFirstLaneOutsideTheEnvelope := by
  intro s w k hrun hbefore hout v
  have hlane : ∀ j, (encodeLanes s.cfg w).get j = encodeLane s.cfg (w.get j) := fun j => Lanes.get_map _ _ _
  have hv : firstViolation s.cfg (encodeLanes s.cfg w) = some (k, v) := by
    simp only [v, ← hlane] at hbefore hout ⊢
    exact firstViolation_of_first_outside hbefore hout
  rw [exec_encode_of_running hrun, checkEnvelope_of_violation hv]
  exact ⟨raiseEnvelope_of_halt, raiseEnvelope_of_skip⟩

/-- Settles O19: the operation and the frame row are both `sendMotor`. -/
theorem txSetMotorOutsideTheEnvelopeAppendsNothing : Obligations.TxSetMotorOutsideTheEnvelopeAppendsNothing := by
  intro s cmd k i hrun hi hbefore hout
  have hexec : exec i s = sendMotor cmd s := by obtain rfl | rfl := hi <;> rfl
  rw [hexec, sendMotor_of_violation hrun (firstViolation_of_first_outside hbefore hout)]
  exact ⟨raiseEnvelope_of_halt, raiseEnvelope_of_skip⟩

/-- Settles O22: each row sends the frame it encodes to. -/
theorem outboundFrameRowsAppendTheirEncoding : Obligations.OutboundFrameRowsAppendTheirEncoding := by
  intro s i hrun hi
  obtain rfl | rfl | ⟨cmd, rfl, hin⟩ := hi
  · exact ⟨_, rfl, exec_of_running hrun⟩
  · exact ⟨_, rfl, exec_of_running hrun⟩
  · exact ⟨_, rfl, sendMotor_of_inside hrun hin⟩

/-! ### Outside RX_BUF -/

/-- Settles O30: the store of `feedByte` and the slice of `query`. -/
theorem accessOutsideTheReceiveBufferFaults : Obligations.AccessOutsideTheReceiveBufferFaults := by
  intro s b hrun
  refine ⟨fun hp hi => ?_, fun hv hlen => ?_, fun hv ho hl hmax => ?_, fun hv ho hl hmax => ?_⟩
  · rw [exec_feed hrun, feedByte_payload_outside hp hi]
  · rw [exec_of_running hrun, runningBody]
    exact query_of_outside hv hlen
  · rw [exec_of_running hrun, runningBody]
    exact query_of_outside (isHit_iff.2 ⟨hv, ho, hl⟩) hmax
  · rw [exec_of_running hrun, runningBody]
    exact query_of_outside (isHit_iff.2 ⟨hv, ho, hl⟩) hmax

/-! ### RESET and the power-on state -/

theorem exec_reset (s : State) : exec .reset s = .next { resetBlock s with out := .completed } := rfl

/-- Settles O43: `resetBlock`, whose RX_BUF keeps the cells that exist. -/
theorem resetEstablishesTheResetValues : Obligations.ResetEstablishesTheResetValues := by
  intro s
  refine ⟨_, exec_reset s, rfl, rfl, rfl, rfl, rfl, rfl, rfl, rfl, rfl, rfl, fun i hi => ?_⟩
  exact congrArg (Option.getD · (Config.rxBufPowerOn i)) (Memory.read_keepBelow hi)

/-- Settles O44: the fields that `resetBlock` does not write. -/
theorem resetLeavesTheTransportAndTheBusAlone : Obligations.ResetLeavesTheTransportAndTheBusAlone := fun s =>
  ⟨_, exec_reset s, rfl, rfl, rfl, rfl, rfl, rfl, rfl, rfl, rfl, rfl, rfl, rfl, Memory.wf_keepBelow⟩

theorem legal_default : Config.default.legal = true := by decide +kernel

/-- Settles O45: the fields of `State.powerOn`, at the default configuration. -/
theorem powerOnStateHasTheSpecifiedValues : Obligations.PowerOnStateHasTheSpecifiedValues :=
  ⟨rfl, rfl, rfl, rfl, rfl, rfl, rfl, rfl, rfl, rfl, Memory.read_nil, rfl, legal_default, rfl, rfl⟩

end Sys2Proof.Machine
end

section
/-! The invariant of the machine: it holds after power-on, every step keeps it, and from it no step faults; what a step can
do to TX and to HALTED (10_state.md sections 5 to 9; 41_encoder.md R146; 60_exceptions.md R257). -/

namespace Sys2Proof.Machine

/-! ### What the invariant reads -/

theorem SameBlock.sameReceiver {s t : State} (h : SameBlock s t) : SameReceiver s t :=
  ⟨h.rxPhase, h.rxLen, h.rxOpc, h.rxIdx, h.rxChk, h.rxBuf, h.rxValid⟩

/-- The invariant reads the block and the configuration chosen for the next RESET. -/
theorem Inv.congr {s t : State} (h : Inv s) (hb : SameBlock s t) (hc : t.chosenCfg.legal = true) : Inv t where
  cfgLegal := by rw [hb.cfg, h.cfgLegal]
  chosenLegal := hc
  receiver := h.receiver.congr hb.sameReceiver hb.cfg
  txSafe := h.txSafe.congr hb.cfg hb.tx
  haltRecorded := by rw [hb.halted, hb.faultInfo, hb.cfg]; exact h.haltRecorded

theorem receiverInv_of_rest {s : State} (hcan : Memory.wf s.rxBuf = true)
    (hbound : Memory.below s.cfg.maxPayload s.rxBuf = true) (hp : s.rxPhase = .sync0) (hl : s.rxLen = 0)
    (hi : s.rxIdx = 0) (hk : s.rxChk = 0) (hv : s.rxValid = false) : ReceiverInv s where
  bufCanonical := hcan
  bufBounded := hbound
  lenBound := by rw [hl]; exact Nat.zero_le _
  cursor := (cursorInv_of_not_inFrame (by rw [hp]; rfl)).2 ⟨hi, hk⟩
  latched := fun h => by rw [hv] at h; cases h

/-- Settles O46: the receiver is at rest, TX is empty and the block is not halted. -/
theorem invariantHoldsAtPowerOn : Obligations.InvariantHoldsAtPowerOn where
  cfgLegal := legal_default
  chosenLegal := legal_default
  receiver := receiverInv_of_rest rfl rfl rfl rfl rfl rfl rfl
  txSafe := txSafe_of_tx_nil rfl
  haltRecorded := fun h => by cases h

/-! ### Every instruction keeps the invariant -/

theorem exec_keeps_receiverInv {i : Instr} {s t : State} (h : ReceiverInv s) (he : exec i s = .next t) :
    ReceiverInv t := by
  cases exec_effect he with
  | reset hi =>
    exact receiverInv_of_rest (Memory.wf_keepBelow h.bufCanonical) (Memory.below_keepBelow _ _) rfl rfl rfl rfl rfl
  | fed bs t _ hfed => exact feedAll_keeps_receiverInv h hfed
  | _ => exact h.congr ⟨rfl, rfl, rfl, rfl, rfl, rfl, rfl⟩ rfl

/-- A halt is recorded: `halt` mode takes the fault with its record, RESET clears both, nothing else touches them. -/
theorem exec_keeps_haltRecorded {i : Instr} {s t : State}
    (h : s.halted = true → s.faultInfo.isSome = true ∧ s.cfg.faultMode = .halt) (he : exec i s = .next t) :
    t.halted = true → t.faultInfo.isSome = true ∧ t.cfg.faultMode = .halt := by
  cases exec_effect he with
  | reset hi => exact fun hh => by cases hh
  | port p => exact h
  | sent f hs hr => exact h
  | halted k v hr hm hv => exact fun _ => ⟨by dsimp only; split <;> simp_all, hm⟩
  | skipped k v hr hm => exact fun hh => by rw [hr] at hh; cases hh
  | fed bs t hr hfed =>
    rw [feedAll_effect hfed]
    exact h

theorem exec_keeps_cfgLegal {i : Instr} {s t : State} (h : Inv s) (he : exec i s = .next t) :
    t.cfg.legal = true ∧ t.chosenCfg.legal = true := by
  by_cases hi : i = .reset
  · subst hi
    cases he
    exact ⟨h.chosenLegal, h.chosenLegal⟩
  · obtain ⟨hcfg, hchosen, -⟩ := exec_host he hi
    rw [hcfg, hchosen]
    exact ⟨h.cfgLegal, h.chosenLegal⟩

theorem exec_keeps_inv {i : Instr} {s t : State} (h : Inv s) (he : exec i s = .next t) : Inv t where
  cfgLegal := (exec_keeps_cfgLegal h he).1
  chosenLegal := (exec_keeps_cfgLegal h he).2
  receiver := exec_keeps_receiverInv h.receiver he
  txSafe := exec_keeps_txSafe h.txSafe he
  haltRecorded := exec_keeps_haltRecorded h.haltRecorded he

/-- Settles O47: a step invokes one instruction, which keeps the invariant, or leaves the block as it is and offers no
illegal configuration. -/
theorem everyStepKeepsTheInvariant : Obligations.EveryStepKeepsTheInvariant := by
  intro s t h hstep
  rcases step_effect hstep with ⟨m, rest, i, s', -, -, -, hb, hc, hexec⟩ | ⟨u, hu, hb, hc⟩ | ⟨c, more, -, -, hu⟩
  · exact exec_keeps_inv (h.congr hb (by rw [hc, h.chosenLegal])) hexec
  · cases hu
    exact h.congr hb (hc.elim (fun hc => by rw [hc, h.chosenLegal]) id)
  · cases hu

/-! ### No instruction faults -/

theorem runningBody_total {s : State} (h : ReceiverInv s) (hmax : 12 ≤ s.cfg.maxPayload) (i : Instr) :
    ∃ t, runningBody i s = .next t := by
  cases i with
  | setMotor cmd | txSetMotor cmd => exact checkEnvelope_total ⟨_, rfl⟩
  | encode w => exact checkEnvelope_total ⟨_, rfl⟩
  | rawImu r => exact feedAll_total h
  | attitude a => exact feedAll_total h
  | otherFrame opc p => exact feedAll_total h
  | feed b => exact feedByte_total h b
  | getRawImu => rw [runningBody]; exact query_total fun _ => hmax
  | getAttitude => rw [runningBody]; exact query_total fun _ => le_trans (by decide) hmax
  | getFrame => rw [runningBody]; exact query_total fun _ => h.lenBound
  | _ => exact ⟨_, rfl⟩

theorem exec_total {s : State} (h : Inv s) (i : Instr) : ∃ t, exec i s = .next t := by
  obtain ⟨-, -, -, -, -, -, hmax, -⟩ := wire_of_legal h.cfgLegal
  cases hh : s.halted with
  | true =>
    by_cases hi : i = .reset
    · exact ⟨_, hi ▸ exec_reset s⟩
    · exact ⟨_, exec_of_halted hh hi⟩
  | false =>
    rw [exec_of_running hh]
    exact runningBody_total h.receiver hmax i

/-- Settles O48: the instruction a step invokes answers (`exec_total`). -/
theorem noReachableStepFaults : Obligations.NoReachableStepFaults := by
  intro s h
  rcases step_effect (s := s) rfl with ⟨m, rest, i, s', -, -, -, hb, hc, hexec⟩ | ⟨t, ht, -⟩ | ⟨c, more, hi, hl, ho⟩
  · obtain ⟨t, ht⟩ := exec_total (h.congr hb (by rw [hc, h.chosenLegal])) i
    exact .inl ⟨t, hexec.symm.trans ht⟩
  · exact .inl ⟨t, ht⟩
  · exact .inr ⟨c, more, hi, hl, ho⟩

/-! ### What a step does to TX and to a halted block -/

/-- Settles O52: `exec_tx_cases` for the instruction the step invokes, if it invokes one. -/
theorem txIsAppendOnly : Obligations.TxIsAppendOnly := by
  intro s t hstep
  rcases step_effect hstep with ⟨m, rest, i, s', ha, hi, hv, hb, -, hexec⟩ | ⟨u, hu, hb, -⟩ | ⟨c, more, -, -, hu⟩
  · rcases exec_tx_cases hexec with ⟨rfl, -⟩ | ⟨-, htx | ⟨f, hf, htx⟩⟩
    · exact .inl ⟨rest, invokes_reset hv ▸ ha, hi⟩
    · exact .inr (.inl (htx.trans hb.tx))
    · rw [hb.cfg] at hf htx
      rw [hb.tx] at htx
      exact .inr (.inr ⟨f, hf, htx⟩)
  · cases hu
    exact .inr (.inl hb.tx)
  · cases hu

theorem sameBlock_of_refused {s : State} (p : Port) : SameBlock s { s with out := p } := by
  constructor <;> rfl

/-- A step from a halted state runs RESET or leaves the block as it is: every other instruction is refused. -/
theorem step_of_halted {s t : State} (hh : s.halted = true) (h : step s = .next t) :
    (∃ rest, s.agenda = .op .reset :: rest ∧ (s.inputs = [] ∨ ∃ more, s.inputs = none :: more)) ∨ SameBlock s t := by
  rcases step_effect h with ⟨m, rest, i, s', ha, hi, hv, hb, -, hexec⟩ | ⟨u, hu, hb, -⟩ | ⟨c, more, -, -, hu⟩
  · by_cases hreset : i = .reset
    · subst hreset
      exact .inl ⟨rest, invokes_reset hv ▸ ha, hi⟩
    · rw [exec_of_halted (hb.halted.trans hh) hreset] at hexec
      cases hexec
      exact .inr (hb.trans (sameBlock_of_refused _))
  · cases hu
    exact .inr hb
  · cases hu

/-- Settles O24: `step_of_halted`. -/
theorem onlyResetLeavesTheHaltedState : Obligations.OnlyResetLeavesTheHaltedState := by
  intro s t hh h
  refine (step_of_halted hh h).imp_right fun hb => ?_
  exact ⟨hb.halted.trans hh, hb.faultInfo, hb.tx, hb.cfg, hb.rxPhase, hb.rxLen, hb.rxOpc, hb.rxIdx, hb.rxChk, hb.rxBuf,
    hb.rxValid⟩

/-! ### What can halt the block -/

/-- Under a configuration of this hardware only a motor command outside the envelope halts a running block: ENCODE
cannot, since its clamp bounds are the envelope (R146). -/
theorem exec_halts {i : Instr} {s t : State} (hc : s.cfg.legal = true) (hrun : s.halted = false)
    (he : exec i s = .next t) (hh : t.halted = true) :
    ∃ cmd k, (i = .txSetMotor cmd ∨ i = .setMotor cmd) ∧ (cmd.get k < 1400 ∨ 1600 < cmd.get k) ∧
      t.faultInfo.isSome = true ∧ t.out = .fault (.envelopeViolation k (cmd.get k)) := by
  cases exec_effect he with
  | reset hi => cases hh
  | port p => exact absurd (hrun.symm.trans hh) (by decide)
  | sent f hs hr => exact absurd (hrun.symm.trans hh) (by decide)
  | halted k v hr hm hv =>
    obtain ⟨cmd, hi, hv⟩ | ⟨w, -, hv⟩ := hv
    · obtain ⟨-, -, -, -, -, hlo, hhi⟩ := constants_of_legal hc
      obtain ⟨rfl, hout, -⟩ := firstViolation_eq_some.1 hv
      rw [outsideEnvelope_eq_true, hlo, hhi] at hout
      exact ⟨cmd, k, hi, hout, by dsimp only; split <;> simp_all, rfl⟩
    · rw [firstViolation_encodeLanes hc w] at hv
      cases hv
  | skipped k v hr hm => exact absurd (hrun.symm.trans hh) (by decide)
  | fed bs t hr hfed =>
    rw [(feedAll_tx hfed).2, hrun] at hh
    cases hh

/-- What is decoded is never an operation. -/
theorem decode_ne_txSetMotor {c : Config} {bs rest : List Byte} {cmd : Lanes Int} :
    decode c bs ≠ .ok (.txSetMotor cmd, rest) := by
  intro h
  obtain ⟨-, opc, p, row, -, hbuild, -⟩ := decode_eq_ok h
  cases row <;> cases hbuild

/-- Which moves invoke a motor command. -/
theorem invokes_motor {m : Move} {s : State} {i : Instr} {cmd : Lanes Int}
    (hi : i = .txSetMotor cmd ∨ i = .setMotor cmd) (hv : Invokes m s i) :
    m = .op (.txSetMotor cmd) ∨ m = .op (.setMotor cmd) ∨
      (∃ bs after, m = .wire bs ∧ decode s.cfg bs = .ok (.setMotor cmd, after)) ∨
      (m = .txResult ∧ s.out = .motor cmd) := by
  cases m with
  | op j =>
    obtain rfl : i = j := hv
    exact hi.elim (fun h => .inl (by rw [h])) fun h => .inr (.inl (by rw [h]))
  | wire bs =>
    obtain ⟨after, hd⟩ := hv
    obtain rfl | rfl := hi
    · exact absurd hd decode_ne_txSetMotor
    · exact .inr (.inr (.inl ⟨bs, after, rfl, hd⟩))
  | txResult =>
    obtain ⟨c, hout, rfl⟩ := hv
    obtain h | h := hi <;> cases h
    exact .inr (.inr (.inr ⟨rfl, hout⟩))
  | sendVelocity v => obtain rfl : i = _ := hv; obtain h | h := hi <;> cases h
  | sendNeutral => obtain rfl : i = _ := hv; obtain h | h := hi <;> cases h
  | feeds bs => obtain ⟨b, rest, -, rfl⟩ := hv; obtain h | h := hi <;> cases h
  | encodeResult => obtain ⟨w, -, rfl⟩ := hv; obtain h | h := hi <;> cases h
  | drain => obtain ⟨b, rest, -, rfl⟩ := hv; obtain h | h := hi <;> cases h
  | _ => cases hv

/-- Settles O50: only a motor command can halt the block (`exec_halts`), and these moves invoke one (`invokes_motor`). -/
theorem onlyAnOfferedMotorCommandCanHaltTheBlock : Obligations.OnlyAnOfferedMotorCommandCanHaltTheBlock := by
  intro s t h hrun hstep hh
  rcases step_effect hstep with ⟨m, rest, i, s', ha, -, hv, hb, -, hexec⟩ | ⟨u, hu, hb, -⟩ | ⟨c, more, -, -, hu⟩
  · obtain ⟨cmd, k, hi, hout, hinfo, hport⟩ := exec_halts (by rw [hb.cfg, h.cfgLegal]) (hb.halted.trans hrun) hexec hh
    refine ⟨cmd, k, hout, hinfo, hport, ?_⟩
    obtain rfl | rfl | ⟨bs, after, rfl, hd⟩ | ⟨rfl, ho⟩ := invokes_motor hi hv
    · exact .inl ⟨rest, ha⟩
    · exact .inr (.inl ⟨rest, ha⟩)
    · exact .inr (.inr (.inl ⟨bs, rest, after, ha, hd⟩))
    · exact .inr (.inr (.inr ⟨rest, ha, ho⟩))
  · cases hu
    rw [hb.halted, hrun] at hh
    cases hh
  · cases hu

end Sys2Proof.Machine
end

section
/-! Feeding does not depend on the cut: what a step does to the receiver is what feeding its bytes one by one does
(43_parser.md R193; 10_state.md R31; 60_exceptions.md R263). -/

namespace Sys2Proof.Machine

/-! ### Equal receivers -/

theorem SameReceiver.refl (s : State) : SameReceiver s s := ⟨rfl, rfl, rfl, rfl, rfl, rfl, rfl⟩

theorem SameReceiver.symm {s t : State} (h : SameReceiver s t) : SameReceiver t s :=
  ⟨h.rxPhase.symm, h.rxLen.symm, h.rxOpc.symm, h.rxIdx.symm, h.rxChk.symm, h.rxBuf.symm, h.rxValid.symm⟩

theorem SameReceiver.trans {s t u : State} (h : SameReceiver s t) (g : SameReceiver t u) : SameReceiver s u :=
  ⟨g.rxPhase.trans h.rxPhase, g.rxLen.trans h.rxLen, g.rxOpc.trans h.rxOpc, g.rxIdx.trans h.rxIdx,
    g.rxChk.trans h.rxChk, g.rxBuf.trans h.rxBuf, g.rxValid.trans h.rxValid⟩

/-- FEED reads the receiver and the configuration alone. -/
theorem feedByte_congr {s s' t : State} {b : Byte} (h : SameReceiver s s') (hc : s'.cfg = s.cfg)
    (hf : feedByte b s = .next t) : ∃ t', feedByte b s' = .next t' ∧ SameReceiver t t' := by
  obtain ⟨hp', hl, ho, hi, hk, hb, -⟩ := h
  cases hp : s.rxPhase with
  | sync0 =>
    rw [feedByte_sync0 hp] at hf
    cases hf
    exact ⟨_, feedByte_sync0 (hp'.trans hp), by simp only [hc], hl, ho, hi, hk, hb, rfl⟩
  | sync1 =>
    rw [feedByte_sync1 hp] at hf
    cases hf
    exact ⟨_, feedByte_sync1 (hp'.trans hp), by simp only [hc], hl, ho, hi, hk, hb, rfl⟩
  | sync2 =>
    rw [feedByte_sync2 hp] at hf
    cases hf
    exact ⟨_, feedByte_sync2 (hp'.trans hp), by simp only [hc], hl, ho, hi, hk, hb, rfl⟩
  | len =>
    rcases Nat.lt_or_ge s.cfg.maxPayload b.toNat with hb' | hb'
    · rw [feedByte_len_drop hp hb'] at hf
      cases hf
      exact ⟨_, feedByte_len_drop (hp'.trans hp) (by rwa [hc]), rfl, hl, ho, rfl, rfl, hb, rfl⟩
    · rw [feedByte_len_ok hp hb'] at hf
      cases hf
      exact ⟨_, feedByte_len_ok (hp'.trans hp) (by rwa [hc]), rfl, rfl, ho, rfl, rfl, hb, rfl⟩
  | opc =>
    rw [feedByte_opc hp] at hf
    cases hf
    exact ⟨_, feedByte_opc (hp'.trans hp), by simp only [hl], hl, rfl, hi, by simp only [hk], hb, rfl⟩
  | payload =>
    rcases Nat.lt_or_ge s.rxIdx s.cfg.maxPayload with hlt | hge
    · rw [feedByte_payload hp hlt] at hf
      cases hf
      exact ⟨_, feedByte_payload (hp'.trans hp) (by rwa [hi, hc]), by simp only [hi, hl], hl, ho, by simp only [hi],
        by simp only [hk], by simp only [hb, hi], rfl⟩
    · rw [feedByte_payload_outside hp hge] at hf
      cases hf
  | chk =>
    rw [feedByte_chk hp] at hf
    cases hf
    exact ⟨_, feedByte_chk (hp'.trans hp), rfl, hl, ho, rfl, rfl, hb, by simp only [hk]⟩

theorem feedAll_cfg {bs : List Byte} {s t : State} (h : feedAll bs s = .next t) : t.cfg = s.cfg := by
  rw [feedAll_effect h]
  rfl

theorem feedAll_congr {bs : List Byte} {s s' t : State} (h : SameReceiver s s') (hc : s'.cfg = s.cfg)
    (hf : feedAll bs s = .next t) : ∃ t', feedAll bs s' = .next t' ∧ SameReceiver t t' := by
  induction bs generalizing s s' with
  | nil => cases hf; exact ⟨s', rfl, h⟩
  | cons b bs ih =>
    obtain ⟨u, hu, ht⟩ := feedAll_cons_eq_next.1 hf
    obtain ⟨u', hu', hsame⟩ := feedByte_congr h hc hu
    obtain ⟨t', ht', hend⟩ := ih hsame (by rw [feedByte_cfg hu', feedByte_cfg hu, hc]) ht
    exact ⟨t', feedAll_cons_eq_next.2 ⟨u', hu', ht'⟩, hend⟩

theorem feedAll_append {as bs : List Byte} {s t : State} (h : feedAll as s = .next t) :
    feedAll (as ++ bs) s = feedAll bs t := by
  induction as generalizing s with
  | nil => cases h; rfl
  | cons a as ih =>
    obtain ⟨u, hu, ht⟩ := feedAll_cons_eq_next.1 h
    rw [List.cons_append, feedAll, hu, thenDo_next, ih ht]

/-! ### An instruction, a move -/

/-- Feeding the bytes `bs` in `s` leaves the receiver of `t`. -/
def FeedsTo (bs : List Byte) (s t : State) : Prop := ∃ u, feedAll bs s = .next u ∧ SameReceiver u t

theorem FeedsTo.of_same {s t : State} (h : SameReceiver s t) : FeedsTo [] s t := ⟨s, rfl, h⟩

theorem FeedsTo.congr {bs : List Byte} {s s' t : State} (h : FeedsTo bs s t) (hr : SameReceiver s s')
    (hc : s'.cfg = s.cfg) : FeedsTo bs s' t := by
  obtain ⟨u, hu, hut⟩ := h
  obtain ⟨u', hu', hsame⟩ := feedAll_congr hr hc hu
  exact ⟨u', hu', hsame.symm.trans hut⟩

theorem FeedsTo.append {as bs : List Byte} {s t v : State} (h : FeedsTo as s t) (hc : t.cfg = s.cfg)
    (g : FeedsTo bs t v) : FeedsTo (as ++ bs) s v := by
  obtain ⟨u, hu, hut⟩ := h
  obtain ⟨w, hw, hwv⟩ := g.congr hut.symm (by rw [feedAll_cfg hu, hc])
  exact ⟨w, by rw [feedAll_append hu, hw], hwv⟩

theorem FeedsTo.same {bs : List Byte} {s s' t t' : State} (h : FeedsTo bs s t) (g : FeedsTo bs s' t')
    (hr : SameReceiver s s') (hc : s'.cfg = s.cfg) : SameReceiver t t' := by
  obtain ⟨u, hu, hut⟩ := h.congr hr hc
  obtain ⟨u', hu', hut'⟩ := g
  rw [hu] at hu'
  cases hu'
  exact hut.symm.trans hut'

theorem query_sameReceiver {hit : State → Bool} {n : State → Nat} {f : State → List Byte → Port} {miss : Port}
    {s t : State} (h : query hit n f miss s = .next t) : SameReceiver s t := by
  rw [query_eq_next h]
  exact ⟨rfl, rfl, rfl, rfl, rfl, rfl, rfl⟩

theorem checkEnvelope_sameReceiver {cmd : Lanes Int} {ok : State → Result} {s t : State}
    (hok : ∀ t, ok s = .next t → SameReceiver s t) (h : checkEnvelope cmd s ok = .next t) : SameReceiver s t :=
  (checkEnvelope_eq_next h).elim (fun h => hok t h.2) fun h => h.2.1

/-- An instruction of a running block does to the receiver what feeding its inbound bytes does. -/
theorem runningBody_feedsTo {i : Instr} {s t : State} (hi : i ≠ .reset) (h : runningBody i s = .next t) :
    FeedsTo (inboundBytes s.cfg i) s t := by
  cases i with
  | rawImu r => exact ⟨t, h, .refl t⟩
  | attitude a => exact ⟨t, h, .refl t⟩
  | otherFrame opc p => exact ⟨t, h, .refl t⟩
  | feed b => exact ⟨t, feedAll_cons_eq_next.2 ⟨t, h, rfl⟩, .refl t⟩
  | setMotor cmd | txSetMotor cmd =>
    exact .of_same (checkEnvelope_sameReceiver (fun t ht => by cases ht; exact ⟨rfl, rfl, rfl, rfl, rfl, rfl, rfl⟩) h)
  | encode w => exact .of_same (checkEnvelope_sameReceiver (fun t ht => by cases ht; exact ⟨rfl, rfl, rfl, rfl, rfl, rfl, rfl⟩) h)
  | getRawImu | getAttitude | getFrame => rw [runningBody] at h; exact .of_same (query_sameReceiver h)
  | reset => exact absurd rfl hi
  | _ => cases h; exact .of_same ⟨rfl, rfl, rfl, rfl, rfl, rfl, rfl⟩

/-- The bytes a move feeds are those of the instruction it invokes. -/
theorem moveFeeds_of_invokes {m : Move} {s : State} {i : Instr} (h : Invokes m s i) :
    moveFeeds s m = inboundBytes s.cfg i := by
  cases m with
  | op j => rw [show i = j from h]; rfl
  | wire bs => obtain ⟨rest, hd⟩ := h; simp only [moveFeeds, hd]
  | feeds bs => obtain ⟨b, rest, rfl, rfl⟩ := h; rfl
  | drain => obtain ⟨b, rest, ht, rfl⟩ := h; simp [moveFeeds, ht, inboundBytes]
  | sendVelocity v => rw [show i = _ from h]; rfl
  | sendNeutral => rw [show i = _ from h]; rfl
  | encodeResult => obtain ⟨w, -, rfl⟩ := h; rfl
  | txResult => obtain ⟨c, -, rfl⟩ := h; rfl
  | _ => cases h

theorem moveFeeds_eq_nil {m : Move} {s : State} (h : ∀ i, ¬Invokes m s i) : moveFeeds s m = [] := by
  cases m with
  | op j => exact absurd rfl (h j)
  | wire bs =>
    cases hd : decode s.cfg bs with
    | ok r => exact absurd ⟨r.2, hd⟩ (h r.1)
    | error e => simp only [moveFeeds, hd]
  | feeds bs =>
    cases bs with
    | nil => rfl
    | cons b rest => exact absurd ⟨b, rest, rfl, rfl⟩ (h (.feed b))
  | drain =>
    cases ht : s.transport with
    | nil => simp [moveFeeds, ht]
    | cons b rest => exact absurd ⟨b, rest, ht, rfl⟩ (h (.feed b))
  | _ => rfl

/-- A move of a running block does to the receiver what feeding its bytes does. -/
theorem runMove_feedsTo {m : Move} {s t : State} (hrun : s.halted = false) (hm : m ≠ .op .reset)
    (h : runMove m s = .next t) : FeedsTo (moveFeeds s m) s t := by
  by_cases hv : ∃ i, Invokes m s i
  · obtain ⟨i, hv⟩ := hv
    have hi : i ≠ .reset := by rintro rfl; exact hm (invokes_reset hv)
    obtain ⟨s', hb, hexec⟩ := runMove_invokes hv hrun
    rw [hexec, exec_of_running (hb.halted.trans hrun)] at h
    rw [moveFeeds_of_invokes hv, ← hb.cfg]
    exact (runningBody_feedsTo hi h).congr hb.sameReceiver.symm hb.cfg.symm
  · rw [moveFeeds_eq_nil fun i hi => hv ⟨i, hi⟩]
    rcases runMove_effect h with ⟨i, -, hi, -⟩ | ⟨u, hu, hb, -⟩
    · exact absurd ⟨i, hi⟩ hv
    · cases hu
      exact .of_same hb.sameReceiver

/-! ### A step -/

section Turn

variable {s : State} {m : Move} {rest : List Move} {later : List (Option Event)}

theorem workersTurn_of_inputs (hi : (s.inputs = [] ∧ later = []) ∨ s.inputs = none :: later) : workersTurn s = true := by
  obtain ⟨hi, -⟩ | hi := hi <;> rw [workersTurn, hi]

/-- Where the worker's next move is not RESET, the step does not run RESET, and conversely. -/
theorem runsReset_iff (hi : (s.inputs = [] ∧ later = []) ∨ s.inputs = none :: later) (ha : s.agenda = m :: rest) :
    runsReset s = true ↔ m = .op .reset := by
  rw [runsReset, workersTurn_of_inputs hi, ha, Bool.true_and]
  split <;> simp_all

theorem fedBytes_of_halted (hh : s.halted = true) : fedBytes s = [] := by
  rw [fedBytes, hh, Bool.not_true, Bool.and_false]
  rfl

theorem fedBytes_of_event {e : Event} (hi : s.inputs = some e :: later) : fedBytes s = [] := by
  rw [fedBytes, workersTurn, hi]
  rfl

theorem fedBytes_of_nil (ha : s.agenda = []) : fedBytes s = [] := by
  rw [fedBytes, ha]
  exact ite_self _

theorem fedBytes_of_move (hi : (s.inputs = [] ∧ later = []) ∨ s.inputs = none :: later) (ha : s.agenda = m :: rest)
    (hrun : s.halted = false) : fedBytes s = if moveExists m s then moveFeeds s m else [] := by
  rw [fedBytes, workersTurn_of_inputs hi, hrun, ha]
  rfl

theorem takeEvent_sameBlock {e : Event} {t : State} (h : takeEvent e { s with inputs := later } = .next t) :
    SameBlock s t := by
  cases e with
  | timer => simp only [takeEvent] at h; split at h <;> cases h <;> constructor <;> rfl
  | configure c => simp only [takeEvent] at h; split at h <;> cases h; constructor <;> rfl
  | _ => cases h; constructor <;> rfl

end Turn

/-- A step without RESET does to the receiver what feeding its bytes does. -/
theorem step_feedsTo {s t : State} (h : step s = .next t) (hr : runsReset s = false) : FeedsTo (fedBytes s) s t := by
  cases hh : s.halted with
  | true =>
    rw [fedBytes_of_halted hh]
    rcases step_of_halted hh h with ⟨rest, ha, hi⟩ | hb
    · have hi' : ∃ later, (s.inputs = [] ∧ later = []) ∨ s.inputs = none :: later :=
        hi.elim (fun h => ⟨[], .inl ⟨h, rfl⟩⟩) fun ⟨more, h⟩ => ⟨more, .inr h⟩
      obtain ⟨later, hi'⟩ := hi'
      rw [(runsReset_iff hi' ha).2 rfl] at hr
      cases hr
    · exact .of_same hb.sameReceiver
  | false =>
    rcases step_cases h with ⟨later, hi, ⟨ha, hu⟩ | ⟨m, rest, ha, ⟨hm, hrun⟩ | ⟨hm, hu⟩⟩⟩ | ⟨e, later, hi, he⟩
    · cases hu
      rw [fedBytes_of_nil ha]
      exact .of_same ⟨rfl, rfl, rfl, rfl, rfl, rfl, rfl⟩
    · rw [fedBytes_of_move hi ha hh, if_pos hm]
      have hne : m ≠ .op .reset := fun hm => by rw [(runsReset_iff hi ha).2 hm] at hr; cases hr
      exact (runMove_feedsTo (by exact hh) hne hrun).congr ⟨rfl, rfl, rfl, rfl, rfl, rfl, rfl⟩ rfl
    · cases hu
      rw [fedBytes_of_move hi ha hh, if_neg (by simp [hm])]
      exact .of_same ⟨rfl, rfl, rfl, rfl, rfl, rfl, rfl⟩
    · rw [fedBytes_of_event hi]
      exact .of_same (takeEvent_sameBlock he).sameReceiver

/-- The configuration in force changes only when RESET runs, then to the chosen one, and TX is empty then (R30, R280). -/
theorem step_cfg {s t : State} (h : step s = .next t) :
    t.cfg = s.cfg ∨ (runsReset s = true ∧ t.cfg = s.chosenCfg ∧ t.tx = []) := by
  rcases step_cases h with ⟨later, hi, ⟨-, hu⟩ | ⟨m, rest, ha, ⟨-, hrun⟩ | ⟨-, hu⟩⟩⟩ | ⟨e, later, -, he⟩
  · cases hu
    exact .inl rfl
  · by_cases hm : m = .op .reset
    · subst hm
      cases hrun
      exact .inr ⟨(runsReset_iff hi ha).2 rfl, rfl, rfl⟩
    · exact .inl (runMove_host hrun hm).1
  · cases hu
    exact .inl rfl
  · exact .inl (takeEvent_sameBlock he).cfg

theorem step_cfg_of_not_reset {s t : State} (h : step s = .next t) (hr : runsReset s = false) : t.cfg = s.cfg := by
  rcases step_cfg h with hc | ⟨hreset, -⟩
  · exact hc
  · rw [hr] at hreset
    cases hreset

/-! ### Runs -/

theorem runFed_succ_eq_some {k : Nat} {s u : State} {bs : List Byte} (h : runFed (k + 1) s = some (bs, u)) :
    ∃ t cs, runsReset s = false ∧ step s = .next t ∧ runFed k t = some (cs, u) ∧ bs = fedBytes s ++ cs := by
  rw [runFed] at h
  split at h
  · cases h
  · rename_i hr
    split at h
    · rename_i t ht
      split at h
      · rename_i cs v hv
        cases h
        exact ⟨t, cs, by simpa using hr, ht, hv, rfl⟩
      · cases h
    · cases h

/-- A run without RESET does to the receiver what feeding its bytes in one go does. -/
theorem runFed_feedsTo {k : Nat} {s t : State} {bs : List Byte} (h : runFed k s = some (bs, t)) : FeedsTo bs s t := by
  induction k generalizing s bs with
  | zero => cases h; exact .of_same (.refl _)
  | succ k ih =>
    obtain ⟨u, cs, hr, hstep, hrun, rfl⟩ := runFed_succ_eq_some h
    exact (step_feedsTo hstep hr).append (step_cfg_of_not_reset hstep hr) (ih hrun)

/-- Settles O36: a step, and so a run, does to the receiver what feeding its bytes does (`step_feedsTo`,
`runFed_feedsTo`), and feeding reads the receiver and the configuration alone. -/
theorem feedingDoesNotDependOnTheCut : Obligations.FeedingDoesNotDependOnTheCut := by
  refine ⟨fun s t h hr hnil => ?_, fun s t h hr => ?_, fun j k s s' t t' bs hc hsame hj hk => ?_⟩
  · obtain ⟨u, hu, hp, hl, ho, hi, hk, hb, hv⟩ := step_feedsTo h hr
    rw [hnil] at hu
    cases hu
    exact ⟨hp, hl, ho, hi, hk, hb, hv⟩
  · obtain ⟨u, hu, hsame⟩ := step_feedsTo h hr
    cases hh : s.halted with
    | true =>
      rw [fedBytes_of_halted hh] at hu ⊢
      cases hu
      exact ⟨[], _, rfl, hsame⟩
    | false =>
      obtain ⟨ds, hds⟩ := (exists_feedRun_iff_feedAll hh).2 hu
      exact ⟨ds, u, hds, hsame⟩
  · exact (runFed_feedsTo hj).same (runFed_feedsTo hk) hsame hc

end Sys2Proof.Machine
end

section
/-! The host: what it never does has no move, a step runs what is next, and PENDING is overwritten and swapped whole
(44_host_sequences.md R221 to R223, R234 to R236; 70_reset_and_hazards.md R283). -/

namespace Sys2Proof.Machine

/-! ### What a step does to the host's side -/

theorem takeEvent_host {s t : State} {e : Event} {later : List (Option Event)}
    (h : takeEvent e { s with inputs := later } = .next t) :
    t.hostPhase = s.hostPhase ∧ (∃ bs, t.transport = s.transport ++ bs) ∧
      (t.pending = s.pending ∨ ∃ v, e = .intake v ∧ t.pending = some v) := by
  have same : ∃ bs, s.transport = s.transport ++ bs := ⟨[], (List.append_nil _).symm⟩
  cases e with
  | intake v => cases h; exact ⟨rfl, same, .inr ⟨v, rfl, rfl⟩⟩
  | arrive bs => cases h; exact ⟨rfl, ⟨bs, rfl⟩, .inl rfl⟩
  | busFailure => cases h; exact ⟨rfl, same, .inl rfl⟩
  | timer => simp only [takeEvent] at h; split at h <;> cases h <;> exact ⟨rfl, same, .inl rfl⟩
  | configure c => simp only [takeEvent] at h; split at h <;> cases h; exact ⟨rfl, same, .inl rfl⟩

/-- What a step did to where the host's process stands, to PENDING and to the transport: nothing, or RESET ran, or a move
that the host has there was made, or an outside event took place. -/
inductive HostStep (s t : State) : Prop where
  | none (hp : t.hostPhase = s.hostPhase) (hq : t.pending = s.pending) (ht : t.transport = s.transport)
  | reset (hr : runsReset s = true) (hp : t.hostPhase = .booting) (hq : t.pending = Option.none)
      (ht : t.transport = s.transport)
  | move (m : Move) (rest : List Move) (ha : s.agenda = m :: rest) (hm : moveExists m s = true)
      (hp : t.hostPhase = phaseAfter m s.tx.length s.hostPhase)
      (hq : t.pending = if m = .consume then Option.none else s.pending)
      (ht : t.transport =
        if m = .flush then [] else if m = .drain ∧ s.halted = false then s.transport.tail else s.transport)
      (hf : m = .flush → SameReceiver s t)
  | event (hp : t.hostPhase = s.hostPhase) (ht : ∃ bs, t.transport = s.transport ++ bs)
      (hq : t.pending = s.pending ∨ ∃ v later, s.inputs = some (.intake v) :: later ∧ t.pending = some v)

theorem step_hostStep {s t : State} (h : step s = .next t) : HostStep s t := by
  rcases step_cases h with ⟨later, hi, ⟨-, hu⟩ | ⟨m, rest, ha, ⟨hm, hrun⟩ | ⟨-, hu⟩⟩⟩ | ⟨e, later, hi, he⟩
  · cases hu
    exact .none rfl rfl rfl
  · by_cases hreset : m = .op .reset
    · subst hreset
      cases hrun
      exact .reset ((runsReset_iff hi ha).2 rfl) rfl rfl rfl
    · obtain ⟨-, hq, ht, hp⟩ := runMove_host hrun hreset
      refine .move m rest ha hm hp hq ht fun hf => ?_
      subst hf
      cases hrun
      exact ⟨rfl, rfl, rfl, rfl, rfl, rfl, rfl⟩
  · cases hu
    exact .none rfl rfl rfl
  · obtain ⟨hp, ht, hq⟩ := takeEvent_host he
    exact .event hp ht (hq.imp_right fun ⟨v, hv, hq⟩ => ⟨v, later, hv ▸ hi, hq⟩)

/-- Settles O51: by `HostStep`; a move that changes where the process stands exists only where the statement says, and
the drain and the swap exist only while the host ticks. -/
theorem whatTheHostIsAssumedNeverToDoHasNoMove : Obligations.WhatTheHostIsAssumedNeverToDoHasNoMove := by
  intro s t h
  have same : ∃ bs, s.transport = s.transport ++ bs := ⟨[], (List.append_nil _).symm⟩
  refine ⟨step_cfg h, ?_⟩
  cases step_hostStep h with
  | none hp hq ht => exact ⟨.inl hp, fun _ => ⟨.inl (ht ▸ same), .inl hq⟩⟩
  | reset hr hp hq ht => exact ⟨.inr (.inl ⟨hr, hp⟩), fun _ => ⟨.inl (ht ▸ same), .inr (.inl ⟨hr, hq⟩)⟩⟩
  | event hp ht hq => exact ⟨.inl hp, fun _ => ⟨.inl ht, hq.imp_right .inr⟩⟩
  | move m rest ha hm hp hq ht hf =>
    constructor
    · cases m with
      | openTransport ok =>
        have hboot : s.hostPhase = .booting := of_decide_eq_true hm
        cases ok with
        | true => exact .inr (.inr (.inl ⟨hboot, hp⟩))
        | false => exact .inr (.inr (.inr (.inr (.inr (.inr (.inr (.inr (.inr ⟨hboot, hp, rest, ha⟩))))))))
      | wait d =>
        cases d with
        | settle => exact .inr (.inr (.inr (.inl ⟨of_decide_eq_true hm, hp⟩)))
        | hold =>
          obtain ⟨hphase, hneutral⟩ := (Bool.and_eq_true _ _).mp hm
          exact .inr (.inr (.inr (.inr (.inr (.inl
            ⟨_, of_decide_eq_true hphase, hp, neutralJustSent_iff.1 hneutral⟩)))))
        | shutdown =>
          obtain ⟨hphase, hneutral⟩ := (Bool.and_eq_true _ _).mp hm
          exact .inr (.inr (.inr (.inr (.inr (.inr (.inr (.inl ⟨of_decide_eq_true hphase, hp, hneutral⟩)))))))
      | flush => exact .inr (.inr (.inr (.inr (.inl ⟨of_decide_eq_true hm, hp, ht⟩))))
      | begin =>
        obtain ⟨hphase, hneutral⟩ := (Bool.and_eq_true _ _).mp hm
        exact .inr (.inr (.inr (.inr (.inr (.inr (.inl ⟨of_decide_eq_true hphase, hp, hneutral⟩))))))
      | release =>
        obtain ⟨hphase, hneutral⟩ := (Bool.and_eq_true _ _).mp hm
        exact .inr (.inr (.inr (.inr (.inr (.inr (.inr (.inr (.inl ⟨of_decide_eq_true hphase, hp, hneutral⟩))))))))
      | _ => exact .inl hp
    · intro hnot
      have hconsume : m ≠ .consume := by rintro rfl; exact hnot (of_decide_eq_true hm)
      have hdrain : m ≠ .drain := by rintro rfl; exact hnot (of_decide_eq_true hm)
      rw [if_neg hconsume] at hq
      refine ⟨?_, .inl hq⟩
      by_cases hflush : m = .flush
      · subst hflush
        exact .inr ⟨of_decide_eq_true hm, ht, hf rfl⟩
      · rw [if_neg hflush, if_neg (fun h => hdrain h.1)] at ht
        exact .inl (ht ▸ same)

/-! ### A step runs what is next -/

section Turn

variable {s : State} {m : Move} {rest : List Move} {later : List (Option Event)}

/-- A move the host does not have where its process stands is passed over (R236; log 31). -/
theorem step_of_missing_move (hi : (s.inputs = [] ∧ later = []) ∨ s.inputs = none :: later) (ha : s.agenda = m :: rest)
    (hm : moveExists m s = false) : step s = .next { s with agenda := rest, inputs := later } := by
  obtain ⟨hnil, rfl⟩ | hnone := hi
  · have hself : { s with agenda := rest, inputs := [] } = { s with agenda := rest } := by rw [← hnil]
    rw [hself]
    simp [step, scheduledStep, hnil, workerStep, ha, hm]
  · simp only [step, scheduledStep, hnone, workerStep, ha]
    exact if_neg (Bool.eq_false_iff.1 ((moveExists_congr rfl rfl rfl).trans hm))

theorem step_of_op {i : Instr} (hi : (s.inputs = [] ∧ later = []) ∨ s.inputs = none :: later)
    (ha : s.agenda = .op i :: rest) : step s = exec i { s with agenda := rest, inputs := later } := by
  rw [step_of_worker_turn hi ha rfl]
  exact perform_eq_exec i _

theorem step_of_wire {bs : List Byte} (hi : (s.inputs = [] ∧ later = []) ∨ s.inputs = none :: later)
    (ha : s.agenda = .wire bs :: rest) : step s = runWire bs { s with agenda := rest, inputs := later } :=
  step_of_worker_turn hi ha rfl

theorem runWire_of_frame {bs : List Byte} {i : Instr} (hd : decode s.cfg bs = .ok (i, [])) :
    runWire bs s = exec i s := by
  simp only [runWire, hd, perform_eq_exec]

theorem runWire_of_frame_more {bs more : List Byte} {b : Byte} {i : Instr}
    (hd : decode s.cfg bs = .ok (i, b :: more)) : runWire bs s = exec i (push [.wire (b :: more)] s) := by
  simp only [runWire, hd, perform_eq_exec]

theorem runWire_of_error {bs : List Byte} {e : Reject} (hd : decode s.cfg bs = .error e) :
    runWire bs s = .next (push [.feeds bs] s) := by
  simp only [runWire, hd]

end Turn

/-- Settles O54: the step is `runWire`, which runs what the bytes decode to. -/
theorem stepRunsTheDecodedFrame : Obligations.StepRunsTheDecodedFrame := by
  intro s bs rest later i ha hi
  rw [step_of_wire hi ha]
  refine ⟨fun hd => ?_, fun b more hd => ?_, fun e hd => ?_, fun nbits w hd => ?_⟩
  · exact runWire_of_frame (s := { s with agenda := rest, inputs := later }) hd
  · exact runWire_of_frame_more (s := { s with agenda := rest, inputs := later }) hd
  · exact runWire_of_error (s := { s with agenda := rest, inputs := later }) hd
  · rw [step_of_wire (s := s.withFetchWord nbits w) (.inr rfl) rfl]
    exact runWire_of_frame hd

theorem step_of_idle {s : State} {later : List (Option Event)}
    (hi : (s.inputs = [] ∧ later = []) ∨ s.inputs = none :: later) (ha : s.agenda = []) :
    step s = .next { s with inputs := later } := by
  obtain ⟨hi, rfl⟩ | hi := hi
  · have hself : { s with inputs := [] } = s := by rw [← hi]
    rw [hself, step, scheduledStep, hi]
    simp only [workerStep, ha]
  · simp only [step, scheduledStep, hi, workerStep, ha]

/-- Settles O55: the operation is a move that always exists; the moves listed do not exist where the statement says. -/
theorem stepPerformsTheNextOperationOrIdles : Obligations.StepPerformsTheNextOperationOrIdles := by
  intro s later hi
  refine ⟨fun i rest => step_of_op hi, step_of_idle hi, fun m rest ha hm => step_of_missing_move hi ha ?_⟩
  obtain ⟨rfl | rfl | rfl, hnot⟩ | ⟨rfl, hnot⟩ | ⟨rfl, hnot⟩ | ⟨rfl, hnot⟩ := hm
  · exact decide_eq_false hnot
  · exact decide_eq_false hnot
  · exact decide_eq_false hnot
  · exact (Bool.and_eq_false_iff).2 (hnot.imp_left decide_eq_false)
  · exact (Bool.and_eq_false_iff).2 (hnot.imp_left decide_eq_false)
  · exact (Bool.and_eq_false_iff).2 (hnot.imp_left decide_eq_false)

/-! ### PENDING -/

/-- Settles O56: the intake is an outside event, and the swap is the one move `consume`. -/
theorem pendingIsOverwrittenAndSwappedWhole : Obligations.PendingIsOverwrittenAndSwappedWhole := by
  intro s v later rest
  refine ⟨fun hi => ?_, fun hi _ hticking ha => ?_⟩
  · simp only [step, scheduledStep, hi, takeEvent]
  · rw [step_of_worker_turn hi ha (decide_eq_true hticking)]
    constructor
    · intro hp
      simp only [runMove, runConsume, hp]
      rfl
    · intro hp
      simp only [runMove, runConsume, hp]

end Sys2Proof.Machine
end

section
/-! The Velocity Mixer and the Command Encoder: how MIX bounds, scales and saturates its lanes, and that ENCODE is monotonic
and changes none of them by its clamp (40_mixer.md R125 to R130; 41_encoder.md R147, R148). -/

namespace Sys2Proof.Machine

/-! ### Scaled inputs give scaled lanes -/

section Mixer

variable {α : Type} [Field α] [LinearOrder α] {c : Config α} {vx vy vr : α}

theorem rawSpeeds_of_scaled {wx wy wr : α} (k : α) (hx : clampInput c wx = k * clampInput c vx)
    (hy : clampInput c wy = k * clampInput c vy) (hr : clampInput c wr = k * clampInput c vr) :
    rawSpeeds c wx wy wr = (rawSpeeds c vx vy vr).map (k * ·) := by
  refine Lanes.ext_get fun j => ?_
  simp only [rawSpeeds, Lanes.get_map, dotRow, hx, hy, hr]
  ring

variable [IsStrictOrderedRing α]

theorem clampInput_of_legal (hc : c.legal = true) (v : α) : clampInput c v = max (-1) (min v 1) := by
  obtain ⟨hlo, hhi, -⟩ := constants_of_legal hc
  rw [clampInput, hlo, hhi, clampNum_eq_max_min (neg_le_self zero_le_one)]

theorem clampInput_of_mem (hc : c.legal = true) {v : α} (hlo : -1 ≤ v) (hhi : v ≤ 1) : clampInput c v = v := by
  rw [clampInput_of_legal hc, min_eq_left hhi, max_eq_right hlo]

theorem clampInput_neg (hc : c.legal = true) (v : α) : clampInput c (-v) = -1 * clampInput c v := by
  rw [clampInput_of_legal hc, clampInput_of_legal hc, neg_one_mul, ← min_neg_neg, ← max_neg_neg, neg_neg,
    max_min_distrib_left, max_eq_right (neg_le_self (zero_le_one (α := α))), min_comm, max_comm]

theorem abs_clampInput_le_one (hc : c.legal = true) (v : α) : |clampInput c v| ≤ 1 := by
  rw [clampInput_of_legal hc, abs_le]
  exact ⟨le_max_left _ _, max_le (neg_le_self zero_le_one) (min_le_right _ _)⟩

theorem amplitude_map_mul (k : α) (r : Lanes α) : amplitude (r.map (k * ·)) = |k| * amplitude r := by
  simp only [amplitude_eq_max_get, Lanes.get_map, abs_mul, mul_max_of_nonneg _ _ (abs_nonneg k)]

theorem amplitude_nonneg (r : Lanes α) : 0 ≤ amplitude r := (abs_nonneg _).trans (abs_get_le_amplitude r 0)

/-! ### Both sides of the threshold -/

theorem half_le_one_iff {x : α} : x / 2 ≤ 1 ↔ x ≤ 2 := by
  rw [div_le_iff₀ two_pos, one_mul]

theorem one_lt_half_iff {x : α} : 1 < x / 2 ↔ 2 < x := by
  rw [← not_le, half_le_one_iff, not_le]

theorem mixLanes_of_amplitude_le (hc : c.legal = true) (h : amplitude (rawSpeeds c vx vy vr) ≤ 2) :
    mixLanes c vx vy vr = rawSpeeds c vx vy vr :=
  mixLanes_eq_rawSpeeds hc (half_le_one_iff.2 h)

/-- Every lane of MIX lies in [−2, 2] (R127). -/
theorem abs_mixLanes_get_le_two (hc : c.legal = true) (k : Fin 4) : |(mixLanes c vx vy vr).get k| ≤ 2 := by
  rcases le_or_gt (amplitude (rawSpeeds c vx vy vr)) 2 with h | h
  · rw [mixLanes_of_amplitude_le hc h]
    exact (abs_get_le_amplitude _ k).trans h
  · exact abs_mixLanes_get_le_two_of_saturated hc (one_lt_half_iff.2 h) k

/-- The saturation is one factor for all lanes (R125). -/
theorem mixLanes_get_eq_mul (hc : c.legal = true) (h : 0 < amplitude (rawSpeeds c vx vy vr)) (k : Fin 4) :
    (mixLanes c vx vy vr).get k =
      (rawSpeeds c vx vy vr).get k * min 1 (1 / (amplitude (rawSpeeds c vx vy vr) / 2)) := by
  have hpos : 0 < amplitude (rawSpeeds c vx vy vr) / 2 := half_pos h
  rcases le_or_gt (amplitude (rawSpeeds c vx vy vr) / 2) 1 with hs | hs
  · rw [mixLanes_eq_rawSpeeds hc hs, min_eq_left ((one_le_div hpos).2 hs), mul_one]
  · rw [mixLanes_get_of_saturated hc hs, min_eq_right ((div_le_one hpos).2 hs.le), mul_one_div]

theorem rawSpeeds_get_of_amplitude_zero (h : amplitude (rawSpeeds c vx vy vr) = 0) (k : Fin 4) :
    (rawSpeeds c vx vy vr).get k = 0 :=
  abs_nonpos_iff.1 (h ▸ abs_get_le_amplitude _ k)

/-- A lane that has the amplitude, at least 2, comes out at exactly 2 (R148). -/
theorem abs_mixLanes_get_of_maximal (hc : c.legal = true) (h : 2 ≤ amplitude (rawSpeeds c vx vy vr)) {k : Fin 4}
    (hk : |(rawSpeeds c vx vy vr).get k| = amplitude (rawSpeeds c vx vy vr)) : |(mixLanes c vx vy vr).get k| = 2 := by
  rcases h.eq_or_lt with heq | hlt
  · rw [mixLanes_of_amplitude_le hc heq.ge, hk, heq]
  · have hs := one_lt_half_iff.2 hlt
    rw [abs_mixLanes_get_of_saturated hc hs, hk, div_eq_iff (zero_lt_one.trans hs).ne', mul_div_cancel₀ _ two_ne_zero]

/-- MIX keeps the sign of every lane. -/
theorem mixLanes_get_pos_iff (hc : c.legal = true) (k : Fin 4) :
    0 < (mixLanes c vx vy vr).get k ↔ 0 < (rawSpeeds c vx vy vr).get k := by
  rcases le_or_gt (amplitude (rawSpeeds c vx vy vr) / 2) 1 with hs | hs
  · rw [mixLanes_eq_rawSpeeds hc hs]
  · rw [mixLanes_get_of_saturated hc hs, div_pos_iff_of_pos_right (zero_lt_one.trans hs)]

/-! ### Zero, rotation, linearity, oddness -/

theorem rawSpeeds_zero (hc : c.legal = true) : rawSpeeds c 0 0 0 = ⟨0, 0, 0, 0⟩ := by
  have h0 : clampInput c 0 = 0 := clampInput_of_mem hc (by simp) zero_le_one
  simp [rawSpeeds, dotRow, h0, Lanes.map]

theorem mixLanes_zero (hc : c.legal = true) : mixLanes c 0 0 0 = ⟨0, 0, 0, 0⟩ := by
  rw [mixLanes_of_amplitude_le hc, rawSpeeds_zero hc]
  rw [rawSpeeds_zero hc, amplitude_eq_max]
  simp

/-- A coefficient of the layout is 1 or −1 (R121). -/
theorem layout_unit (hc : c.legal = true) (k : Fin 4) :
    |(c.layout.get k).fwd| = 1 ∧ |(c.layout.get k).lat| = 1 ∧ |(c.layout.get k).rot| = 1 := by
  have hunit : ∀ x : α, isUnit x = true → |x| = 1 := by
    intro x hx
    rw [isUnit, Bool.or_eq_true, beq_iff_eq, beq_iff_eq] at hx
    obtain rfl | rfl := hx <;> simp
  have h := (layout_of_legal hc).1 k
  rw [Axes.isUnitRow, Bool.and_eq_true, Bool.and_eq_true] at h
  exact ⟨hunit _ h.1.1, hunit _ h.1.2, hunit _ h.2⟩

theorem rawSpeeds_rotation (hc : c.legal = true) {r : α} (hlo : -1 ≤ r) (hhi : r ≤ 1) (k : Fin 4) :
    (rawSpeeds c 0 0 r).get k = (c.layout.get k).rot * r := by
  have h0 : clampInput c 0 = 0 := clampInput_of_mem hc (by simp) zero_le_one
  simp [rawSpeeds, dotRow, h0, clampInput_of_mem hc hlo hhi]

theorem abs_rawSpeeds_rotation (hc : c.legal = true) {r : α} (hlo : -1 ≤ r) (hhi : r ≤ 1) (k : Fin 4) :
    |(rawSpeeds c 0 0 r).get k| = |r| := by
  rw [rawSpeeds_rotation hc hlo hhi, abs_mul, (layout_unit hc k).2.2, one_mul]

/-- In pure rotation no lane exceeds 1, so nothing is divided (R130 (b)). -/
theorem mixLanes_rotation (hc : c.legal = true) {r : α} (hlo : -1 ≤ r) (hhi : r ≤ 1) :
    mixLanes c 0 0 r = rawSpeeds c 0 0 r := by
  refine mixLanes_of_amplitude_le hc ?_
  obtain ⟨k, hk⟩ := exists_abs_get_eq_amplitude (rawSpeeds c 0 0 r)
  rw [← hk, abs_rawSpeeds_rotation hc hlo hhi]
  exact (abs_le.2 ⟨hlo, hhi⟩).trans one_le_two

/-- Below saturation MIX is linear (R130 (c)). -/
theorem mixLanes_mul (hc : c.legal = true) {k : α} (hx : |vx| ≤ 1) (hy : |vy| ≤ 1) (hr : |vr| ≤ 1)
    (hamp : amplitude (rawSpeeds c vx vy vr) ≤ 2) (h0 : 0 ≤ k) (h1 : k ≤ 1) :
    mixLanes c (k * vx) (k * vy) (k * vr) = (mixLanes c vx vy vr).map (k * ·) := by
  have hclamp : ∀ v : α, |v| ≤ 1 → clampInput c (k * v) = k * clampInput c v := by
    intro v hv
    have hkv : |k * v| ≤ 1 := by
      rw [abs_mul, abs_of_nonneg h0]
      exact mul_le_one₀ h1 (abs_nonneg v) hv
    rw [clampInput_of_mem hc (abs_le.1 hkv).1 (abs_le.1 hkv).2, clampInput_of_mem hc (abs_le.1 hv).1 (abs_le.1 hv).2]
  have hraw := rawSpeeds_of_scaled k (hclamp vx hx) (hclamp vy hy) (hclamp vr hr)
  have hamp' : amplitude (rawSpeeds c (k * vx) (k * vy) (k * vr)) ≤ 2 := by
    rw [hraw, amplitude_map_mul, abs_of_nonneg h0]
    exact (mul_le_of_le_one_left (amplitude_nonneg _) h1).trans hamp
  rw [mixLanes_of_amplitude_le hc hamp', mixLanes_of_amplitude_le hc hamp, hraw]

/-- MIX is odd (R130 (d)). -/
theorem mixLanes_neg (hc : c.legal = true) :
    mixLanes c (-vx) (-vy) (-vr) = (mixLanes c vx vy vr).map (-1 * ·) := by
  have hraw := rawSpeeds_of_scaled (-1) (clampInput_neg hc vx) (clampInput_neg hc vy) (clampInput_neg hc vr)
  have hamp : amplitude (rawSpeeds c (-vx) (-vy) (-vr)) = amplitude (rawSpeeds c vx vy vr) := by
    rw [hraw, amplitude_map_mul, abs_neg, abs_one, one_mul]
  refine Lanes.ext_get fun j => ?_
  rw [Lanes.get_map, mixLanes_get hc, mixLanes_get hc, hamp, hraw, Lanes.get_map]
  split
  · exact mul_div_assoc _ _ _
  · rfl

/-! ### The amplitude is the sum of the clamped magnitudes -/

theorem abs_rawSpeeds_get_le (hc : c.legal = true) (k : Fin 4) :
    |(rawSpeeds c vx vy vr).get k| ≤ |clampInput c vx| + |clampInput c vy| + |clampInput c vr| := by
  obtain ⟨hf, hl, hr⟩ := layout_unit hc k
  rw [rawSpeeds, Lanes.get_map, dotRow]
  refine (abs_add_three _ _ _).trans_eq ?_
  rw [abs_mul, abs_mul, abs_mul, hf, hl, hr, one_mul, one_mul, one_mul]

omit [IsStrictOrderedRing α] in
theorem mul_self_of_abs_eq_one {x : α} (h : |x| = 1) : x * x = 1 := by
  rw [← abs_mul_abs_self, h, one_mul]

/-- A sign that turns `x` into its magnitude. -/
theorem exists_sign (x : α) : ∃ e : α, |e| = 1 ∧ e * x = |x| := by
  rcases le_total 0 x with h | h
  · exact ⟨1, abs_one, by rw [one_mul, abs_of_nonneg h]⟩
  · exact ⟨-1, by simp, by rw [neg_one_mul, abs_of_nonpos h]⟩

theorem eq_one_of_add_one_ne_zero {x : α} (hx : x * x = 1) (h : 1 + x ≠ 0) : x = 1 :=
  (mul_self_eq_one_iff.1 hx).resolve_right fun hneg => h (by rw [hneg, add_neg_cancel])

/-- Orthogonal columns of signs hold every pattern of three signs in some row, up to a common sign: the sum over the
rows of `(1 + f·l·p)(1 + f·r·q)` is 4, so some row has `f·l·p = 1` and `f·r·q = 1`. -/
theorem exists_row_of_signs (hc : c.legal = true) {p q : α} (hp : p * p = 1) (hq : q * q = 1) :
    ∃ k, (c.layout.get k).fwd * (c.layout.get k).lat * p = 1 ∧ (c.layout.get k).fwd * (c.layout.get k).rot * q = 1 := by
  obtain ⟨-, hfl, hfr, hlr⟩ := layout_of_legal hc
  have hsq : ∀ k, (c.layout.get k).fwd * (c.layout.get k).fwd = 1 ∧ (c.layout.get k).lat * (c.layout.get k).lat = 1 ∧
      (c.layout.get k).rot * (c.layout.get k).rot = 1 := by
    intro k
    obtain ⟨hf, hl, hr⟩ := layout_unit hc k
    exact ⟨mul_self_of_abs_eq_one hf, mul_self_of_abs_eq_one hl, mul_self_of_abs_eq_one hr⟩
  by_contra hnone
  have hterm : ∀ k, (1 + (c.layout.get k).fwd * (c.layout.get k).lat * p) *
      (1 + (c.layout.get k).fwd * (c.layout.get k).rot * q) = 0 := by
    intro k
    obtain ⟨hf, hl, hr⟩ := hsq k
    by_contra hne
    obtain ⟨h1, h2⟩ := mul_ne_zero_iff.1 hne
    refine hnone ⟨k, eq_one_of_add_one_ne_zero ?_ h1, eq_one_of_add_one_ne_zero ?_ h2⟩
    · linear_combination (c.layout.get k).lat * (c.layout.get k).lat * p * p * hf + p * p * hl + hp
    · linear_combination (c.layout.get k).rot * (c.layout.get k).rot * q * q * hf + q * q * hr + hq
  have hsum : (4 : α) = 0 := by
    simp only [columnProduct] at hfl hfr hlr
    have h0 := hterm 0
    have h1 := hterm 1
    have h2 := hterm 2
    have h3 := hterm 3
    have f0 := (hsq 0).1
    have f1 := (hsq 1).1
    have f2 := (hsq 2).1
    have f3 := (hsq 3).1
    simp only [Lanes.get] at h0 h1 h2 h3 f0 f1 f2 f3
    linear_combination h0 + h1 + h2 + h3 - p * hfl - q * hfr - p * q * hlr
      - p * q * c.layout.l0.lat * c.layout.l0.rot * f0 - p * q * c.layout.l1.lat * c.layout.l1.rot * f1
      - p * q * c.layout.l2.lat * c.layout.l2.rot * f2 - p * q * c.layout.l3.lat * c.layout.l3.rot * f3
  exact four_ne_zero hsum

/-- Some lane attains the sum of the magnitudes: the one whose signs are those of the inputs, up to a common sign. -/
theorem exists_abs_rawSpeeds_get_eq (hc : c.legal = true) :
    ∃ k, |(rawSpeeds c vx vy vr).get k| = |clampInput c vx| + |clampInput c vy| + |clampInput c vr| := by
  obtain ⟨ex, habs, hx⟩ := exists_sign (clampInput c vx)
  obtain ⟨ey, hey, hy⟩ := exists_sign (clampInput c vy)
  obtain ⟨er, her, hr⟩ := exists_sign (clampInput c vr)
  have hex : ex * ex = 1 := mul_self_of_abs_eq_one habs
  have hey : ey * ey = 1 := mul_self_of_abs_eq_one hey
  have her : er * er = 1 := mul_self_of_abs_eq_one her
  obtain ⟨k, hlat, hrot⟩ := exists_row_of_signs hc (p := ex * ey) (q := ex * er)
    (by linear_combination ey * ey * hex + hey) (by linear_combination er * er * hex + her)
  refine ⟨k, ?_⟩
  obtain ⟨hf, -, -⟩ := layout_unit hc k
  have hff : (c.layout.get k).fwd * (c.layout.get k).fwd = 1 := mul_self_of_abs_eq_one hf
  have hlane : (rawSpeeds c vx vy vr).get k =
      (c.layout.get k).fwd * ex * (|clampInput c vx| + |clampInput c vy| + |clampInput c vr|) := by
    rw [rawSpeeds, Lanes.get_map, dotRow, ← hx, ← hy, ← hr]
    have hl : (c.layout.get k).lat = (c.layout.get k).fwd * ex * ey := by
      linear_combination (c.layout.get k).fwd * ex * ey * hlat - (c.layout.get k).lat * ex * ex * ey * ey * hff
        - (c.layout.get k).lat * ey * ey * hex - (c.layout.get k).lat * hey
    have hr' : (c.layout.get k).rot = (c.layout.get k).fwd * ex * er := by
      linear_combination (c.layout.get k).fwd * ex * er * hrot - (c.layout.get k).rot * ex * ex * er * er * hff
        - (c.layout.get k).rot * er * er * hex - (c.layout.get k).rot * her
    rw [hl, hr']
    linear_combination -(c.layout.get k).fwd * clampInput c vx * hex
  rw [hlane, abs_mul, abs_mul, hf, habs, one_mul, one_mul]
  exact abs_of_nonneg (by positivity)

theorem amplitude_rawSpeeds (hc : c.legal = true) :
    amplitude (rawSpeeds c vx vy vr) = |clampInput c vx| + |clampInput c vy| + |clampInput c vr| := by
  refine le_antisymm ?_ ?_
  · obtain ⟨k, hk⟩ := exists_abs_get_eq_amplitude (rawSpeeds c vx vy vr)
    exact hk ▸ abs_rawSpeeds_get_le hc k
  · obtain ⟨k, hk⟩ := exists_abs_rawSpeeds_get_eq (vx := vx) (vy := vy) (vr := vr) hc
    exact hk ▸ abs_get_le_amplitude _ k

theorem mixLanes_ne_rawSpeeds_iff (hc : c.legal = true) :
    mixLanes c vx vy vr ≠ rawSpeeds c vx vy vr ↔ 2 < amplitude (rawSpeeds c vx vy vr) := by
  constructor
  · intro hne
    by_contra hle
    exact hne (mixLanes_of_amplitude_le hc (not_lt.1 hle))
  · intro hlt heq
    obtain ⟨k, hk⟩ := exists_abs_get_eq_amplitude (rawSpeeds c vx vy vr)
    have htwo := abs_mixLanes_get_of_maximal hc hlt.le hk
    rw [heq, hk] at htwo
    exact hlt.ne' htwo

end Mixer

/-- Settles O11: `amplitude_rawSpeeds`; each clamped magnitude is at most 1, and MIX divides above 2. -/
theorem amplitudeIsTheSumOfTheClampedInputs : Obligations.AmplitudeIsTheSumOfTheClampedInputs := by
  intro α _ _ _ c vx vy vr hc clamped total
  have htotal : amplitude (rawSpeeds c vx vy vr) = total := by
    rw [amplitude_rawSpeeds hc, clampInput_of_legal hc, clampInput_of_legal hc, clampInput_of_legal hc]
  refine ⟨htotal, ?_, htotal ▸ mixLanes_ne_rawSpeeds_iff hc⟩
  rw [← htotal, amplitude_rawSpeeds hc]
  have hx := abs_clampInput_le_one hc vx
  have hy := abs_clampInput_le_one hc vy
  have hr := abs_clampInput_le_one hc vr
  linarith

/-- Settles O9: `mixLanes_get_eq_mul`; where the amplitude is zero every lane is. -/
theorem mixKeepsTheMixingRatios : Obligations.MixKeepsTheMixingRatios := by
  intro s vx vy vr hc hrun
  refine ⟨_, exec_mix hrun vx vy vr, mixLanes_get_eq_mul hc, fun hzero k => ?_⟩
  rw [mixLanes_of_amplitude_le hc (hzero.trans_le zero_le_two), and_self]
  exact rawSpeeds_get_of_amplitude_zero hzero k

/-- Settles O12: the four laws, each for `mixLanes`. -/
theorem mixIsZeroAtRestEqualInRotationLinearAndOdd : Obligations.MixIsZeroAtRestEqualInRotationLinearAndOdd := by
  intro s hc hrun
  refine ⟨?_, fun r hlo hhi => ?_, fun vx vy vr k hx hx' hy hy' hr hr' hamp h0 h1 => ?_, fun vx vy vr => ?_⟩
  · rw [exec_mix hrun, mixLanes_zero hc]
  · refine ⟨_, exec_mix hrun 0 0 r, fun k => ?_⟩
    rw [mixLanes_rotation hc hlo hhi]
    exact ⟨rawSpeeds_rotation hc hlo hhi k, abs_rawSpeeds_rotation hc hlo hhi k⟩
  · refine ⟨_, exec_mix hrun vx vy vr, ?_⟩
    rw [exec_mix hrun, mixLanes_mul hc (abs_le.2 ⟨hx, hx'⟩) (abs_le.2 ⟨hy, hy'⟩) (abs_le.2 ⟨hr, hr'⟩) hamp h0.le h1]
  · refine ⟨_, exec_mix hrun vx vy vr, ?_⟩
    rw [exec_mix hrun, mixLanes_neg hc]
    simp only [neg_one_mul]

/-! ### Rounding and the lanes of ENCODE -/

section Encoder

variable {α : Type} [Field α] [LinearOrder α] [IsStrictOrderedRing α] [FloorRing α] {c : Config α}

/-- The rounded value does not pass an integer that the value does not pass. -/
theorem roundNum_le_of_le {t : TieRule} {x : α} {n : ℤ} (h : x ≤ n) : roundNum t x ≤ n := by
  have hhalf := (abs_le.1 (abs_roundNum_sub_le_half t x)).2
  have hlt : (roundNum t x : α) < ((n + 1 : ℤ) : α) := by
    push_cast
    linarith
  exact Int.lt_add_one_iff.1 (Int.cast_lt.1 hlt)

theorem le_roundNum_of_le {t : TieRule} {x : α} {n : ℤ} (h : (n : α) ≤ x) : n ≤ roundNum t x := by
  have hhalf := (abs_le.1 (abs_roundNum_sub_le_half t x)).1
  have hlt : ((n - 1 : ℤ) : α) < roundNum t x := by
    push_cast
    linarith
  exact Int.sub_one_lt_iff.1 (Int.cast_lt.1 hlt)

/-- Under one tie rule rounding is monotonic: with unequal floors an integer lies between, and with equal floors only one
number can both go up and stay down, the tie. -/
theorem roundNum_mono (t : TieRule) {x y : α} (h : x ≤ y) : roundNum t x ≤ roundNum t y := by
  rcases (Int.floor_mono h).eq_or_lt with heq | hlt
  · rcases roundNum_eq_floor_or_succ t x with ⟨hx, -⟩ | ⟨hx, hup⟩
    · exact hx ▸ heq ▸ le_roundNum_of_le (Int.floor_le y)
    · rcases roundNum_eq_floor_or_succ t y with ⟨-, hdown⟩ | ⟨hy, -⟩
      · rw [heq] at hup
        have hxy : x = y := le_antisymm h (by linarith)
        rw [hxy]
      · rw [hx, hy, heq]
  · have hx : x ≤ (⌊y⌋ : ℤ) := (Int.floor_lt.1 hlt).le
    exact (roundNum_le_of_le hx).trans (le_roundNum_of_le (Int.floor_le y))

theorem encodeLane_mono (hc : c.legal = true) {w w' : α} (h : w ≤ w') : encodeLane c w ≤ encodeLane c w' := by
  have hround : roundNum c.tie (1500 + 50 * w) ≤ roundNum c.tie (1500 + 50 * w') := roundNum_mono _ (by linarith)
  rw [encodeLane_of_legal hc, encodeLane_of_legal hc]
  omega

theorem encodeLane_of_two_le (hc : c.legal = true) {w : α} (h : 2 ≤ w) : encodeLane c w = 1600 := by
  have hround : 1600 ≤ roundNum c.tie (1500 + 50 * w) := le_roundNum_of_le (by push_cast; linarith)
  rw [encodeLane_of_legal hc]
  omega

theorem encodeLane_of_le_neg_two (hc : c.legal = true) {w : α} (h : w ≤ -2) : encodeLane c w = 1400 := by
  have hround : roundNum c.tie (1500 + 50 * w) ≤ 1400 := roundNum_le_of_le (by push_cast; linarith)
  rw [encodeLane_of_legal hc]
  omega

/-- Between −2 and 2 the clamp changes nothing (R127). -/
theorem encodeLane_of_abs_le_two (hc : c.legal = true) {w : α} (h : |w| ≤ 2) :
    encodeLane c w = roundNum c.tie (1500 + 50 * w) := by
  obtain ⟨hlo, hhi⟩ := abs_le.1 h
  have hge : 1400 ≤ roundNum c.tie (1500 + 50 * w) := le_roundNum_of_le (by push_cast; linarith)
  have hle : roundNum c.tie (1500 + 50 * w) ≤ 1600 := roundNum_le_of_le (by push_cast; linarith)
  rw [encodeLane_of_legal hc]
  omega

theorem encodeLane_zero (hc : c.legal = true) : encodeLane c 0 = 1500 := by
  rw [encodeLane_of_abs_le_two hc (by simp)]
  exact roundNum_eq_of_abs_sub_lt_half _ (by simp)

/-- The neutral command encodes to 1500 four times (R148). -/
theorem encodeLanes_mixLanes_zero (hc : c.legal = true) :
    encodeLanes c (mixLanes c 0 0 0) = ⟨1500, 1500, 1500, 1500⟩ := by
  rw [mixLanes_zero hc, encodeLanes, Lanes.map, encodeLane_zero hc]

end Encoder

/-- Settles O8: `abs_mixLanes_get_le_two`, and so the clamp of ENCODE changes nothing (`encodeLane_of_abs_le_two`). -/
theorem mixResultsStayInRangeAndAreNeverClamped : Obligations.MixResultsStayInRangeAndAreNeverClamped := by
  intro s vx vy vr hc hrun
  refine ⟨_, exec_mix hrun vx vy vr, fun k => ?_, ?_⟩
  · obtain ⟨hlo, hhi⟩ := abs_le.1 (abs_mixLanes_get_le_two (vx := vx) (vy := vy) (vr := vr) hc k)
    refine ⟨hlo, hhi, ?_, ?_⟩ <;> linarith
  · have hlanes : encodeLanes s.cfg (mixLanes s.cfg vx vy vr) =
        (mixLanes s.cfg vx vy vr).map fun x => roundNum s.cfg.tie (1500 + 50 * x) := by
      refine Lanes.ext_get fun k => ?_
      rw [encodeLanes, Lanes.get_map, Lanes.get_map, encodeLane_of_abs_le_two hc (abs_mixLanes_get_le_two hc k)]
    rw [exec_encode_of_legal hc hrun, hlanes]

/-- Settles O16: each lane is `encodeLane`, which is monotonic and saturates. -/
theorem encodeIsMonotonicPerLaneAndBounded : Obligations.EncodeIsMonotonicPerLaneAndBounded := by
  intro s w w' hc hrun
  refine ⟨_, _, exec_encode_of_legal hc hrun w, exec_encode_of_legal hc hrun w', fun k => ?_⟩
  rw [encodeLanes, encodeLanes, Lanes.get_map, Lanes.get_map]
  exact ⟨encodeLane_mono hc, encodeLane_of_two_le hc, encodeLane_of_le_neg_two hc⟩

/-- Settles O17: a maximal lane of MIX is 2 or −2 by its sign, which ENCODE takes to the ends of the envelope. -/
theorem saturatedCommandsReachTheEnvelopeExtremes : Obligations.SaturatedCommandsReachTheEnvelopeExtremes := by
  intro s vx vy vr hc hrun r
  refine ⟨_, _, exec_mix hrun vx vy vr, exec_encode_of_legal hc hrun _, fun k => ?_, fun hamp k hk => ?_,
    fun hx hy hr => ?_⟩
  · rw [encodeLanes, Lanes.get_map]
    exact encodeLane_mem_envelope hc _
  · have htwo := abs_mixLanes_get_of_maximal hc hamp hk
    have hsign := mixLanes_get_pos_iff (vx := vx) (vy := vy) (vr := vr) hc k
    rw [encodeLanes, Lanes.get_map]
    split
    · rename_i hpos
      rw [abs_of_pos (hsign.2 hpos)] at htwo
      exact encodeLane_of_two_le hc htwo.ge
    · rename_i hneg
      rw [abs_of_nonpos (not_lt.1 (mt hsign.1 hneg))] at htwo
      exact encodeLane_of_le_neg_two hc (by linarith)
  · subst hx hy hr
    exact encodeLanes_mixLanes_zero hc

end Sys2Proof.Machine
end

section
/-! Runs of the host: a tick, startup and shutdown, and the draining of a telemetry frame, each to its end
(44_host_sequences.md R225 to R235, R283). -/

namespace Sys2Proof.Machine

/-! ### Runs -/

/-- Some number of steps leads from `s` to `t`. -/
def Reaches (s t : State) : Prop := ∃ k, steps k s = .next t

theorem steps_add (j k : Nat) (s : State) : steps (j + k) s = thenDo (steps j s) (steps k) := by
  induction j generalizing s with
  | zero => rw [Nat.zero_add]; rfl
  | succ j ih =>
    rw [Nat.succ_add, steps, steps]
    cases step s with
    | next t => exact ih t
    | fault r => rfl
    | refused r => rfl

theorem Reaches.trans {s t u : State} (h : Reaches s t) (g : Reaches t u) : Reaches s u := by
  obtain ⟨j, hj⟩ := h
  obtain ⟨k, hk⟩ := g
  exact ⟨j + k, by rw [steps_add, hj, thenDo_next, hk]⟩

theorem exists_steps_of_reaches {s : State} {P : State → Prop} (h : ∃ t, Reaches s t ∧ P t) :
    ∃ k t, steps k s = .next t ∧ P t := by
  obtain ⟨t, ⟨k, hk⟩, hP⟩ := h
  exact ⟨k, t, hk, hP⟩

section Moves

variable {s t : State} {m : Move} {rest : List Move}

theorem reaches_of_runMove (hi : s.inputs = []) (ha : s.agenda = m :: rest) (hm : moveExists m s = true)
    (h : runMove m { s with agenda := rest } = .next t) : Reaches s t :=
  ⟨1, steps_of_agenda hi ha hm h⟩

theorem reaches_of_op {i : Instr} (hi : s.inputs = []) (ha : s.agenda = .op i :: rest)
    (h : exec i { s with agenda := rest } = .next t) : Reaches s t :=
  reaches_of_runMove hi ha rfl ((perform_eq_exec i _).trans h)

/-! ### POLL and SEND_VELOCITY -/

/-- POLL puts the two query frames on TX (R105). -/
theorem reaches_of_poll (hi : s.inputs = []) (hrun : s.halted = false) (ha : s.agenda = .poll :: rest) :
    Reaches s { s with
      agenda := rest
      tx := s.tx ++ (OutFrame.queryRawImu.bytes s.cfg ++ OutFrame.queryAttitude.bytes s.cfg)
      out := .completed } := by
  rw [← List.append_assoc]
  have himu : Reaches (push [.op .txQueryRawImu, .op .txQueryAttitude] { s with agenda := rest }) _ :=
    reaches_of_op hi rfl (exec_txQueryRawImu_of_running hrun)
  exact (reaches_of_runMove hi ha rfl rfl).trans
    (himu.trans (reaches_of_op hi rfl (exec_txQueryAttitude_of_running hrun)))

/-- The motor frame that SEND_VELOCITY puts on TX. -/
def velocityFrame (c : Config) (v : Velocity) : OutFrame := .motor (encodeLanes c (mixLanes c v.vx v.vy v.vr))

/-- SEND_VELOCITY puts its motor frame on TX: under a configuration of this hardware neither check fails (R105, R146). -/
theorem reaches_of_sendVelocity {v : Velocity} (hc : s.cfg.legal = true) (hi : s.inputs = []) (hrun : s.halted = false)
    (ha : s.agenda = m :: rest) (hm : m = .sendVelocity v ∨ m = .sendNeutral ∧ v = ⟨0, 0, 0⟩) :
    Reaches s { s with
      agenda := rest, tx := s.tx ++ (velocityFrame s.cfg v).bytes s.cfg, out := .completed } := by
  have hmove : moveExists m s = true ∧ ∀ u, runMove m u = runSendVelocity v u := by
    obtain rfl | ⟨rfl, rfl⟩ := hm <;> exact ⟨rfl, fun _ => rfl⟩
  have hmix : runMove m { s with agenda := rest } = .next { s with
      agenda := .encodeResult :: .txResult :: rest
      out := .wheels (mixLanes s.cfg v.vx v.vy v.vr) } := by
    rw [hmove.2, runSendVelocity, perform_eq_exec]
    exact exec_mix (by exact hrun) _ _ _
  have hencode : runMove .encodeResult { s with
      agenda := .txResult :: rest, out := .wheels (mixLanes s.cfg v.vx v.vy v.vr) } = .next { s with
      agenda := .txResult :: rest
      out := .motor (encodeLanes s.cfg (mixLanes s.cfg v.vx v.vy v.vr)) } := by
    simp only [runMove, runEncodeResult, perform_eq_exec]
    exact exec_encode_of_legal (by exact hc) (by exact hrun) _
  have hsend : runMove .txResult { s with
      agenda := rest, out := .motor (encodeLanes s.cfg (mixLanes s.cfg v.vx v.vy v.vr)) } = .next { s with
      agenda := rest, tx := s.tx ++ (velocityFrame s.cfg v).bytes s.cfg, out := .completed } := by
    simp only [runMove, runTxResult, perform_eq_exec]
    exact sendMotor_of_inside (by exact hrun) (inside_of_none (firstViolation_encodeLanes (by exact hc) _))
  exact (reaches_of_runMove hi ha hmove.1 hmix).trans
    ((reaches_of_runMove (by exact hi) rfl rfl hencode).trans (reaches_of_runMove (by exact hi) rfl rfl hsend))

/-- Draining an empty transport ends the drain. -/
theorem reaches_of_drain_empty (hi : s.inputs = []) (hrun : s.halted = false) (hp : s.hostPhase = .ticking)
    (ht : s.transport = []) (ha : s.agenda = .drain :: rest) : Reaches s { s with agenda := rest } := by
  refine reaches_of_runMove hi ha (decide_eq_true hp) ?_
  simp only [runMove, runDrain, hrun, ht]
  rfl

/-- The start of a tick with nothing to drain. -/
theorem reaches_consume_of_tick (hi : s.inputs = []) (hrun : s.halted = false) (hp : s.hostPhase = .ticking)
    (ht : s.transport = []) (ha : s.agenda = .tick :: rest) :
    Reaches s { s with agenda := .consume :: .poll :: rest } := by
  refine (reaches_of_runMove hi ha (decide_eq_true hp) rfl).trans ?_
  exact reaches_of_drain_empty hi hrun hp ht rfl

end Moves

theorem queries_length (c : Config) :
    (OutFrame.queryRawImu.bytes c ++ OutFrame.queryAttitude.bytes c).length = 12 := by
  simp [OutFrame.bytes, frameBytes_length]

theorem velocityFrame_length (c : Config) (v : Velocity) : ((velocityFrame c v).bytes c).length = 14 := by
  simp [velocityFrame, OutFrame.bytes, frameBytes_length]

/-- Settles O57: after the empty drain the swap takes the command, if there is one; it is sent and echoed, and POLL
sends the two queries. -/
theorem aTickSendsTwelveOrTwentySixBytes : Obligations.ATickSendsTwelveOrTwentySixBytes := by
  intro s hi ha hp ht hrun
  have hstart := reaches_consume_of_tick hi hrun hp ht ha
  refine ⟨fun hnone => ?_, fun v hc hsome hbus => ?_⟩
  · have hconsume : Reaches { s with agenda := [.consume, .poll] } { s with agenda := [.poll] } := by
      refine reaches_of_runMove hi rfl (decide_eq_true hp) ?_
      simp only [runMove, runConsume, hnone]
    have hpoll := reaches_of_poll (s := { s with agenda := [.poll] }) hi hrun rfl
    refine exists_steps_of_reaches ⟨_, hstart.trans (hconsume.trans hpoll), rfl, rfl, ?_, rfl, hrun⟩
    rw [List.length_append, queries_length]
  · have hconsume : Reaches { s with agenda := [.consume, .poll] }
        { s with agenda := [.sendVelocity v, .echo v, .poll], pending := none } := by
      refine reaches_of_runMove hi rfl (decide_eq_true hp) ?_
      simp only [runMove, runConsume, hsome]
      rfl
    have hsend := reaches_of_sendVelocity (s := { s with
      agenda := [.sendVelocity v, .echo v, .poll], pending := none }) hc hi hrun rfl (.inl rfl)
    have hecho : Reaches { s with
        agenda := [.echo v, .poll], pending := none, tx := s.tx ++ (velocityFrame s.cfg v).bytes s.cfg
        out := .completed } { s with
        agenda := [.poll], pending := none, tx := s.tx ++ (velocityFrame s.cfg v).bytes s.cfg
        out := .completed, echoOut := s.echoOut ++ [v] } := by
      refine reaches_of_runMove hi rfl rfl ?_
      rw [publishes_echo v _ rfl, publishWith_of_working (by exact hbus)]
    have hpoll := reaches_of_poll (s := { s with
      agenda := [.poll], pending := none, tx := s.tx ++ (velocityFrame s.cfg v).bytes s.cfg
      out := .completed, echoOut := s.echoOut ++ [v] }) hi hrun rfl
    refine exists_steps_of_reaches ⟨_, hstart.trans (hconsume.trans (hsend.trans (hecho.trans hpoll))), rfl, ?_, ?_, rfl,
      rfl, hrun⟩
    · simp only [List.append_assoc]
      rfl
    · rw [List.length_append, List.length_append, queries_length, velocityFrame_length]

/-! ### Startup and shutdown -/

section Neutral

variable {s : State} {tx : List Byte}

theorem neutralFrame_eq (c : Config) : neutralFrame c = (velocityFrame c ⟨0, 0, 0⟩).bytes c := rfl

theorem velocityFrame_zero {c : Config} (hc : c.legal = true) :
    velocityFrame c ⟨0, 0, 0⟩ = .motor ⟨1500, 1500, 1500, 1500⟩ := by
  rw [velocityFrame, encodeLanes_mixLanes_zero hc]

theorem neutralJustSent_of_append (h : s.tx = tx ++ neutralFrame s.cfg) : neutralJustSent s = true := by
  rw [neutralJustSent, h, List.isSuffixOf_iff_suffix]
  exact List.suffix_append _ _

theorem sentBeforeNeutral_of_append (h : s.tx = tx ++ neutralFrame s.cfg) : sentBeforeNeutral s = tx.length := by
  rw [sentBeforeNeutral, h, List.length_append, Nat.add_sub_cancel]

/-- The hold passes when exactly the neutral frame was sent since the flush. -/
theorem moveExists_hold (hp : s.hostPhase = .flushed tx.length) (h : s.tx = tx ++ neutralFrame s.cfg) :
    moveExists (.wait .hold) s = true := by
  simp only [moveExists, hp, sentBeforeNeutral_of_append h, neutralJustSent_of_append h, decide_true, Bool.and_self]

theorem moveExists_begin (hp : s.hostPhase = .held s.tx.length) (h : s.tx = tx ++ neutralFrame s.cfg) :
    moveExists .begin s = true := by
  simp only [moveExists, hp, neutralJustSent_of_append h, decide_true, Bool.and_self]

theorem moveExists_shutdown (hp : s.hostPhase ≠ .stopped) (h : s.tx = tx ++ neutralFrame s.cfg) :
    moveExists (.wait .shutdown) s = true := by
  simp only [moveExists, decide_eq_true hp, neutralJustSent_of_append h, Bool.and_self]

theorem moveExists_release (hp : s.hostPhase = .parked s.tx.length) (h : s.tx = tx ++ neutralFrame s.cfg) :
    moveExists .release s = true := by
  simp only [moveExists, hp, neutralJustSent_of_append h, decide_true, Bool.and_self]

end Neutral

/-- The block after RESET, with the agenda `ms` before it. -/
def restarted (s : State) (ms : List Move) : State :=
  { resetBlock { s with agenda := ms } with out := .completed }

/-- Startup begins with RESET (R234, R283). -/
theorem reaches_restarted {s : State} {ok : Bool} (hi : s.inputs = []) (ha : s.agenda = [.startup ok]) :
    Reaches s (restarted s [.openTransport ok, .wait .settle, .flush, .sendNeutral, .wait .hold, .begin]) :=
  (reaches_of_runMove hi ha rfl rfl).trans (reaches_of_op hi rfl rfl)

/-- Open, settle and flush, in this order, leave the host before the neutral command. -/
theorem reaches_flushed {s : State} {ms : List Move} (hi : s.inputs = []) :
    Reaches (restarted s (.openTransport true :: .wait .settle :: .flush :: ms))
      { restarted s ms with hostPhase := .flushed 0, transport := [] } :=
  (reaches_of_runMove (by exact hi) rfl rfl rfl).trans
    ((reaches_of_runMove (by exact hi) rfl rfl rfl).trans (reaches_of_runMove (by exact hi) rfl rfl rfl))

/-- Settles O58: startup is RESET, the opening, the flush and the neutral command, after which the hold and the start of
ticking exist; a failed open drops the rest; after shutdown's neutral command its wait and the release exist. -/
theorem startupAndShutdownRunToTheirEnd : Obligations.StartupAndShutdownRunToTheirEnd := by
  intro s hi
  refine ⟨fun hc ha => ?_, fun ha => ?_, fun hc hrun hp ha => ?_⟩
  · have hsend := reaches_of_sendVelocity (v := ⟨0, 0, 0⟩) (s := { restarted s [.sendNeutral, .wait .hold, .begin] with
      hostPhase := .flushed 0, transport := [] }) hc hi rfl rfl (.inr ⟨rfl, rfl⟩)
    have hhold := reaches_of_runMove (s := { restarted s [.wait .hold, .begin] with
      hostPhase := .flushed 0, transport := [], tx := neutralFrame s.chosenCfg }) hi rfl
      (moveExists_hold (tx := []) rfl rfl) rfl
    have hbegin := reaches_of_runMove (s := { restarted s [.begin] with
      hostPhase := .held (neutralFrame s.chosenCfg).length, transport := [], tx := neutralFrame s.chosenCfg }) hi rfl
      (moveExists_begin (tx := []) rfl rfl) rfl
    have htx : neutralFrame s.chosenCfg = OutFrame.bytes s.chosenCfg (.motor ⟨1500, 1500, 1500, 1500⟩) := by
      rw [neutralFrame_eq, velocityFrame_zero hc]
    exact exists_steps_of_reaches ⟨_, (reaches_restarted hi ha).trans ((reaches_flushed hi).trans
      (hsend.trans (hhold.trans hbegin))), rfl, rfl, rfl, htx, rfl, rfl, rfl, rfl⟩
  · have hopen : Reaches (restarted s [.openTransport false, .wait .settle, .flush, .sendNeutral, .wait .hold, .begin])
        (stopHost (restarted s [.wait .settle, .flush, .sendNeutral, .wait .hold, .begin])) :=
      reaches_of_runMove hi rfl rfl rfl
    exact exists_steps_of_reaches ⟨_, (reaches_restarted hi ha).trans hopen, rfl, rfl, rfl, rfl⟩
  · have hpush : Reaches s { s with agenda := [.sendNeutral, .wait .shutdown, .release] } :=
      reaches_of_runMove hi ha rfl rfl
    have hsend := reaches_of_sendVelocity (v := ⟨0, 0, 0⟩) (s := { s with
      agenda := [.sendNeutral, .wait .shutdown, .release] }) hc hi hrun rfl (.inr ⟨rfl, rfl⟩)
    have hwait := reaches_of_runMove (s := { s with
      agenda := [.wait .shutdown, .release], tx := s.tx ++ neutralFrame s.cfg, out := .completed }) hi rfl
      (moveExists_shutdown hp rfl) rfl
    have hrelease := reaches_of_runMove (s := { s with
      agenda := [.release], tx := s.tx ++ neutralFrame s.cfg, out := .completed
      hostPhase := .parked (s.tx ++ neutralFrame s.cfg).length }) hi rfl (moveExists_release rfl rfl) rfl
    have htx : s.tx ++ neutralFrame s.cfg = s.tx ++ OutFrame.bytes s.cfg (.motor ⟨1500, 1500, 1500, 1500⟩) := by
      rw [neutralFrame_eq, velocityFrame_zero hc]
    exact exists_steps_of_reaches ⟨_, hpush.trans (hsend.trans (hwait.trans hrelease)), rfl, rfl, htx, rfl⟩

/-! ### Draining a frame -/

/-- FEED neither reads nor writes the transport and the agenda. -/
theorem feedByte_of_host {s t : State} {b : Byte} (h : feedByte b s = .next t) (bs : List Byte) (ms : List Move) :
    feedByte b { s with transport := bs, agenda := ms } = .next { t with transport := bs, agenda := ms } := by
  obtain ⟨p, hp⟩ : ∃ p, s.rxPhase = p := ⟨_, rfl⟩
  cases p with
  | sync0 => rw [feedByte_sync0 hp] at h; cases h; exact feedByte_sync0 hp
  | sync1 => rw [feedByte_sync1 hp] at h; cases h; exact feedByte_sync1 hp
  | sync2 => rw [feedByte_sync2 hp] at h; cases h; exact feedByte_sync2 hp
  | len =>
    rcases Nat.lt_or_ge s.cfg.maxPayload b.toNat with hb | hb
    · rw [feedByte_len_drop hp hb] at h; cases h; exact feedByte_len_drop hp hb
    · rw [feedByte_len_ok hp hb] at h; cases h; exact feedByte_len_ok hp hb
  | opc => rw [feedByte_opc hp] at h; cases h; exact feedByte_opc hp
  | payload =>
    rcases Nat.lt_or_ge s.rxIdx s.cfg.maxPayload with hi | hi
    · rw [feedByte_payload hp hi] at h; cases h; exact feedByte_payload hp hi
    · rw [feedByte_payload_outside hp hi] at h; cases h
  | chk => rw [feedByte_chk hp] at h; cases h; exact feedByte_chk hp

section FeedRun

variable {s t : State} {bs : List Byte}

theorem feedRun_eq_some_cons {d : Bool} {ds : List Bool} (hrun : s.halted = false)
    (h : feedRun bs s = some (d :: ds, t)) :
    ∃ b cs u, bs = b :: cs ∧ feedByte b s = .next u ∧ u.rxValid = d ∧ feedRun cs u = some (ds, t) := by
  cases bs with
  | nil => cases h
  | cons b cs =>
    cases hb : feedByte b s with
    | next u =>
      rw [feedRun_cons_of_feedByte hrun hb, Option.map_eq_some_iff] at h
      obtain ⟨⟨ds', t'⟩, hcs, heq⟩ := h
      cases heq
      exact ⟨b, cs, u, rfl, hb, rfl, hcs⟩
    | fault r => simp [feedRun, exec_feed hrun, hb] at h
    | refused r => simp [feedRun, exec_feed hrun, hb] at h

theorem feedRun_eq_some_nil (hrun : s.halted = false) (h : feedRun bs s = some ([], t)) : bs = [] ∧ t = s := by
  cases bs with
  | nil => cases h; exact ⟨rfl, rfl⟩
  | cons b cs =>
    cases hb : feedByte b s with
    | next u =>
      rw [feedRun_cons_of_feedByte hrun hb, Option.map_eq_some_iff] at h
      obtain ⟨r, -, heq⟩ := h
      cases heq
    | fault r => simp [feedRun, exec_feed hrun, hb] at h
    | refused r => simp [feedRun, exec_feed hrun, hb] at h

end FeedRun

section Drain

variable {s t : State} {b : Byte} {bs : List Byte} {rest : List Move}

theorem feedByte_host {s t : State} {b : Byte} (h : feedByte b s = .next t) :
    t.inputs = s.inputs ∧ t.hostPhase = s.hostPhase ∧ t.agenda = s.agenda := by
  rw [(feedByte_effect h).1]
  exact ⟨rfl, rfl, rfl⟩

/-- The drain feeds the next byte of the transport. -/
theorem reaches_fed (hi : s.inputs = []) (hrun : s.halted = false) (hp : s.hostPhase = .ticking)
    (ha : s.agenda = .drain :: rest) (h : feedByte b s = .next t) :
    Reaches { s with transport := b :: bs }
      { t with transport := bs, agenda := .dispatchIfDone :: .drain :: rest } := by
  refine reaches_of_runMove hi ha (decide_eq_true hp) ?_
  calc runMove .drain { s with transport := b :: bs, agenda := rest }
      = perform (.feed b) { s with transport := bs, agenda := .dispatchIfDone :: .drain :: rest } := by
        rw [runMove, runDrain, if_neg (Bool.eq_false_iff.mp hrun)]
        rfl
    _ = feedByte b { s with transport := bs, agenda := .dispatchIfDone :: .drain :: rest } := by
        rw [perform_eq_exec]
        exact exec_feed (by exact hrun) b
    _ = _ := feedByte_of_host h bs _

/-- A byte that completes no frame is drained, and the drain goes on (R226). -/
theorem reaches_of_byte_false (hi : s.inputs = []) (hrun : s.halted = false) (hp : s.hostPhase = .ticking)
    (ha : s.agenda = .drain :: rest) (h : feedByte b s = .next t) (hv : t.rxValid = false) :
    Reaches { s with transport := b :: bs } { t with transport := bs } := by
  obtain ⟨hi', -, ha'⟩ := feedByte_host h
  refine (reaches_fed hi hrun hp ha h).trans (reaches_of_runMove (hi'.trans hi) rfl rfl ?_)
  simp only [runMove, runDispatchIfDone, (feedByte_effect h).2.1, hv, ha', ha]

/-- A byte that completes a frame has it dispatched before the drain goes on (R227). -/
theorem reaches_of_byte_true (hi : s.inputs = []) (hrun : s.halted = false) (hp : s.hostPhase = .ticking)
    (ha : s.agenda = .drain :: rest) (h : feedByte b s = .next t) (hv : t.rxValid = true) :
    Reaches { s with transport := b :: bs } { t with transport := bs, agenda := .dispatch :: .drain :: rest } := by
  obtain ⟨hi', -, -⟩ := feedByte_host h
  refine (reaches_fed hi hrun hp ha h).trans (reaches_of_runMove (hi'.trans hi) rfl rfl ?_)
  simp only [runMove, runDispatchIfDone, (feedByte_effect h).2.1, hv]
  rfl

/-- Bytes of the transport whose last completes a frame are drained, and the frame is dispatched. -/
theorem reaches_dispatch {n : Nat} (hi : s.inputs = []) (hrun : s.halted = false) (hp : s.hostPhase = .ticking)
    (ha : s.agenda = .drain :: rest) (h : feedRun bs s = some (List.replicate n false ++ [true], t)) :
    Reaches { s with transport := bs } { t with transport := [], agenda := .dispatch :: .drain :: rest } := by
  induction n generalizing s bs with
  | zero =>
    obtain ⟨b, cs, u, rfl, hu, hv, hcs⟩ := feedRun_eq_some_cons hrun h
    obtain ⟨rfl, rfl⟩ := feedRun_eq_some_nil (by rw [feedByte_halted hu, hrun]) hcs
    exact reaches_of_byte_true hi hrun hp ha hu hv
  | succ n ih =>
    obtain ⟨b, cs, u, rfl, hu, hv, hcs⟩ := feedRun_eq_some_cons hrun h
    obtain ⟨hi', hp', ha'⟩ := feedByte_host hu
    exact (reaches_of_byte_false hi hrun hp ha hu hv).trans
      (ih (hi'.trans hi) (by rw [feedByte_halted hu, hrun]) (hp'.trans hp) (ha'.trans ha) hcs)

end Drain

/-! ### Dispatching a frame -/

section Dispatch

variable {s t : State} {rest : List Move}

/-- DISPATCH publishes what the two typed queries answer, in this order (R105, R227). -/
theorem reaches_of_dispatch {imu : Option RawInertialSample} {att : Option AttitudeSample} (hi : s.inputs = [])
    (hbus : s.busFailing = false) (ha : s.agenda = .dispatch :: rest)
    (himu : ∀ ms, exec .getRawImu { s with agenda := ms } = .next { s with agenda := ms, out := .imu imu })
    (hatt : ∀ ms xs, exec .getAttitude { s with agenda := ms, inertialOut := xs } =
      .next { s with agenda := ms, inertialOut := xs, out := .att att }) :
    Reaches s { s with
      agenda := rest, inertialOut := s.inertialOut ++ (imu.map inertialRecord).toList
      attitudeOut := s.attitudeOut ++ (att.map attitudeRecord).toList, out := .att att } := by
  have hpublishImu : runMove .publish { s with agenda := .op .getAttitude :: .publish :: rest, out := .imu imu } =
      .next { s with
        agenda := .op .getAttitude :: .publish :: rest
        inertialOut := s.inertialOut ++ (imu.map inertialRecord).toList, out := .imu imu } := by
    cases imu with
    | none => simp [runMove, runPublish]
    | some r => rw [publishes_imu r _ rfl, publishWith_of_working (by exact hbus)]; rfl
  have hpublishAtt : ∀ xs, runMove .publish { s with agenda := rest, inertialOut := xs, out := .att att } =
      .next { s with
        agenda := rest, inertialOut := xs
        attitudeOut := s.attitudeOut ++ (att.map attitudeRecord).toList, out := .att att } := by
    intro xs
    cases att with
    | none => simp [runMove, runPublish]
    | some a => rw [publishes_att a _ rfl, publishWith_of_working (by exact hbus)]; rfl
  have hget : ∀ xs, exec .getAttitude { s with agenda := .publish :: rest, inertialOut := xs, out := .imu imu } =
      .next { s with agenda := .publish :: rest, inertialOut := xs, out := .att att } := fun xs =>
    (exec_out_of_isPure rfl _ _).trans (hatt _ xs)
  have hqueryImu : Reaches s { s with agenda := .publish :: .op .getAttitude :: .publish :: rest, out := .imu imu } :=
    (reaches_of_runMove hi ha rfl rfl).trans (reaches_of_op (by exact hi) rfl (by exact himu _))
  have hsentImu := reaches_of_runMove (s := { s with
    agenda := .publish :: .op .getAttitude :: .publish :: rest, out := .imu imu }) hi rfl rfl hpublishImu
  have hqueryAtt := reaches_of_op (s := { s with
    agenda := .op .getAttitude :: .publish :: rest
    inertialOut := s.inertialOut ++ (imu.map inertialRecord).toList, out := .imu imu }) hi rfl (hget _)
  have hsentAtt := reaches_of_runMove (s := { s with
    agenda := .publish :: rest, inertialOut := s.inertialOut ++ (imu.map inertialRecord).toList
    out := .att att }) hi rfl rfl (hpublishAtt _)
  exact hqueryImu.trans (hsentImu.trans (hqueryAtt.trans hsentAtt))

end Dispatch

/-- A typed frame waiting in the transport is drained and dispatched, and the drain ends. -/
theorem reaches_of_waiting_frame {s : State} {opc : Byte} {p : List Byte} {imu : Option RawInertialSample}
    {att : Option AttitudeSample} (hc : s.cfg.legal = true) (hi : s.inputs = []) (ha : s.agenda = [.drain])
    (hp : s.hostPhase = .ticking) (hseek : s.rxPhase.seeking = true) (hrun : s.halted = false)
    (hbus : s.busFailing = false) (hlen : p.length ≤ s.cfg.maxPayload)
    (ht : s.transport = frameBytes s.cfg.syncRx opc p)
    (himu : ∀ s' : State, s'.cfg = s.cfg → s'.halted = false →
      exec .getRawImu (frameEnd s' p.length opc (Memory.writeFrom s'.rxBuf 0 p) true) =
        .next { frameEnd s' p.length opc (Memory.writeFrom s'.rxBuf 0 p) true with out := .imu imu })
    (hatt : ∀ s' : State, s'.cfg = s.cfg → s'.halted = false →
      exec .getAttitude (frameEnd s' p.length opc (Memory.writeFrom s'.rxBuf 0 p) true) =
        .next { frameEnd s' p.length opc (Memory.writeFrom s'.rxBuf 0 p) true with out := .att att }) :
    Reaches s { frameEnd s p.length opc (Memory.writeFrom s.rxBuf 0 p) true with
      transport := [], agenda := []
      inertialOut := s.inertialOut ++ (imu.map inertialRecord).toList
      attitudeOut := s.attitudeOut ++ (att.map attitudeRecord).toList, out := .att att } := by
  have hdrain := reaches_dispatch hi hrun hp ha (feedRun_frameBytes hc hrun hseek hlen opc)
  rw [← ht] at hdrain
  have hdispatch := reaches_of_dispatch (imu := imu) (att := att)
    (s := { frameEnd s p.length opc (Memory.writeFrom s.rxBuf 0 p) true with
      transport := [], agenda := [.dispatch, .drain] }) hi hbus rfl
    (fun ms => himu { s with transport := [], agenda := ms } rfl hrun)
    (fun ms xs => hatt { s with transport := [], agenda := ms, inertialOut := xs } rfl hrun)
  exact hdrain.trans (hdispatch.trans (reaches_of_drain_empty hi hrun hp rfl rfl))

section FrameEnd

variable {s : State} {p : List Byte} {opc : Byte} {m : Memory}

/-- A frame of another length is no raw-inertial frame (R196). -/
theorem exec_getRawImu_frameEnd_of_length (hrun : s.halted = false) (hlen : p.length ≠ 12) :
    exec .getRawImu (frameEnd s p.length opc m true) =
      .next { frameEnd s p.length opc m true with out := .imu none } :=
  exec_getRawImu_of_not_hit hrun fun h => hlen (isHit_iff.1 h).2.2

/-- A frame of another length is no attitude frame (R197). -/
theorem exec_getAttitude_frameEnd_of_length (hrun : s.halted = false) (hlen : p.length ≠ 6) :
    exec .getAttitude (frameEnd s p.length opc m true) =
      .next { frameEnd s p.length opc m true with out := .att none } :=
  exec_getAttitude_of_not_hit hrun fun h => hlen (isHit_iff.1 h).2.2

end FrameEnd

/-- Settles O59: the frame is drained and dispatched; the query of its kind answers its record, the other none. -/
theorem aDrainedTelemetryFrameIsPublished : Obligations.ADrainedTelemetryFrameIsPublished := by
  intro s hc hi ha hp hseek hrun hbus
  obtain ⟨-, -, -, -, -, -, hmax, -⟩ := wire_of_legal hc
  refine ⟨fun a hin ht => ?_, fun r hin ht => ?_⟩
  · have hreach := reaches_of_waiting_frame hc hi ha hp hseek hrun hbus (le_trans (by simp) hmax) ht
      (fun s' _ hrun' => exec_getRawImu_frameEnd_of_length hrun' (by simp))
      (fun s' hc' hrun' => exec_getAttitude_frameEnd (hc' ▸ hc) hrun' hin rfl (by rw [hc']))
    exact exists_steps_of_reaches ⟨_, hreach, rfl, rfl, rfl, List.append_nil _, rfl⟩
  · have hreach := reaches_of_waiting_frame hc hi ha hp hseek hrun hbus (le_trans (by simp) hmax) ht
      (fun s' hc' hrun' => exec_getRawImu_frameEnd (hc' ▸ hc) hrun' hin rfl (by rw [hc']))
      (fun s' _ hrun' => exec_getAttitude_frameEnd_of_length hrun' (by simp))
    exact exists_steps_of_reaches ⟨_, hreach, rfl, rfl, rfl, List.append_nil _, rfl⟩

end Sys2Proof.Machine
end
